-- ==== Sys2Proof/Word.lean ====
section
/-! DEFINITION. The words of the engine: bytes, byte strings and edge timestamps, with the one modular
subtraction the Line Synchronizer uses (00_scope.md R10, R12). -/

namespace Sys2Proof

/-- A byte is 8 bits (R10). The engine compares whole bytes. -/
abbrev Byte := BitVec 8

/-- A byte string, first byte first (R10). -/
abbrev Bytes := List Byte

/-- An edge timestamp: an unsigned count of microseconds, `TSW` = 32 bits wide (R8, R21; the spec's
decision D3). -/
abbrev Timestamp := BitVec 32

/-- `a -u b`: "unsigned wraparound subtraction", read as an unsigned number (R12, R126). -/
def elapsed (ts prev : Timestamp) : Nat := (ts - prev).toNat

end Sys2Proof
end

