-- ==== Sys2Proof/Config.lean ====
section
/-! DEFINITION. What one implementation fixes (00_scope.md R8): the constants, the types of the OPEN
parameters, and the uninterpreted constants that stand for what the spec leaves open. -/

namespace Sys2Proof

namespace Config

/-- Least duration of a low that is a break, in microseconds (R8, source). -/
abbrev breakUs : Nat := 12000
/-- Least duration of a high that is a mark, in microseconds (R8, source). -/
abbrev markUs : Nat := 8333
/-- Capacity of the value buffer (R8: "5 in the reference configuration"). -/
abbrev valueMax : Nat := 5
/-- Width of a data line for plain responses (R8, source). -/
abbrev wPlain : Nat := 35
/-- Width of a data line for concurrent, continuous and high-volume (R8, source). -/
abbrev wWide : Nat := 75
/-- Most digits in one formatted value (R8, source). -/
abbrev digitsMax : Nat := 7
/-- Most fractional digits in one formatted value (R8, source). -/
abbrev fracMax : Nat := 6
/-- Number of formatted-line slots (R8, the spec's decision D32). -/
abbrev lineSlots : Nat := 10
/-- Capacity of the command buffer, terminator excluded (R8, the spec's decision D11). -/
abbrev cmdMax : Nat := 32
/-- Most digits in one numeric parameter run (R8, the spec's decision D18). -/
abbrev paramDigits : Nat := 4
/-- Address taken at reset when the stored byte is no legal address (R8, R321, decisions D39, D49). -/
abbrev defaultAddr : Byte := 0x30#8
/-- Type code of a non-empty byte-data frame under the default `dbEncode` (R8, R190, D36). -/
abbrev dbType : Byte := 0x02#8
/-- Type code of the empty byte-data frame (R8, R190, D36). -/
abbrev dbTypeEmpty : Byte := 0x00#8

end Config

/-- The measurement classes (43_session_measure.md R220). -/
inductive MeasClass where
  | m | c | v | r | ha | hb
  deriving DecidableEq, Repr

/-- An opaque request for the Sensor Adapter; which token it stands for is OPEN (R307). -/
structure Request where
  tag : Nat
  deriving DecidableEq, Repr, Inhabited

/-- What `measTable` gives for one key (R9): `ttt` is 0..999 and the committed count `n` is 1..5, so the
table cannot hold an entry outside the bounds of R9. -/
structure MeasEntry where
  ttt : Fin 1000
  nLessOne : Fin 5
  req : Request
  deriving DecidableEq, Repr

/-- The committed value count n of an entry, 1..`VALUE_MAX` (R9). -/
def MeasEntry.n (e : MeasEntry) : Nat := e.nLessOne.val + 1

/-- One row of `measTable`: the key is a class and an index, `none` for the absent index (R9). -/
structure MeasRow where
  cls : MeasClass
  idx : Option Nat
  entry : MeasEntry
  deriving DecidableEq, Repr

/-- One row of the metadata table (20_memory.md R64). -/
structure IxRow where
  p1 : Int
  p2 : Int
  text : Bytes
  deriving DecidableEq, Repr

/-- A character an identity string may hold (10_state.md R31): one of the 94 printable ASCII bytes other
than `!`; its byte is `printByte`. CR and LF are not printable. -/
abbrev PrintChar := Fin 94

/-- The identity strings: "a string of printable ASCII bytes that contains neither `'!'` nor CR nor LF"
(10_state.md R31), so no configuration can hold another. -/
structure Identity where
  version : List PrintChar
  vendor : List PrintChar
  model : List PrintChar
  fw : List PrintChar
  info : List PrintChar
  deriving DecidableEq, Repr, Inhabited

/-- Which `dbEncode` the implementation has (42_session_basic.md R190): the default of the spec's test
vectors, or any other one, named by a number. -/
inductive DbEncode where
  | lineBytes
  | other (k : Nat)
  deriving DecidableEq, Repr

/-- The two forms whose behaviour is the OPEN parameter `extHandler` (R194). -/
inductive ExtKind where
  | extM | extU
  deriving DecidableEq, Repr

/-- Everything R194 lets an extended command do: at most one ASCII frame, given by its text, and bytes to
the Sensor Adapter. -/
structure ExtEffect where
  reply : Option Bytes
  toSensor : Bytes
  deriving DecidableEq, Repr, Inhabited

/-- The parameters of R8 that a claim must quantify over. They are plain data in State, which no step
changes, so a statement about every state is a statement about every configuration (log 1). The entry
(M, absent) of `measTable` is not here but for its request: R9 fixes it. -/
structure Params where
  identity : Identity
  reqM : Request
  measTable : List MeasRow
  ixTable : List IxRow
  dbEncode : DbEncode
  debugEcho : Bool
  pReq : Nat
  /-- `RXQ_CAP`, the capacity of the Transport's receive buffer (20_memory.md R66, U17) -/
  rxqCap : Nat
  deriving DecidableEq, Repr

namespace Config

/-- FREE VALUE (log 2): the power-on value of `prevEdge`, drawn afresh at each reset (R39, R323, U1). -/
opaque prevEdgeDraw : Nat → Timestamp

/-- FREE VALUE (log 9): the OPEN parameter `extHandler(sec, p, ext)` (R194, U4). -/
opaque extHandler : ExtKind → Int → Bytes → ExtEffect

/-- FREE VALUE (log 10): the OPEN parameter `debugEchoText` (R208, U5). -/
opaque debugEchoText : Bytes → Bytes

/-- FREE VALUE (log 11): a `dbEncode(n, count, V, L)` other than the default, for a populated line; its
first argument names it (R190, U6). -/
opaque dbEncodeOther : Nat → Nat → Nat → List Int → List Bytes → Byte × Bytes

/-- FREE VALUES (log 1): the OPEN parameters of the machine `State.reset` describes (R8). -/
opaque identity : Identity
opaque reqM : Request
opaque measTable : List MeasRow
opaque ixTable : List IxRow
opaque rxqCap : Nat

/-- The configuration of `State.reset`: the OPEN parameters uninterpreted (log 1), the others at their
defaults (R8). -/
def atReset : Params where
  identity := identity
  reqM := reqM
  measTable := measTable
  ixTable := ixTable
  dbEncode := .lineBytes
  debugEcho := false
  pReq := 6
  rxqCap := rxqCap

end Config

end Sys2Proof
end

