-- ==== Sys2Proof/Machine/Text.lean ====
section
/-! DEFINITION. Characters, decimal spellings and byte order: the helpers the parser, the encoder and the
session share (00_scope.md R10, R11, R12; 41_parser.md R163). -/

namespace Sys2Proof

/-- The terminator `!` (R11). -/
abbrev chBang : Byte := 0x21#8
/-- The wildcard `?` (R11). -/
abbrev chWild : Byte := 0x3F#8
abbrev chPlus : Byte := 0x2B#8
abbrev chMinus : Byte := 0x2D#8
abbrev chDot : Byte := 0x2E#8
abbrev chZero : Byte := 0x30#8
abbrev chA : Byte := 0x41#8
abbrev chB : Byte := 0x42#8
abbrev chC : Byte := 0x43#8
abbrev chD : Byte := 0x44#8
abbrev chH : Byte := 0x48#8
abbrev chI : Byte := 0x49#8
abbrev chM : Byte := 0x4D#8
abbrev chP : Byte := 0x50#8
abbrev chR : Byte := 0x52#8
abbrev chS : Byte := 0x53#8
abbrev chU : Byte := 0x55#8
abbrev chV : Byte := 0x56#8
abbrev chX : Byte := 0x58#8

/-- `CRLF` (R10). -/
abbrev crlf : Bytes := [0x0D#8, 0x0A#8]

/-- The token `exit!` (42_session_basic.md R205). -/
abbrev exitBytes : Bytes := [0x65#8, 0x78#8, 0x69#8, 0x74#8, 0x21#8]

/-- `DIGIT` (R11). -/
def isDigit (c : Byte) : Bool := decide (0x30 ≤ c.toNat) && decide (c.toNat ≤ 0x39)

/-- `DIGIT19` (R11). -/
def isDigit19 (c : Byte) : Bool := decide (0x31 ≤ c.toNat) && decide (c.toNat ≤ 0x39)

/-- `ALNUM` (R11): three range comparisons. -/
def isAlnum (c : Byte) : Bool :=
  isDigit c || (decide (0x41 ≤ c.toNat) && decide (c.toNat ≤ 0x5A))
    || (decide (0x61 ≤ c.toNat) && decide (c.toNat ≤ 0x7A))

/-- `dv(c) = c - 0x30`, the value of a digit (R11); for a byte that is no digit it is reduced modulo 10,
and no rule uses it there. -/
def dv (c : Byte) : Fin 10 := Fin.ofNat 10 (c.toNat - 0x30)

/-- The digit byte `0011dddd` of the lowest decimal digit of a number (R82). -/
def digitByte (n : Nat) : Byte := BitVec.ofNat 8 (0x30 + n % 10)

/-- The decimal value of a run of digits, most significant first (R86). -/
def decimalValue (ds : Bytes) : Nat := ds.foldl (fun acc c => 10 * acc + (dv c).val) 0

/-- `dec(n, w)`: n in decimal, padded on the left with `0` to exactly w characters (R12). -/
def dec (n : Nat) : Nat → Bytes
  | 0 => []
  | w + 1 => dec (n / 10) w ++ [digitByte n]

/-- The decimal spelling of n with fuel; `n` itself is fuel enough. -/
def decimalWith : Nat → Nat → Bytes
  | 0, n => [digitByte n]
  | fuel + 1, n => if n < 10 then [digitByte n] else decimalWith fuel (n / 10) ++ [digitByte n]

/-- The decimal spelling of a non-negative integer, without leading zeros (R262). -/
def decimal (n : Nat) : Bytes := decimalWith n n

/-- A spelling padded on the left with `0` to at least w characters (R262). -/
def padLeft (w : Nat) (ds : Bytes) : Bytes := List.replicate (w - ds.length) chZero ++ ds

/-- The byte of a character of an identity string: 0x20, then 0x22 to 0x7E (10_state.md R31). -/
def printByte (c : PrintChar) : Byte := BitVec.ofNat 8 (if c.val = 0 then 0x20 else 0x21 + c.val)

/-- The bytes of an identity string. -/
def printBytes (cs : List PrintChar) : Bytes := cs.map printByte

/-- `le16(x)`: the two bytes x mod 256 and x div 256, in that order (42_session_basic.md R189). -/
def le16 (x : Nat) : Bytes := [BitVec.ofNat 8 (x % 256), BitVec.ofNat 8 (x / 256)]

/-- The maximal runs of digits of a byte string, left to right; `cur` is the run in progress (R163). -/
def runsWith (cur : Bytes) : Bytes → List Bytes
  | [] => if cur = [] then [] else [cur]
  | b :: e =>
    if isDigit b then runsWith (cur ++ [b]) e
    else if cur = [] then runsWith [] e
    else cur :: runsWith [] e

/-- The value of one digit run, or none when it is longer than `PARAM_DIGITS` (R163). -/
def runValue (r : Bytes) : Option Int :=
  if r.length ≤ Config.paramDigits then some (decimalValue r : Int) else none

/-- `DigitRuns(e)`: the values of the first two digit runs, -1 for an absent one; none is R163's
`overflow`. Later runs are ignored, as R163 says against the table's note on the payload (log 12). -/
def digitRuns (e : Bytes) : Option (Int × Int) :=
  match runsWith [] e with
  | [] => some (-1, -1)
  | [r1] => (runValue r1).map fun p1 => (p1, -1)
  | r1 :: r2 :: _ =>
    match runValue r1, runValue r2 with
    | some p1, some p2 => some (p1, p2)
    | _, _ => none

end Sys2Proof
end

