-- ==== Sys2Proof/Machine/Encoder.lean ====
section
/-! DEFINITION. The Response Encoder (44_encoder.md): `FormatValue`, `Pack`, `Crc16` and `CrcAscii`. -/

namespace Sys2Proof.Machine

open Sys2Proof

/-- The magnitude `a` rounded to d fractional digits, ties away from zero, as an integer of units of 10^-d
(R262, R264). -/
def roundedTo (a d : Nat) : Nat :=
  if d = 6 then a else (a + 5 * 10 ^ (5 - d)) / 10 ^ (6 - d)

/-- The digits of that rounded number: at least d + 1 of them (R262). -/
def roundedDigits (a d : Nat) : Bytes := padLeft (d + 1) (decimal (roundedTo a d))

/-- Sign, digits and decimal point; no point when no fractional digits remain (R262). -/
def renderDigits (sign : Byte) (d : Nat) (ds : Bytes) : Bytes :=
  if d = 0 then sign :: ds
  else sign :: (ds.take (ds.length - d) ++ chDot :: ds.drop (ds.length - d))

/-- The attempts of R262 from d fractional digits down to none; none is R265's `out of range`. -/
def formatFrom (sign : Byte) (a : Nat) : Nat → Option Bytes
  | 0 =>
    if (roundedDigits a 0).length ≤ Config.digitsMax then some (renderDigits sign 0 (roundedDigits a 0))
    else none
  | d + 1 =>
    if (roundedDigits a (d + 1)).length ≤ Config.digitsMax then
      some (renderDigits sign (d + 1) (roundedDigits a (d + 1)))
    else formatFrom sign a d

/-- The sign character: that of m, `+` for zero (R263). -/
def signChar (m : Int) : Byte := if m < 0 then chMinus else chPlus

/-- `FormatValue(m)` with `P_REQ` fractional digits asked for (R261, R262). -/
def formatValue (pReq : Nat) (m : Int) : Option Bytes :=
  formatFrom (signChar m) m.natAbs (min pReq Config.fracMax)

/-- One turn of the loop of `Pack`: the value goes to line j, or begins line j + 1 (R266). -/
def packOne (w : Nat) (p : Nat × List Bytes) (v : Bytes) : Nat × List Bytes :=
  let cur := p.2.getD p.1 []
  if cur.length + v.length < w then (p.1, p.2.set p.1 (cur ++ v))
  else (p.1 + 1, p.2.set (p.1 + 1) v)

/-- The line slots that `Pack` writes for a list of formatted values: every slot, unused ones empty
(R266). -/
def packLines (w : Nat) (vs : List Bytes) : List Bytes :=
  (vs.foldl (packOne w) (0, List.replicate Config.lineSlots [])).2

/-- Every value formatted, or none when one is out of range (R265). -/
def formatAll (pReq : Nat) : List Int → Option (List Bytes)
  | [] => some []
  | m :: ms =>
    match formatValue pReq m, formatAll pReq ms with
    | some f, some fs => some (f :: fs)
    | _, _ => none

/-- `Pack(cnt, W)` over the values it packs (R266). -/
def pack (pReq w : Nat) (vs : List Int) : Option (List Bytes) :=
  (formatAll pReq vs).map (packLines w)

/-- One turn of the inner loop of `Crc16` (R270). -/
def crcBit (c : BitVec 16) : BitVec 16 :=
  if c.getLsbD 0 then (c >>> 1) ^^^ 0xA001#16 else c >>> 1

/-- One byte of `Crc16`: the exclusive or, then eight turns (R270). -/
def crcByte (c : BitVec 16) (b : Byte) : BitVec 16 :=
  crcBit (crcBit (crcBit (crcBit (crcBit (crcBit (crcBit (crcBit (c ^^^ b.setWidth 16))))))))

/-- `Crc16(bytes)` (R270). -/
def crc16 (bs : Bytes) : BitVec 16 := bs.foldl crcByte 0x0000#16

/-- The three characters of a checksum: `0x40 or` its top 4, middle 6 and low 6 bits (R271). -/
def crcRender (c : BitVec 16) : Bytes :=
  [0x40#8 ||| (c >>> 12).setWidth 8,
   0x40#8 ||| ((c >>> 6) &&& 0x3F#16).setWidth 8,
   0x40#8 ||| (c &&& 0x3F#16).setWidth 8]

/-- `CrcAscii(bytes)` (R271). -/
def crcAscii (bs : Bytes) : Bytes := crcRender (crc16 bs)

end Sys2Proof.Machine
end

