-- ==== Sys2Proof/Syntax.lean ====
section
/-! DEFINITION. The instructions: one constructor for each row of spec/opcode_table.json, and the Command
record that R33 describes. -/

namespace Sys2Proof

/-- The level the line held over the interval an edge ends (40_line_sync.md R125): `LOW = 0`, `HIGH = 1`. -/
inductive Level where
  | low | high
  deriving DecidableEq, Repr

/-- One constructor for each row of the opcode table. `a` is the address byte, `d` a digit's value, `b` a
new address, `ext` the raw bytes between the fixed prefix and the terminator. -/
inductive Instr where
  /-- `a!` -/
  | ack (a : Byte)
  /-- `?!` -/
  | wildcardQuery
  /-- `aI!` -/
  | identify (a : Byte)
  /-- `aIX...!` -/
  | metadata (a : Byte) (ext : Bytes)
  /-- `aA<b>!` -/
  | changeAddress (a b : Byte)
  /-- `aM!` -/
  | measure (a : Byte)
  /-- `aM<1-9>!` -/
  | measureIdx (a : Byte) (d : Fin 10)
  /-- `aMC!` -/
  | measureCrc (a : Byte)
  /-- `aC!` -/
  | concurrent (a : Byte)
  /-- `aC<1-9>!` -/
  | concurrentIdx (a : Byte) (d : Fin 10)
  /-- `aV!` -/
  | verify (a : Byte)
  /-- `aD<0-9>!` -/
  | data (a : Byte) (d : Fin 10)
  /-- `aDB<0-9>!` -/
  | byteData (a : Byte) (d : Fin 10)
  /-- `aR<0-9>!` -/
  | continuous (a : Byte) (d : Fin 10)
  /-- `aHA!` -/
  | highVolumeA (a : Byte)
  /-- `aHB!` -/
  | highVolumeB (a : Byte)
  /-- `aXM<n>!` -/
  | extM (a : Byte) (ext : Bytes)
  /-- `aXU...!` -/
  | extU (a : Byte) (ext : Bytes)
  /-- `aXPAS!` -/
  | passEnter (a : Byte)
  /-- `exit!`, the token of pass-through -/
  | exitToken
  /-- Every other terminated string: the bytes as received, and whether some were dropped (R141, R160). -/
  | unknown (text : Bytes) (ovf : Bool)
  /-- `OnEdge(ts, lvl)` -/
  | onEdge (ts : Timestamp) (lvl : Level)
  /-- `BreakDetected()` -/
  | breakDetected
  /-- `MarkDetected()` -/
  | markDetected
  /-- `ResetDetectionFlags()` -/
  | resetDetectionFlags
  deriving DecidableEq, Repr

/-- The primary opcodes, in the order of their codes 0..10 (30_encoding.md R84). -/
inductive Primary where
  | unknown | ack | identify | changeAddress | measure | concurrent | verify | data | continuous
  | highVolume | extended
  deriving DecidableEq, Repr

/-- The Command record, "a value passed from the parser to the dispatcher inside one step" (10_state.md
R33). `secondary` is 0x00 for none, `param1` and `param2` are -1 when absent. -/
structure Command where
  address : Byte
  primary : Primary
  secondary : Byte
  param1 : Int
  param2 : Int
  crcRequested : Bool
  ext : Bytes
  deriving DecidableEq, Repr

end Sys2Proof
end

