-- ==== Sys2Proof/Machine/State.lean ====
section
/-! DEFINITION. The state of the engine (10_state.md R20 to R39), what the outside sees of it (00_scope.md
R16), the inputs of its agents, and its values after reset. -/

namespace Sys2Proof.Machine

open Sys2Proof

/-- The eight session states, in the order of their codes 0..7 (R26). -/
inductive Session where
  | lowPower | ready | measuring | concurrent | continuous | highVolume | verify | serialPassthrough
  deriving DecidableEq, Repr

/-- One entry of the transmit trace: `Tx(bytes)` or `TxBin(bytes)` (R13, 60_exceptions.md R306). -/
inductive Frame where
  | ascii (bytes : Bytes)
  | binary (bytes : Bytes)
  deriving DecidableEq, Repr

/-- A result that a query of the Line Synchronizer returned to its caller (R16, R122, R123). -/
inductive QueryResult where
  | breakDetected (b : Bool)
  | markDetected (b : Bool)
  deriving DecidableEq, Repr

/-- The answer of the Sensor Adapter (43_session_measure.md R224, R307). -/
inductive AcqResult where
  | ok (vs : List Int)
  | timeout
  deriving DecidableEq, Repr

/-- What an agent does next (R15, R180, R310). -/
inductive Input where
  /-- The foreground agent takes a step: F-RX, F-PT-BUS, or idles (R180). -/
  | poll
  /-- The interrupt agent: an edge of the line (R120). -/
  | edge (ts : Timestamp) (lvl : Level)
  /-- A direct call of `BreakDetected()` (R122), made at rest only (log 31). -/
  | queryBreak
  /-- A direct call of `MarkDetected()` (R123), made at rest only (log 31). -/
  | queryMark
  /-- A direct call of `ResetDetectionFlags()` (R124), made at rest only (log 31). -/
  | rearm
  /-- The Transport appends a received byte to `rxq`, or loses it at the capacity (R66, R310; log 19). -/
  | rxByte (b : Byte)
  /-- The Transport signals that bytes were lost (R66, U17). -/
  | rxOverflow
  /-- The Sensor Adapter answers the acquisition in flight: step F-ACQ (R224, R307). -/
  | answer (res : AcqResult)
  /-- The sensor link delivers a byte: step F-PT-SENS (R207, R309). -/
  | sensorByte (b : Byte)
  /-- Reset, power-on or any other (70_reset_and_hazards.md R320). -/
  | reset
  deriving DecidableEq, Repr

/-- The state. `values` is the spec's V and `lines` its L. -/
structure State where
  /-- R21 -/
  prevEdge : Timestamp
  /-- R22: true while the break detector is armed -/
  waitBreak : Bool
  /-- R23: true while the mark detector is armed -/
  waitMark : Bool
  /-- R24 -/
  addr : Byte
  /-- R25 -/
  active : Bool
  /-- R26 -/
  state : Session
  /-- R27 -/
  count : Nat
  /-- R28: V, in micro-units -/
  values : List Int
  /-- R29: L -/
  lines : List Bytes
  /-- R30 -/
  crcLatched : Bool
  /-- R32: all `CMD_MAX` bytes of the buffer -/
  cmdBuf : Bytes
  /-- R32: how many of them are held -/
  cmdLen : Nat
  /-- R32 -/
  cmdOvf : Bool
  /-- R34 -/
  ptWin : Bytes
  /-- R37, R66: the Transport's receive queue, oldest byte first -/
  rxq : Bytes
  /-- R66: the overflow indication; true makes `available()` negative -/
  rxOvf : Bool
  /-- R37, R67: the stored address byte -/
  nvm : Byte
  /-- R37: the request of the acquisition in flight -/
  acq : Option Request
  /-- R13, R16: the transmit trace, oldest frame first -/
  trace : List Frame
  /-- R16: the `AcqStart` requests, oldest first -/
  acqReqs : List Request
  /-- R16: the `NvmWrite` bytes, oldest first -/
  nvmWrites : Bytes
  /-- R16, R309: the bytes sent to the sensor link, oldest first -/
  ptOut : Bytes
  /-- R16: what the direct calls of the two queries returned, oldest first (log 15) -/
  queries : List QueryResult
  /-- R8: the configuration; no step changes it -/
  cfg : Params
  /-- The MODEL's own: what the agents do next, oldest first (log 5) -/
  inputs : List Input
  /-- The MODEL's own: how many free values have been drawn (log 2) -/
  draws : Nat
  deriving DecidableEq, Repr

/-- Why a run stops with a fault. "No behaviour of this hardware is a fault" (93_implementation_defined.md);
the one constructor is for an environment that breaks its contract. -/
inductive Fault where
  /-- Raised by step F-ACQ alone: the Sensor Adapter answered while no acquisition was in flight, which R310
  assumes it never does (log 7). Safe: the machine stops where the spec has no execution. -/
  | answerWithoutRequest
  deriving DecidableEq, Repr

/-- Why a step has no meaning. -/
inductive Refusal where
  /-- Raised by an arm of exec whose instruction has no meaning yet; no arm of this model does. Safe. -/
  | notModelled (mnemonic : String)
  /-- Raised by a delivery that contains a value of magnitude 9999999.5 or more: "a model treats one as
  refused" (44_encoder.md R265, U7; log 8). Safe. -/
  | valueOutOfRange
  deriving DecidableEq, Repr

/-- The state after a reset with the stored byte `nvm` (R39, R320, R321). The configuration and the inputs
still to come are the environment's; `draws` counts the draw of `prevEdge` (log 2). -/
def State.resetWith (nvm : Byte) (cfg : Params) (inputs : List Input) (draws : Nat) : State where
  prevEdge := Config.prevEdgeDraw draws
  waitBreak := true
  waitMark := true
  addr := if isAlnum nvm then nvm else Config.defaultAddr
  active := false
  state := .lowPower
  count := 0
  values := List.replicate Config.valueMax 0
  lines := List.replicate Config.lineSlots []
  crcLatched := false
  cmdBuf := List.replicate Config.cmdMax 0x00#8
  cmdLen := 0
  cmdOvf := false
  ptWin := List.replicate 5 0x00#8
  rxq := []
  rxOvf := false
  nvm := nvm
  acq := none
  trace := []
  acqReqs := []
  nvmWrites := []
  ptOut := []
  queries := []
  cfg := cfg
  inputs := inputs
  draws := draws + 1

/-- The machine right after its first power-on. The stored byte is `0` (log 3), the OPEN parameters are
uninterpreted (log 1). -/
def State.reset : State := State.resetWith 0x30#8 Config.atReset [] 0

end Sys2Proof.Machine
end

