-- ==== Sys2Proof/Machine/Flags.lean ====
section
/-! DEFINITION. The flags: the two wait flags with the edge arithmetic of the Line Synchronizer
(40_line_sync.md), and the activity flag with the session state it goes with (10_state.md R36). -/

namespace Sys2Proof.Machine

open Sys2Proof

/-- Whether an edge satisfies the break condition (R121, R127): the break is outstanding, the interval was
low, and it lasted at least `BREAK_US`. -/
def breakSatisfied (ts : Timestamp) (lvl : Level) (s : State) : Bool :=
  s.waitBreak && lvl == .low && decide (Config.breakUs ≤ elapsed ts s.prevEdge)

/-- Whether an edge satisfies the mark condition (R121, R127). -/
def markSatisfied (ts : Timestamp) (lvl : Level) (s : State) : Bool :=
  s.waitMark && lvl == .high && decide (Config.markUs ≤ elapsed ts s.prevEdge)

/-- `OnEdge` (R121): the two tests, then `prevEdge` is updated if a flag remains outstanding after them. -/
def edgeUpdate (ts : Timestamp) (lvl : Level) (s : State) : State :=
  let wb := s.waitBreak && !breakSatisfied ts lvl s
  let wm := s.waitMark && !markSatisfied ts lvl s
  { s with
    waitBreak := wb
    waitMark := wm
    prevEdge := if wb || wm then ts else s.prevEdge }

/-- `BreakDetected()` as a value (R122). -/
def isBreakDetected (s : State) : Bool := !s.waitBreak

/-- `MarkDetected()` as a value (R123). -/
def isMarkDetected (s : State) : Bool := !s.waitMark

/-- `ResetDetectionFlags()` (R124): both detectors are armed; `prevEdge` is not written. -/
def rearmFlags (s : State) : State := { s with waitBreak := true, waitMark := true }

/-- What a dispatch begins with: `active <- 1; state <- Ready` (42_session_basic.md R183). -/
def activate (s : State) : State := { s with active := true, state := .ready }

/-- `Finish` (R13): `active <- false; state <- LowPower`. -/
def finish (s : State) : State := { s with active := false, state := .lowPower }

/-- The states in which an acquisition is in flight, codes 2 to 6 (10_state.md R37, R180). -/
def isAcquiring (m : Session) : Bool :=
  match m with
  | .measuring => true
  | .concurrent => true
  | .continuous => true
  | .highVolume => true
  | .verify => true
  | .lowPower => false
  | .ready => false
  | .serialPassthrough => false

end Sys2Proof.Machine
end

