-- ==== Sys2Proof/WellFormed.lean ====
section
/-! DEFINITION. Which terms of Instr are instructions of the engine: the conditions on the fields that
30_encoding.md R82, R87 and the opcode table give. -/

namespace Sys2Proof

/-- The grammar of R87, as a test on a command string without its terminator: does some named form (any
row but `Unknown`) take it? It is written form by form from R82 and R87, apart from the decoder. -/
def isKnownForm : Bytes → Bool
  | [] => false
  | [_] => true
  | [_, k] => k == chI || k == chM || k == chC || k == chV
  | _ :: k :: x :: e =>
    (k == chI && x == chX && (digitRuns e).isSome)
    || (k == chA && isAlnum x && e == [])
    || (k == chM && (isDigit19 x || x == chC) && e == [])
    || (k == chC && isDigit19 x && e == [])
    || (k == chD && isDigit x && e == [])
    || (k == chD && x == chB && e.length == 1 && e.all isDigit)
    || (k == chR && isDigit x && e == [])
    || (k == chH && (x == chA || x == chB) && e == [])
    || (k == chX && x == chM && e.all isDigit && decide (e.length ≤ Config.paramDigits))
    || (k == chX && x == chU)
    || (k == chX && x == chP && e == [chA, chS])

/-- An address byte a command can carry: any byte but the terminator, which would end the command (R81). -/
def legalAddressByte (a : Byte) : Bool := a != chBang

/-- A payload that fits behind a prefix of three bytes and holds no terminator (R82 format `FV`, R61). -/
def legalPayload (e : Bytes) : Bool :=
  e.all (· != chBang) && decide (e.length + 3 ≤ Config.cmdMax)

/-- The conditions on the fields of an instruction. The wildcard address is a row of its own only for
`a!`; every other form may carry it (R89). -/
def Instr.wellFormed : Instr → Bool
  | .ack a => legalAddressByte a && a != chWild
  | .wildcardQuery => true
  | .identify a => legalAddressByte a
  | .metadata a ext => legalAddressByte a && legalPayload ext && (digitRuns ext).isSome
  | .changeAddress a b => legalAddressByte a && isAlnum b
  | .measure a => legalAddressByte a
  | .measureIdx a d => legalAddressByte a && d.val != 0
  | .measureCrc a => legalAddressByte a
  | .concurrent a => legalAddressByte a
  | .concurrentIdx a d => legalAddressByte a && d.val != 0
  | .verify a => legalAddressByte a
  | .data a _ => legalAddressByte a
  | .byteData a _ => legalAddressByte a
  | .continuous a _ => legalAddressByte a
  | .highVolumeA a => legalAddressByte a
  | .highVolumeB a => legalAddressByte a
  | .extM a ext => legalAddressByte a && ext.all isDigit && decide (ext.length ≤ Config.paramDigits)
  | .extU a ext => legalAddressByte a && legalPayload ext
  | .passEnter a => legalAddressByte a
  | .exitToken => true
  | .unknown text ovf =>
    text.all (· != chBang)
      && (if ovf then text.length == Config.cmdMax
          else decide (text.length ≤ Config.cmdMax) && !isKnownForm text)
  | .onEdge _ _ => true
  | .breakDetected => true
  | .markDetected => true
  | .resetDetectionFlags => true

end Sys2Proof
end

