-- ==== Sys2Proof/Decode.lean ====
section
/-! DEFINITION. The Command Parser and the encodings: `parse` is 41_parser.md R164 as it stands, over the
Command record; `decodeCommand` reads the instruction; `decode` frames a byte stream; `encode` writes the
bytes of an instruction from 30_encoding.md R82. -/

namespace Sys2Proof

/-- The rows that arrive as a command string over the bus: all but the token of pass-through and the four
calls, which have no command encoding (R103, R120, R90). -/
def Instr.isCommand : Instr → Bool
  | .exitToken => false
  | .onEdge _ _ => false
  | .breakDetected => false
  | .markDetected => false
  | .resetDetectionFlags => false
  | .ack _ => true
  | .wildcardQuery => true
  | .identify _ => true
  | .metadata _ _ => true
  | .changeAddress _ _ => true
  | .measure _ => true
  | .measureIdx _ _ => true
  | .measureCrc _ => true
  | .concurrent _ => true
  | .concurrentIdx _ _ => true
  | .verify _ => true
  | .data _ _ => true
  | .byteData _ _ => true
  | .continuous _ _ => true
  | .highVolumeA _ => true
  | .highVolumeB _ => true
  | .extM _ _ => true
  | .extU _ _ => true
  | .passEnter _ => true
  | .unknown _ _ => true

/-- The address field of a command (41_parser.md R140): the first byte, 0x00 for the empty command. The
rows that are no command have none. -/
def Instr.address? : Instr → Option Byte
  | .ack a => some a
  | .wildcardQuery => some chWild
  | .identify a => some a
  | .metadata a _ => some a
  | .changeAddress a _ => some a
  | .measure a => some a
  | .measureIdx a _ => some a
  | .measureCrc a => some a
  | .concurrent a => some a
  | .concurrentIdx a _ => some a
  | .verify a => some a
  | .data a _ => some a
  | .byteData a _ => some a
  | .continuous a _ => some a
  | .highVolumeA a => some a
  | .highVolumeB a => some a
  | .extM a _ => some a
  | .extU a _ => some a
  | .passEnter a => some a
  | .unknown text _ => some (text.headD 0x00#8)
  | .exitToken => none
  | .onEdge _ _ => none
  | .breakDetected => none
  | .markDetected => none
  | .resetDetectionFlags => none

/-- A record with its fields at the defaults of R140. -/
def Command.default (address : Byte) : Command where
  address := address
  primary := .unknown
  secondary := 0x00#8
  param1 := -1
  param2 := -1
  crcRequested := false
  ext := []

/-- The Command record an instruction stands for: the results of rules R142 to R160, one for each form. -/
def Instr.command? : Instr → Option Command
  | .ack a => some { Command.default a with primary := .ack }
  | .wildcardQuery => some { Command.default chWild with primary := .ack }
  | .identify a => some { Command.default a with primary := .identify }
  | .metadata a ext =>
    some { Command.default a with
      primary := .identify, secondary := chX, ext := ext
      param1 := ((digitRuns ext).getD (-1, -1)).1
      param2 := ((digitRuns ext).getD (-1, -1)).2 }
  | .changeAddress a b => some { Command.default a with primary := .changeAddress, param1 := b.toNat }
  | .measure a => some { Command.default a with primary := .measure }
  | .measureIdx a d => some { Command.default a with primary := .measure, param1 := d.val }
  | .measureCrc a => some { Command.default a with primary := .measure, crcRequested := true }
  | .concurrent a => some { Command.default a with primary := .concurrent }
  | .concurrentIdx a d => some { Command.default a with primary := .concurrent, param1 := d.val }
  | .verify a => some { Command.default a with primary := .verify }
  | .data a d => some { Command.default a with primary := .data, param1 := d.val }
  | .byteData a d => some { Command.default a with primary := .data, secondary := chB, param1 := d.val }
  | .continuous a d => some { Command.default a with primary := .continuous, param1 := d.val }
  | .highVolumeA a => some { Command.default a with primary := .highVolume, secondary := chA }
  | .highVolumeB a => some { Command.default a with primary := .highVolume, secondary := chB }
  | .extM a ext =>
    some { Command.default a with
      primary := .extended, secondary := chM, ext := ext
      param1 := if ext.length = 0 then -1 else (decimalValue ext : Int) }
  | .extU a ext => some { Command.default a with primary := .extended, secondary := chU, ext := ext }
  | .passEnter a => some { Command.default a with primary := .extended, secondary := chP }
  | .unknown text _ => some (Command.default (text.headD 0x00#8))
  | .exitToken => none
  | .onEdge _ _ => none
  | .breakDetected => none
  | .markDetected => none
  | .resetDetectionFlags => none

/-- `Parse(s, ovf)` of R164, arm by arm, over the record. `s[i]?` is none where the string has no byte i. -/
def parse (s : Bytes) (ovf : Bool) : Command :=
  let c := Command.default (s.headD 0x00#8)
  let n := s.length
  if ovf = true ∨ n = 0 then c                                                          -- R141
  else if n = 1 then { c with primary := .ack }                                          -- R142
  else
    let k := s.getD 1 0x00#8
    let s2 := s.getD 2 0x00#8
    let e := s.drop 3
    if k = chI then
      if n = 2 then { c with primary := .identify }                                      -- R143
      else if s2 = chX then                                                              -- R144
        match digitRuns e with
        | none => c
        | some (p1, p2) =>
          { c with primary := .identify, secondary := chX, ext := e, param1 := p1, param2 := p2 }
      else c
    else if k = chA then
      if n = 3 ∧ isAlnum s2 then { c with primary := .changeAddress, param1 := s2.toNat } -- R145
      else c
    else if k = chM then
      if n = 2 then { c with primary := .measure }                                       -- R146
      else if n = 3 ∧ isDigit19 s2 then { c with primary := .measure, param1 := (dv s2).val } -- R147
      else if n = 3 ∧ s2 = chC then { c with primary := .measure, crcRequested := true } -- R148
      else c
    else if k = chC then
      if n = 2 then { c with primary := .concurrent }                                    -- R149
      else if n = 3 ∧ isDigit19 s2 then { c with primary := .concurrent, param1 := (dv s2).val } -- R150
      else c
    else if k = chV then
      if n = 2 then { c with primary := .verify } else c                                 -- R151
    else if k = chD then
      if n = 3 ∧ isDigit s2 then { c with primary := .data, param1 := (dv s2).val }      -- R152
      else if n = 4 ∧ s2 = chB ∧ isDigit (s.getD 3 0x00#8) then
        { c with primary := .data, secondary := chB, param1 := (dv (s.getD 3 0x00#8)).val } -- R153
      else c
    else if k = chR then
      if n = 3 ∧ isDigit s2 then { c with primary := .continuous, param1 := (dv s2).val } -- R154
      else c
    else if k = chH then
      if n = 3 ∧ (s2 = chA ∨ s2 = chB) then { c with primary := .highVolume, secondary := s2 } -- R155, R156
      else c
    else if k = chX then
      if n ≥ 3 ∧ s2 = chM ∧ e.all isDigit ∧ e.length ≤ Config.paramDigits then           -- R157
        { c with
          primary := .extended, secondary := chM, ext := e
          param1 := if e.length = 0 then -1 else (decimalValue e : Int) }
      else if n ≥ 3 ∧ s2 = chU then { c with primary := .extended, secondary := chU, ext := e } -- R158
      else if n = 5 ∧ s2 = chP ∧ s.getD 3 0x00#8 = chA ∧ s.getD 4 0x00#8 = chS then
        { c with primary := .extended, secondary := chP }                                -- R159
      else c
    else c                                                                               -- R160

/-- The forms whose second byte is `I` (R143, R144); `r` is what follows that letter. -/
def decodeI (a : Byte) : Bytes → Option Instr
  | [] => some (.identify a)
  | x :: e => if x = chX ∧ (digitRuns e).isSome then some (.metadata a e) else none

/-- `A` (R145). -/
def decodeA (a : Byte) : Bytes → Option Instr
  | [b] => if isAlnum b then some (.changeAddress a b) else none
  | _ => none

/-- `M` (R146 to R148). -/
def decodeM (a : Byte) : Bytes → Option Instr
  | [] => some (.measure a)
  | [x] =>
    if isDigit19 x then some (.measureIdx a (dv x))
    else if x = chC then some (.measureCrc a)
    else none
  | _ => none

/-- `C` (R149, R150). -/
def decodeC (a : Byte) : Bytes → Option Instr
  | [] => some (.concurrent a)
  | [x] => if isDigit19 x then some (.concurrentIdx a (dv x)) else none
  | _ => none

/-- `V` (R151). -/
def decodeV (a : Byte) : Bytes → Option Instr
  | [] => some (.verify a)
  | _ => none

/-- `D` (R152, R153). -/
def decodeD (a : Byte) : Bytes → Option Instr
  | [x] => if isDigit x then some (.data a (dv x)) else none
  | [x, y] => if x = chB ∧ isDigit y then some (.byteData a (dv y)) else none
  | _ => none

/-- `R` (R154). -/
def decodeR (a : Byte) : Bytes → Option Instr
  | [x] => if isDigit x then some (.continuous a (dv x)) else none
  | _ => none

/-- `H` (R155, R156). -/
def decodeH (a : Byte) : Bytes → Option Instr
  | [x] =>
    if x = chA then some (.highVolumeA a)
    else if x = chB then some (.highVolumeB a)
    else none
  | _ => none

/-- `X` (R157 to R159). -/
def decodeX (a : Byte) : Bytes → Option Instr
  | [] => none
  | x :: e =>
    if x = chM ∧ e.all isDigit ∧ e.length ≤ Config.paramDigits then some (.extM a e)
    else if x = chU then some (.extU a e)
    else if x = chP ∧ e = [chA, chS] then some (.passEnter a)
    else none

/-- The named form of a command of two bytes or more, selected by its second byte (R87). -/
def decodeNamed (a k : Byte) (r : Bytes) : Option Instr :=
  if k = chI then decodeI a r
  else if k = chA then decodeA a r
  else if k = chM then decodeM a r
  else if k = chC then decodeC a r
  else if k = chV then decodeV a r
  else if k = chD then decodeD a r
  else if k = chR then decodeR a r
  else if k = chH then decodeH a r
  else if k = chX then decodeX a r
  else none

/-- The instruction of a command string without its terminator; total: what no named form takes, and
every overflowed command, is `unknown` (R141, R160, R88). -/
def decodeCommand (s : Bytes) (ovf : Bool) : Instr :=
  if ovf then .unknown s true
  else
    match s with
    | [] => .unknown [] false
    | [a] => if a = chWild then .wildcardQuery else .ack a
    | a :: k :: r => (decodeNamed a k r).getD (.unknown (a :: k :: r) false)

/-- The bytes before the first terminator and the bytes after it; none where there is no terminator (R80). -/
def splitAtBang : Bytes → Option (Bytes × Bytes)
  | [] => none
  | b :: q =>
    if b = chBang then some ([], q)
    else (splitAtBang q).map fun p => (b :: p.1, p.2)

/-- What the foreground agent reads bytes as: commands, or the token of pass-through (R180, R90). -/
inductive DecodeMode where
  | command | passthrough
  deriving DecidableEq, Repr

/-- Why a byte stream holds no instruction. -/
inductive DecodeError where
  /-- No terminator has arrived yet: a command is not complete (R80). -/
  | noTerminator
  /-- In pass-through the bytes are not `exit!`: they are data for the sensor (R204, R205). -/
  | notExitToken
  deriving DecidableEq, Repr

/-- Reads one instruction from the front of a byte stream, with the bytes after it. Bytes beyond
`CMD_MAX` before the terminator are dropped and make the command overflowed (R61, R141). -/
def decode (mode : DecodeMode) (bs : Bytes) : Except DecodeError (Instr × Bytes) :=
  match mode with
  | .command =>
    match splitAtBang bs with
    | none => .error .noTerminator
    | some (body, rest) =>
      .ok (decodeCommand (body.take Config.cmdMax) (decide (Config.cmdMax < body.length)), rest)
  | .passthrough =>
    if bs.take 5 = exitBytes then .ok (.exitToken, bs.drop 5) else .error .notExitToken

/-- The bytes of an instruction, terminator included, from the formats of R82. An overflowed command is
written with one dropped byte 0x00 after the 32 that are kept (log 25). The four calls have no encoding
(R120) and are written as no bytes. -/
def encode : Instr → Bytes
  | .ack a => [a, chBang]
  | .wildcardQuery => [chWild, chBang]
  | .identify a => [a, chI, chBang]
  | .metadata a ext => a :: chI :: chX :: (ext ++ [chBang])
  | .changeAddress a b => [a, chA, b, chBang]
  | .measure a => [a, chM, chBang]
  | .measureIdx a d => [a, chM, digitByte d.val, chBang]
  | .measureCrc a => [a, chM, chC, chBang]
  | .concurrent a => [a, chC, chBang]
  | .concurrentIdx a d => [a, chC, digitByte d.val, chBang]
  | .verify a => [a, chV, chBang]
  | .data a d => [a, chD, digitByte d.val, chBang]
  | .byteData a d => [a, chD, chB, digitByte d.val, chBang]
  | .continuous a d => [a, chR, digitByte d.val, chBang]
  | .highVolumeA a => [a, chH, chA, chBang]
  | .highVolumeB a => [a, chH, chB, chBang]
  | .extM a ext => a :: chX :: chM :: (ext ++ [chBang])
  | .extU a ext => a :: chX :: chU :: (ext ++ [chBang])
  | .passEnter a => [a, chX, chP, chA, chS, chBang]
  | .exitToken => exitBytes
  | .unknown text ovf => text ++ (if ovf then [0x00#8] else []) ++ [chBang]
  | .onEdge _ _ => []
  | .breakDetected => []
  | .markDetected => []
  | .resetDetectionFlags => []

/-- The k bytes of a number, most significant byte first: the opcode table writes an instruction as one
number whose byte 0 is the most significant (R103). -/
def bytesOfWord : Nat → Nat → Bytes
  | 0, _ => []
  | k + 1, w => bytesOfWord k (w / 256) ++ [BitVec.ofNat 8 w]

/-- A command string that some row other than `Unknown` takes. -/
def decodesToNamed (s : Bytes) : Bool :=
  match decodeCommand s false with
  | .unknown _ _ => false
  | _ => true

/-- The command string of a word of the opcode table (log 13). The table numbers the terminator's lowest
bit 0 and gives the address byte no fixed bits, so a word may stop below the address byte, which is then
0x00; and it gives the variable forms neither payload nor terminator, so a word without a terminator has
the empty payload. -/
def tableCommand (bs : Bytes) : Bytes :=
  let body := if bs.getLast? = some chBang then bs.dropLast else bs
  if decodesToNamed (0x00#8 :: body) then 0x00#8 :: body else body

/-- The instruction the decoder reads from a word of the opcode table (log 13). The word of the row
`exit!` is read as pass-through reads it; none where the table gives no bits. -/
def decodeTableWord (nbits w : Nat) : Option Instr :=
  let bs := bytesOfWord (nbits / 8) w
  if bs = [] then none
  else if bs = exitBytes then some .exitToken
  else some (decodeCommand (tableCommand bs) false)

end Sys2Proof
end

