-- ==== Sys2Proof/Machine/Operands.lean ====
section
/-! DEFINITION. Operands: the address field and its gate, the line slot a digit names, the keys of the
measurement table and of the metadata table, the command string held in the buffer, and the normalised
values of an acquisition. -/

namespace Sys2Proof.Machine

open Sys2Proof

/-- `Addressed(x)`: `x = addr or x = '?'` (42_session_basic.md R181). -/
def addressed (s : State) (x : Byte) : Bool := x == s.addr || x == chWild

/-- Whether a decoded command is for this device; a row that is no command never is. -/
def forThisDevice (s : State) (i : Instr) : Bool :=
  match i.address? with
  | some a => addressed s a
  | none => false

/-- `available()` (20_memory.md R66): the number of bytes waiting, negative when bytes were lost. -/
def available (s : State) : Int := if s.rxOvf then -1 else (s.rxq.length : Int)

/-- The command string `cmdBuf[0..cmdLen-1]` (R32). -/
def heldCommand (s : State) : Bytes := s.cmdBuf.take s.cmdLen

/-- The line slot a digit names; empty beyond the slots (20_memory.md R63). -/
def lineSlot (s : State) (n : Nat) : Bytes := s.lines.getD n []

/-- `measTable(cls, idx)` (00_scope.md R9): the entry (M, absent) is the one the source fixes, ttt 1 and
n 2; every other entry is the configuration's. -/
def measTable (cfg : Params) (cls : MeasClass) (idx : Option Nat) : Option MeasEntry :=
  if cls = .m ∧ idx = none then some { ttt := 1, nLessOne := 1, req := cfg.reqM }
  else (cfg.measTable.find? fun r => decide (r.cls = cls) && decide (r.idx = idx)).map (·.entry)

/-- The metadata key after normalisation: a first parameter 1 counts as 0 (R191). -/
def metaKey (p : Int × Int) : Int × Int := (if p.1 = 1 then 0 else p.1, p.2)

/-- `ixTable(p1, p2)` (20_memory.md R64). -/
def ixTable (cfg : Params) (p : Int × Int) : Option Bytes :=
  (cfg.ixTable.find? fun r => decide (r.p1 = p.1) && decide (r.p2 = p.2)).map (·.text)

/-- The two numeric parameters of a metadata payload (41_parser.md R144); a payload on which `DigitRuns`
overflows is never decoded to a metadata query. -/
def metaParams (ext : Bytes) : Int × Int := (digitRuns ext).getD (-1, -1)

/-- The numeric parameter of `aXM<n>!`, -1 when absent (R157). -/
def extParam (ext : Bytes) : Int := if ext.length = 0 then -1 else (decimalValue ext : Int)

/-- `dbEncode(n, count, V, L)` (42_session_basic.md R190): type code and payload of a byte-data frame. For
n outside the populated lines it is the defined empty result, whatever the parameter. -/
def dbEncode (s : State) (n : Nat) : Byte × Bytes :=
  if lineSlot s n = [] then (Config.dbTypeEmpty, [])
  else
    match s.cfg.dbEncode with
    | .lineBytes => (Config.dbType, lineSlot s n)
    | .other k => Config.dbEncodeOther k n s.count s.values s.lines

/-- `Normalise(res, n)` (43_session_measure.md R224): exactly n values, padded with zeros or cut. -/
def normalise (res : AcqResult) (n : Nat) : List Int :=
  match res with
  | .ok vs => (vs ++ List.replicate n 0).take n
  | .timeout => List.replicate n 0

/-- The session state of a class (R221). -/
def classState (cls : MeasClass) : Session :=
  match cls with
  | .m => .measuring
  | .v => .verify
  | .c => .concurrent
  | .r => .continuous
  | .ha => .highVolume
  | .hb => .highVolume

/-- `ndig(cls)`: the digits of n in the acknowledgment, 1 for M and V, 2 for the others (R221, R222). -/
def countDigits (cls : MeasClass) : Nat :=
  match cls with
  | .m => 1
  | .v => 1
  | .c => 2
  | .r => 2
  | .ha => 2
  | .hb => 2

end Sys2Proof.Machine
end

