-- ==== Sys2Proof/Machine/Ops.lean ====
section
/-! DEFINITION. The named operations of the session: the primitives of 00_scope.md R13 and R306 to R309, the
gate, command assembly, the one abort of the engine (`Cancel`, 60_exceptions.md R291) and the recovery
from a receive overflow. -/

namespace Sys2Proof.Machine

open Sys2Proof

/-- An outcome of the engine. -/
abbrev Result := Host.Outcome State Fault Refusal

/-- `Tx(bytes)`: one ASCII frame (R13, R306). -/
def sendAscii (bs : Bytes) (s : State) : State := { s with trace := s.trace ++ [.ascii bs] }

/-- `TxBin(bytes)`: one binary frame (R13, R306). -/
def sendBinary (bs : Bytes) (s : State) : State := { s with trace := s.trace ++ [.binary bs] }

/-- The address reply `addr ++ CRLF`, which the service request equals (30_encoding.md R92, R95). -/
def sendAddress (s : State) : State := sendAscii (s.addr :: crlf) s

/-- `AcqStart(req)` (R307). -/
def startAcquisition (req : Request) (s : State) : State :=
  { s with acq := some req, acqReqs := s.acqReqs ++ [req] }

/-- The acquisition in flight is answered (R37, R307). -/
def endAcquisition (s : State) : State := { s with acq := none }

/-- `NvmWrite(b)` (R308): the write always succeeds (20_memory.md R67; log 24). -/
def nvmWrite (b : Byte) (s : State) : State := { s with nvm := b, nvmWrites := s.nvmWrites ++ [b] }

/-- Bytes sent to the sensor link, one `PtToSensor` each (R309). -/
def toSensor (bs : Bytes) (s : State) : State := { s with ptOut := s.ptOut ++ bs }

/-- A query's result is returned to its caller (R16). -/
def returnQuery (q : QueryResult) (s : State) : State := { s with queries := s.queries ++ [q] }

/-- The activity gate and the frame of every dispatch (42_session_basic.md R181, R183): a command for
another device changes nothing; for one addressed here `active` and `state` are set and `f` runs. -/
def gate (a : Byte) (f : State → State) (s : State) : State :=
  if addressed s a then f (activate s) else s

/-- `count <- 0`, every `V[i] <- 0`, every `L[k] <- ""` (R291, R223). -/
def clearResults (s : State) : State :=
  { s with
    count := 0
    values := List.replicate Config.valueMax 0
    lines := List.replicate Config.lineSlots [] }

/-- `Cancel` (R291), the entry procedure of both cancellations: it saves nothing and sends nothing. There
is no return from it (R294). -/
def cancel (s : State) : State := finish (clearResults s)

/-- A received byte other than the terminator is stored, or dropped when the buffer is full (20_memory.md
R61, R182). -/
def storeByte (b : Byte) (s : State) : State :=
  if s.cmdLen < Config.cmdMax then { s with cmdBuf := s.cmdBuf.set s.cmdLen b, cmdLen := s.cmdLen + 1 }
  else { s with cmdOvf := true }

/-- `cmdLen <- 0; cmdOvf <- 0` (R182). -/
def clearCommand (s : State) : State := { s with cmdLen := 0, cmdOvf := false }

/-- What consuming a terminator does before the dispatch: the detectors are re-armed and the buffer is
emptied (R182). -/
def endCommand (s : State) : State := clearCommand (rearmFlags s)

/-- The instruction held in the command buffer at a terminator (R182). -/
def heldInstr (s : State) : Instr := decodeCommand (heldCommand s) s.cmdOvf

/-- `RxPop()`: the queue without the byte just read (R66). -/
def setQueue (q : Bytes) (s : State) : State := { s with rxq := q }

/-- `clearBuffer()`: the queue is emptied and the overflow indication cleared (R66). -/
def clearBuffer (s : State) : State := { s with rxq := [], rxOvf := false }

/-- `OverflowRecover()` (R184). -/
def overflowRecover (s : State) : State := clearCommand (clearBuffer s)

/-- `ptWin <- ptWin[1..4] ++ <b>` (R204). -/
def shiftWindow (b : Byte) (s : State) : State := { s with ptWin := s.ptWin.drop 1 ++ [b] }

end Sys2Proof.Machine
end

