-- ==== Sys2Proof/Machine/LineSync.lean ====
section
/-! DEFINITION. The four operations of the Line Synchronizer (40_line_sync.md R121 to R124). -/

namespace Sys2Proof.Machine

open Sys2Proof

/-- `OnEdge(ts, lvl)` (R121). -/
def execOnEdge (ts : Timestamp) (lvl : Level) (s : State) : Result := .next (edgeUpdate ts lvl s)

/-- `BreakDetected()` (R122): a read-only query; its result goes to its caller. -/
def execBreakDetected (s : State) : Result :=
  .next (returnQuery (.breakDetected (isBreakDetected s)) s)

/-- `MarkDetected()` (R123). -/
def execMarkDetected (s : State) : Result :=
  .next (returnQuery (.markDetected (isMarkDetected s)) s)

/-- `ResetDetectionFlags()` (R124). -/
def execResetDetectionFlags (s : State) : Result := .next (rearmFlags s)

end Sys2Proof.Machine
end

