-- ==== Sys2Proof/Machine/Measure.lean ====
section
/-! DEFINITION. The split-response measurement commands (43_session_measure.md): acknowledgment, zero-count
acknowledgment, delivery, and one meaning for each form. -/

namespace Sys2Proof.Machine

open Sys2Proof

/-- The content of an acknowledgment: `dec(ttt, 3) ++ dec(n, ndig(cls))` (R222; 30_encoding.md R93, R94). -/
def ackContent (cls : MeasClass) (ttt n : Nat) : Bytes := dec ttt 3 ++ dec n (countDigits cls)

/-- `ZeroCount(cls)` (R223): nothing is acquired and the buffered results are cleared. -/
def zeroCount (cls : MeasClass) (s : State) : State :=
  let t := clearResults s
  finish (sendAscii (t.addr :: (ackContent cls 0 0 ++ crlf)) t)

/-- `StartMeasurement` with a table entry (R222). -/
def acknowledge (cls : MeasClass) (e : MeasEntry) (s : State) : State :=
  let t := sendAscii (s.addr :: (ackContent cls e.ttt.val e.n ++ crlf)) { s with count := e.n }
  startAcquisition e.req { t with state := classState cls }

/-- `StartMeasurement(cls, idx, crc)` (R222): the latch is written first, entry or not. -/
def startMeasurement (cls : MeasClass) (idx : Option Nat) (crc : Bool) (s : State) : State :=
  let t := { s with crcLatched := crc }
  match measTable t.cfg cls idx with
  | none => zeroCount cls t
  | some e => acknowledge cls e t

/-- `aM!` (R231). -/
def execMeasure (a : Byte) (s : State) : Result :=
  .next (gate a (startMeasurement .m none false) s)

/-- `aM<1-9>!` (R232). -/
def execMeasureIdx (a : Byte) (d : Fin 10) (s : State) : Result :=
  .next (gate a (startMeasurement .m (some d.val) false) s)

/-- `aMC!` (R233): the table entry of `aM!`, with the checksum latched. -/
def execMeasureCrc (a : Byte) (s : State) : Result :=
  .next (gate a (startMeasurement .m none true) s)

/-- `aC!` (R234). -/
def execConcurrent (a : Byte) (s : State) : Result :=
  .next (gate a (startMeasurement .c none false) s)

/-- `aC<1-9>!` (R235). -/
def execConcurrentIdx (a : Byte) (d : Fin 10) (s : State) : Result :=
  .next (gate a (startMeasurement .c (some d.val) false) s)

/-- `aV!` (R236). -/
def execVerify (a : Byte) (s : State) : Result :=
  .next (gate a (startMeasurement .v none false) s)

/-- `aR<0-9>!` (R237): the digit 0 is a present parameter. -/
def execContinuous (a : Byte) (d : Fin 10) (s : State) : Result :=
  .next (gate a (startMeasurement .r (some d.val) false) s)

/-- `aHA!` (R238). -/
def execHighVolumeA (a : Byte) (s : State) : Result :=
  .next (gate a (startMeasurement .ha none false) s)

/-- `aHB!` (R239): as `aHA!` but for the table key. -/
def execHighVolumeB (a : Byte) (s : State) : Result :=
  .next (gate a (startMeasurement .hb none false) s)

/-- `V[i] <- vals[i]` for i below `count` (R230); the elements from `count` on keep their values. -/
def storeValues (vals : List Int) (s : State) : State :=
  { s with values := vals.take s.count ++ s.values.drop s.count }

/-- `Deliver(vals, W, sr)` (R230): the values are stored and packed, and with `sr` the service request is
sent. A value that no string of the format can carry refuses the delivery (R265, log 8). -/
def deliver (vals : List Int) (w : Nat) (sr : Bool) (s : State) : Result :=
  let t := storeValues vals s
  match pack t.cfg.pReq w (t.values.take t.count) with
  | none => .refused .valueOutOfRange
  | some ls =>
    let u := { t with lines := ls }
    .next (finish (if sr then sendAddress u else u))

end Sys2Proof.Machine
end

