-- ==== Sys2Proof/Machine/Immediate.lean ====
section
/-! DEFINITION. The commands that are answered at once (42_session_basic.md R185 to R194, R208). -/

namespace Sys2Proof.Machine

open Sys2Proof

/-- `DoAck` (R188): `Tx(addr ++ CRLF); Finish`. -/
def doAck (s : State) : State := finish (sendAddress s)

/-- `a!` (R188). -/
def execAck (a : Byte) (s : State) : Result := .next (gate a doAck s)

/-- `?!` (R188, R89): the wildcard is Addressed whatever the device address is. -/
def execWildcardQuery (s : State) : Result := .next (gate chWild doAck s)

/-- The identification text in the order of R185. -/
def identityText (d : Identity) : Bytes :=
  printBytes d.version ++ printBytes d.vendor ++ printBytes d.model ++ printBytes d.fw ++ printBytes d.info

/-- `aI!` (R185). -/
def execIdentify (a : Byte) (s : State) : Result :=
  .next (gate a (fun t => finish (sendAscii (t.addr :: (identityText t.cfg.identity ++ crlf)) t)) s)

/-- `DoChangeAddress` (R186): the store is written only for a differing byte, and the reply carries the new
address. -/
def doChangeAddress (b : Byte) (s : State) : State :=
  let t := if b = s.nvm then s else nvmWrite b s
  finish (sendAddress { t with addr := b })

/-- `aA<b>!` (R186). -/
def execChangeAddress (a b : Byte) (s : State) : Result := .next (gate a (doChangeAddress b) s)

/-- The frame of a data reply (R187, R96): the checksum covers the address and the line. -/
def dataFrame (s : State) (n : Nat) : Bytes :=
  let body := s.addr :: lineSlot s n
  (if s.crcLatched then body ++ crcAscii body else body) ++ crlf

/-- `aD<0-9>!` (R187). -/
def execData (a : Byte) (d : Fin 10) (s : State) : Result :=
  .next (gate a (fun t => finish (sendAscii (dataFrame t d.val) t)) s)

/-- The frame of a byte-data reply (R189, R97): two-byte fields low byte first. -/
def byteDataFrame (s : State) (n : Nat) : Bytes :=
  let e := dbEncode s n
  let f := s.addr :: (le16 e.2.length ++ e.1 :: e.2)
  if s.crcLatched then f ++ le16 (crc16 f).toNat else f

/-- `aDB<0-9>!` (R189). -/
def execByteData (a : Byte) (d : Fin 10) (s : State) : Result :=
  .next (gate a (fun t => finish (sendBinary (byteDataFrame t d.val) t)) s)

/-- The metadata text of a pair of parameters, empty where the table has no entry (R191). -/
def metaText (cfg : Params) (p : Int × Int) : Bytes := (ixTable cfg (metaKey p)).getD []

/-- `aIX...!` (R191). -/
def execMetadata (a : Byte) (ext : Bytes) (s : State) : Result :=
  .next (gate a
    (fun t => finish (sendAscii (t.addr :: (metaText t.cfg (metaParams ext) ++ crlf)) t)) s)

/-- What the OPEN `extHandler` may do, within the bounds of R194: bytes to the sensor and at most one frame
`addr ++ text ++ CRLF`. -/
def applyExt (e : ExtEffect) (s : State) : State :=
  let t := toSensor e.toSensor s
  match e.reply with
  | none => t
  | some text => sendAscii (t.addr :: (text ++ crlf)) t

/-- `aXM<n>!` (R192): `extHandler('M', param1, ext); Finish` (log 9). -/
def execExtM (a : Byte) (ext : Bytes) (s : State) : Result :=
  .next (gate a (fun t => finish (applyExt (Config.extHandler .extM (extParam ext) ext) t)) s)

/-- `aXU...!` (R193): `extHandler('U', -1, ext); Finish` (log 9). -/
def execExtU (a : Byte) (ext : Bytes) (s : State) : Result :=
  .next (gate a (fun t => finish (applyExt (Config.extHandler .extU (-1) ext) t)) s)

/-- `DoUnknown` (R208): silence, unless debug echo is enabled (log 10). -/
def doUnknown (text : Bytes) (s : State) : State :=
  finish (if s.cfg.debugEcho then sendAscii (Config.debugEchoText text) s else s)

/-- `Unknown` (R208). The overflow bit has done its work in the decoder: the string is the 32 bytes kept. -/
def execUnknown (text : Bytes) (_ovf : Bool) (s : State) : Result :=
  .next (gate (text.headD 0x00#8) (doUnknown text) s)

end Sys2Proof.Machine
end

