-- ==== Sys2Proof/Machine/PassThrough.lean ====
section
/-! DEFINITION. Pass-through: entry, the exit token and the sensor's direction (42_session_basic.md R203 to
R207). -/

namespace Sys2Proof.Machine

open Sys2Proof

/-- `DoPassEnter` (R203): nothing is sent and `active` stays set. -/
def doPassEnter (s : State) : State :=
  { s with state := .serialPassthrough, ptWin := List.replicate 5 0x00#8 }

/-- `aXPAS!` (R203). -/
def execPassEnter (a : Byte) (s : State) : Result := .next (gate a doPassEnter s)

/-- `PassExit` (R206): `ResetDetectionFlags(); Tx(addr ++ CRLF); Finish`. -/
def passExit (s : State) : State := finish (sendAddress (rearmFlags s))

/-- The command string `exit` (R205 without its terminator). -/
abbrev exitText : Bytes := [0x65#8, 0x78#8, 0x69#8, 0x74#8]

/-- `exit!` (R206): in pass-through the token leaves it. Elsewhere the five bytes are an `Unknown` command
addressed to `e` (30_encoding.md R90; log 17). -/
def execExitToken (s : State) : Result :=
  if s.state = .serialPassthrough then .next (passExit s)
  else .next (gate (exitText.headD 0x00#8) (doUnknown exitText) s)

end Sys2Proof.Machine
end

