-- ==== Sys2Proof/Machine/Dispatch.lean ====
section
/-! DEFINITION. exec: one arm for each constructor of Instr, each one direct call of its meaning. -/

namespace Sys2Proof.Machine

open Sys2Proof

def exec (i : Instr) (s : State) : Host.Outcome State Fault Refusal :=
  match i with
  -- immediate commands
  | .ack a => Sys2Proof.Machine.execAck a s
  | .wildcardQuery => Sys2Proof.Machine.execWildcardQuery s
  | .identify a => Sys2Proof.Machine.execIdentify a s
  | .metadata a ext => Sys2Proof.Machine.execMetadata a ext s
  | .changeAddress a b => Sys2Proof.Machine.execChangeAddress a b s
  -- measurement commands
  | .measure a => Sys2Proof.Machine.execMeasure a s
  | .measureIdx a d => Sys2Proof.Machine.execMeasureIdx a d s
  | .measureCrc a => Sys2Proof.Machine.execMeasureCrc a s
  | .concurrent a => Sys2Proof.Machine.execConcurrent a s
  | .concurrentIdx a d => Sys2Proof.Machine.execConcurrentIdx a d s
  | .verify a => Sys2Proof.Machine.execVerify a s
  -- data requests
  | .data a d => Sys2Proof.Machine.execData a d s
  | .byteData a d => Sys2Proof.Machine.execByteData a d s
  -- measurement commands again, in the table's order
  | .continuous a d => Sys2Proof.Machine.execContinuous a d s
  | .highVolumeA a => Sys2Proof.Machine.execHighVolumeA a s
  | .highVolumeB a => Sys2Proof.Machine.execHighVolumeB a s
  -- extended commands and pass-through
  | .extM a ext => Sys2Proof.Machine.execExtM a ext s
  | .extU a ext => Sys2Proof.Machine.execExtU a ext s
  | .passEnter a => Sys2Proof.Machine.execPassEnter a s
  | .exitToken => Sys2Proof.Machine.execExitToken s
  | .unknown text ovf => Sys2Proof.Machine.execUnknown text ovf s
  -- the Line Synchronizer
  | .onEdge ts lvl => Sys2Proof.Machine.execOnEdge ts lvl s
  | .breakDetected => Sys2Proof.Machine.execBreakDetected s
  | .markDetected => Sys2Proof.Machine.execMarkDetected s
  | .resetDetectionFlags => Sys2Proof.Machine.execResetDetectionFlags s

end Sys2Proof.Machine
end

