-- ==== Sys2Proof/Machine/Foreground.lean ====
section
/-! DEFINITION. The steps of the agents: F-RX, F-ACQ with its reselection, F-PT-BUS, F-PT-SENS
(42_session_basic.md R180 to R184, R204, R207; 43_session_measure.md R227 to R229), the inputs of the
environment, and how a table word is laid out for the next fetch. -/

namespace Sys2Proof.Machine

open Sys2Proof

/-- F-RX (R182): one overflow, or one byte of the queue; at a terminator the held command runs. -/
def fRx (s : State) : Result :=
  if s.rxOvf then .next (overflowRecover s)
  else
    match s.rxq with
    | [] => .next s
    | b :: q =>
      if b = chBang then exec (heldInstr s) (endCommand (setQueue q s))
      else .next (storeByte b (setQueue q s))

/-- F-PT-BUS (R204): the bus byte is forwarded and shifted into the window; `exit!` in the window runs the
token (R205, R206). -/
def fPtBus (s : State) : Result :=
  if s.rxOvf then .next (clearBuffer s)
  else
    match s.rxq with
    | [] => .next s
    | b :: q =>
      let t := shiftWindow b (toSensor [b] (setQueue q s))
      if t.ptWin = exitBytes then exec .exitToken t else .next t

/-- F-PT-SENS (R207): in pass-through a sensor byte goes to the bus as a one-byte binary frame; elsewhere
it is not the engine's concern (log 20). -/
def fPtSens (b : Byte) (s : State) : State :=
  if s.state = .serialPassthrough then sendBinary [b] s else s

/-- A step of the foreground agent that waits for no answer (R180): F-RX, F-PT-BUS, or idle (log 6). -/
def foreground (s : State) : Result :=
  if s.state = .lowPower ∧ available s ≠ 0 then fRx s
  else if s.state = .serialPassthrough ∧ available s ≠ 0 then fPtBus s
  else .next s

/-- The loop of `Reselect` over the bytes in the queue at the start of the step (R228, R341): stores bytes
and ends commands as F-RX would, and stops at the first command for this device. -/
def drain : Bytes → State → Option Instr × State
  | [], s => (none, setQueue [] s)
  | b :: q, s =>
    if b = chBang then
      if forThisDevice s (heldInstr s) then (some (heldInstr s), endCommand (setQueue q s))
      else drain q (endCommand s)
    else drain q (storeByte b s)

/-- `Reselect()` (R228): after an overflow the queue is thrown away and nothing is found. -/
def reselect (s : State) : Option Instr × State :=
  if s.rxOvf then (none, overflowRecover s) else drain s.rxq s

/-- F-ACQ in `Measuring` (R227): a detected break cancels, and decides alone (R297). DESIGN CHOICE (log 15):
the `BreakDetected()` this step makes for itself is no entry of `queries`, which lists direct calls only. -/
def acqMeasuring (res : AcqResult) (s : State) : Result :=
  if isBreakDetected s then .next (cancel s) else deliver (normalise res s.count) Config.wPlain true s

/-- F-ACQ in `Verify` (R227): no cancellation. -/
def acqVerify (res : AcqResult) (s : State) : Result :=
  deliver (normalise res s.count) Config.wPlain true s

/-- F-ACQ in `Concurrent` (R228): a command for this device in the queue cancels and is then run. -/
def acqConcurrent (res : AcqResult) (s : State) : Result :=
  match reselect s with
  | (some i, t) => exec i (cancel t)
  | (none, t) => deliver (normalise res s.count) Config.wWide false t

/-- F-ACQ in `Continuous` and `HighVolume` (R229). -/
def acqWide (res : AcqResult) (s : State) : Result :=
  deliver (normalise res s.count) Config.wWide false s

/-- F-ACQ (R180, R227 to R229). An answer with no acquisition in flight breaks the contract of R310 and
stops the machine (log 7). -/
def fAcq (res : AcqResult) (s : State) : Result :=
  match s.state with
  | .measuring => acqMeasuring res (endAcquisition s)
  | .verify => acqVerify res (endAcquisition s)
  | .concurrent => acqConcurrent res (endAcquisition s)
  | .continuous => acqWide res (endAcquisition s)
  | .highVolume => acqWide res (endAcquisition s)
  | .lowPower => .fault .answerWithoutRequest
  | .ready => .fault .answerWithoutRequest
  | .serialPassthrough => .fault .answerWithoutRequest

/-- The Transport appends a received byte (R66, R310). At the capacity `RXQ_CAP` the byte is lost to
overflow, which `available()` then indicates (log 19). -/
def rxAppend (b : Byte) (s : State) : State :=
  if s.rxq.length < s.cfg.rxqCap then { s with rxq := s.rxq ++ [b] } else { s with rxOvf := true }

/-- The Transport signals lost bytes (R66; log 19). -/
def rxLost (s : State) : State := { s with rxOvf := true }

/-- A direct call of an operation of the Line Synchronizer by the foreground agent, outside its four steps
(R120). DESIGN CHOICE (log 31): the agent makes one only at rest. While an acquisition is in flight it "takes
no other step" (R37, R224), and pass-through "blocks in its own sub-loop" (R337) and re-arms at `exit!` only
(D48), so there a call that is due does not happen and the agent idles. -/
def directCall (i : Instr) (s : State) : Result :=
  if s.state = .lowPower then exec i s else .next s

/-- One input of an agent (R15, R180, R310); when the three direct calls happen is log 31. -/
def takeInput (e : Input) (s : State) : Result :=
  match e with
  | .poll => foreground s
  | .edge ts lvl => exec (.onEdge ts lvl) s
  | .queryBreak => directCall .breakDetected s
  | .queryMark => directCall .markDetected s
  | .rearm => directCall .resetDetectionFlags s
  | .rxByte b => .next (rxAppend b s)
  | .rxOverflow => .next (rxLost s)
  | .answer res => fAcq res s
  | .sensorByte b => .next (fPtSens b s)
  | .reset => .next (State.resetWith s.nvm s.cfg s.inputs s.draws)

/-- The next input of the schedule is taken out and acted on; with none left the foreground agent polls
(log 5). -/
def stepInputs (s : State) : Result :=
  match s.inputs with
  | [] => foreground s
  | e :: rest => takeInput e { s with inputs := rest }

/-- A command buffer that holds a string. -/
def bufferOf (body : Bytes) : Bytes :=
  body.take Config.cmdMax ++ List.replicate (Config.cmdMax - body.length) 0x00#8

/-- The state whose next step fetches a table word (log 13, log 14): the bytes before the terminator stand
in the command buffer, the terminator is the next byte of the queue, the session is at rest and the
foreground agent moves next. The word of `exit!` is laid out in the window of pass-through instead. -/
def placeTableWord (nbits w : Nat) (s : State) : State :=
  let bs := bytesOfWord (nbits / 8) w
  let t := { s with inputs := .poll :: s.inputs, rxq := chBang :: s.rxq, rxOvf := false }
  if bs = exitBytes then { t with state := .serialPassthrough, ptWin := 0x00#8 :: exitText }
  else
    { t with
      state := .lowPower
      cmdBuf := bufferOf (tableCommand bs)
      cmdLen := min (tableCommand bs).length Config.cmdMax
      cmdOvf := false }

end Sys2Proof.Machine
end

