-- ==== Sys2Proof/Machine/Step.lean ====
section
/-! DEFINITION. One step of the machine: one atomic step of one agent (00_scope.md R15). -/

namespace Sys2Proof.Machine

open Sys2Proof

/-- One step: the agent that the inputs name moves (log 5). -/
def step (s : State) : Host.Outcome State Fault Refusal := stepInputs s

/-- The state with a table word stored where the next step fetches its instruction (log 13, log 14). -/
def State.withFetchWord (s : State) (nbits w : Nat) : State := placeTableWord nbits w s

end Sys2Proof.Machine
end

