-- ==== Sys2Proof/Safety.lean ====
section
/-! DEFINITION. What counts as a safe state and a safe run: the invariants of 10_state.md R38 with the
capacities of R20 and R66, and the legal inputs of 60_exceptions.md R310. -/

namespace Sys2Proof.Machine

open Sys2Proof

/-- The populated slots are a prefix: after an empty slot every slot is empty (R38 d). -/
def populatedPrefix : List Bytes → Bool
  | [] => true
  | l :: ls => if l = [] then ls.all (· == []) else populatedPrefix ls

/-- The capacities: every element of State has its fixed size (R20, R27, R28, R29, R32, R34). -/
structure State.Sized (s : State) : Prop where
  values : s.values.length = Config.valueMax
  lines : s.lines.length = Config.lineSlots
  cmdBuf : s.cmdBuf.length = Config.cmdMax
  ptWin : s.ptWin.length = 5
  count : s.count ≤ Config.valueMax
  cmdLen : s.cmdLen ≤ Config.cmdMax

/-- The invariants of R38, with what R37 and R206 say holds between steps. -/
structure State.Inv (s : State) : Prop where
  sized : s.Sized
  /-- R38 (a) -/
  addr : isAlnum s.addr = true
  /-- R38 (c) -/
  lineWidth : ∀ l ∈ s.lines, l.length < Config.wWide
  /-- R38 (d) -/
  linePrefix : populatedPrefix s.lines = true
  /-- R38 (e) -/
  notReady : s.state ≠ .ready
  /-- R38 (f) -/
  activeIff : s.active = true ↔ (isAcquiring s.state = true ∨ s.state = .serialPassthrough)
  /-- R37 (3) -/
  acqIff : s.acq.isSome = true ↔ isAcquiring s.state = true
  /-- R206: the command buffer is empty throughout pass-through -/
  passEmpty : s.state = .serialPassthrough → s.cmdLen = 0 ∧ s.cmdOvf = false
  /-- R66: the receive queue keeps to its capacity -/
  queue : s.rxq.length ≤ s.cfg.rxqCap

/-- An answer that keeps to the contract of R307 and R310: at most `VALUE_MAX` values, each in the range of
R265. -/
def AcqResult.legal : AcqResult → Bool
  | .ok vs => decide (vs.length ≤ Config.valueMax) && vs.all fun m => decide (m.natAbs < 9999999500000)
  | .timeout => true

/-- The environment keeps to R310 at this step: an answer comes only while an acquisition is in flight, and
its values are legal. Every other input is a liberty. -/
def State.inputLegal (s : State) : Bool :=
  match s.inputs with
  | .answer res :: _ => isAcquiring s.state && res.legal
  | _ => true

/-- A safe step: it stops with neither a fault nor a refusal. -/
def State.stepsSafely (s : State) : Prop := ∃ t, step s = .next t

end Sys2Proof.Machine
end

