-- ==== Sys2Proof/Certificates/Slice0/Obligations.lean ====
section
/-! DEFINITION. The statements for the provers. A statement's docstring names the rules it formalises, the
spec's own decisions (D<n> of 92_eei_decisions.md) it rests on, and the log entries behind what the model
chose. -/

namespace Sys2Proof.Statements

open Sys2Proof Sys2Proof.Machine

/-- What an outcome says of its next state. -/
def mapNext (f : State → State) : Result → Result
  | .next s => .next (f s)
  | .fault r => .fault r
  | .refused r => .refused r

/-- The session state, the digits of n, the line width and the service request of a class, row by row from
the table of R221. -/
def classAttributes : MeasClass → Session × Nat × Nat × Bool
  | .m => (.measuring, 1, 35, true)
  | .v => (.verify, 1, 35, true)
  | .c => (.concurrent, 2, 75, false)
  | .r => (.continuous, 2, 75, false)
  | .ha => (.highVolume, 2, 75, false)
  | .hb => (.highVolume, 2, 75, false)

/-- The lowest decimal digit of a number, as a character. -/
def digitChar (n : Nat) : Byte := BitVec.ofNat 8 (0x30 + n % 10)

/-- `atttn CRLF` for the one-digit classes and `atttnn CRLF` for the others (R93, R94). -/
def ackFrame (addr : Byte) (cls : MeasClass) (ttt n : Nat) : Bytes :=
  [addr, digitChar (ttt / 100), digitChar (ttt / 10), digitChar ttt]
    ++ (if (classAttributes cls).2.1 = 1 then [digitChar n] else [digitChar (n / 10), digitChar n])
    ++ [0x0D#8, 0x0A#8]

/-- The nine measurement forms with their address, class, index and checksum request (R183, R231 to R239). -/
def measurementForm : Instr → Option (Byte × MeasClass × Option Nat × Bool)
  | .measure a => some (a, .m, none, false)
  | .measureIdx a d => some (a, .m, some d.val, false)
  | .measureCrc a => some (a, .m, none, true)
  | .concurrent a => some (a, .c, none, false)
  | .concurrentIdx a d => some (a, .c, some d.val, false)
  | .verify a => some (a, .v, none, false)
  | .continuous a d => some (a, .r, some d.val, false)
  | .highVolumeA a => some (a, .ha, none, false)
  | .highVolumeB a => some (a, .hb, none, false)
  | _ => none

/-- The greedy packing of R266 as one recursion: `cur` is the line being filled. -/
def greedyLines (w : Nat) (cur : Bytes) : List Bytes → List Bytes
  | [] => [cur]
  | v :: vs =>
    if cur.length + v.length < w then greedyLines w (cur ++ v) vs else cur :: greedyLines w v vs

end Sys2Proof.Statements

open Sys2Proof Sys2Proof.Machine Sys2Proof.Statements

/-! ## The Line Synchronizer -/

/-- R121 (decision D5): the two tests, then `prevEdge` if a flag remains outstanding; nothing else changes. -/
def Obligations.OnEdgeEffect : Prop :=
  ∀ (ts : Timestamp) (lvl : Level) (s : State), ∃ t, exec (.onEdge ts lvl) s = .next t
    ∧ t.waitBreak = (s.waitBreak && !(decide (lvl = .low) && decide (12000 ≤ (ts - s.prevEdge).toNat)))
    ∧ t.waitMark = (s.waitMark && !(decide (lvl = .high) && decide (8333 ≤ (ts - s.prevEdge).toNat)))
    ∧ t.prevEdge = (if t.waitBreak = true ∨ t.waitMark = true then ts else s.prevEdge)
    ∧ t = { s with waitBreak := t.waitBreak, waitMark := t.waitMark, prevEdge := t.prevEdge }

/-- R127 (with R122, R123, decision D8): both comparisons are unsigned "greater than or equal", against
12000 and 8333, and the queries report just that after the edge. That a query's result is recorded in
`queries` is the model's choice (log 15). -/
def Obligations.EdgeThresholdsAreInclusive : Prop :=
  ∀ (ts : Timestamp) (s : State),
    (s.waitBreak = true → ∃ t, exec (.onEdge ts .low) s = .next t
      ∧ (t.waitBreak = false ↔ 12000 ≤ (ts - s.prevEdge).toNat)
      ∧ exec .breakDetected t = .next { t with
          queries := s.queries ++ [.breakDetected (decide (12000 ≤ (ts - s.prevEdge).toNat))] })
    ∧ (s.waitMark = true → ∃ t, exec (.onEdge ts .high) s = .next t
      ∧ (t.waitMark = false ↔ 8333 ≤ (ts - s.prevEdge).toNat)
      ∧ exec .markDetected t = .next { t with
          queries := s.queries ++ [.markDetected (decide (8333 ≤ (ts - s.prevEdge).toNat))] })

/-- R122, R123, R124 (decisions D7, D8). That a query's result is recorded in `queries` is the model's way to
show what R16 calls the two query results (log 15). -/
def Obligations.QueriesAndRearmEffect : Prop :=
  ∀ s : State,
    exec .breakDetected s = .next { s with queries := s.queries ++ [.breakDetected (!s.waitBreak)] }
    ∧ exec .markDetected s = .next { s with queries := s.queries ++ [.markDetected (!s.waitMark)] }
    ∧ exec .resetDetectionFlags s = .next { s with waitBreak := true, waitMark := true }

/-- R131: when the edge that begins the interval is delivered while its detector is armed, the edge that ends
it satisfies the detector exactly when the interval reached the threshold; the same for the mark. -/
def Obligations.DetectionIsExactFromAnArmedEdge : Prop :=
  ∀ (t0 t1 : Timestamp) (s : State),
    (s.waitBreak = true → ∃ u v, exec (.onEdge t0 .high) s = .next u ∧ exec (.onEdge t1 .low) u = .next v
      ∧ (v.waitBreak = false ↔ 12000 ≤ (t1 - t0).toNat))
    ∧ (s.waitMark = true → ∃ u v, exec (.onEdge t0 .low) s = .next u ∧ exec (.onEdge t1 .high) u = .next v
      ∧ (v.waitMark = false ↔ 8333 ≤ (t1 - t0).toNat))

/-- R72 (b), R296, R124, R182, R206 (decisions D10, D27, D48): a detection stands until a
`ResetDetectionFlags`. A step re-arms a detector only when it is a reset; a direct call of it at rest (log 31);
a poll at rest that consumes a terminator; a poll in pass-through that consumes the `!` of `exit!`; or the
answer of a concurrent measurement, which consumes a part of the queue that holds a terminator. -/
def Obligations.DetectionsStandUntilRearmed : Prop :=
  ∀ s t : State, step s = .next t →
    (s.waitBreak = false ∧ t.waitBreak = true) ∨ (s.waitMark = false ∧ t.waitMark = true) →
    s.inputs.head? = some .reset
    ∨ (s.inputs.head? = some .rearm ∧ s.state = .lowPower)
    ∨ ((s.inputs = [] ∨ s.inputs.head? = some .poll) ∧ s.rxOvf = false ∧ s.rxq = chBang :: t.rxq
        ∧ (s.state = .lowPower
          ∨ (s.state = .serialPassthrough ∧ s.ptWin.drop 1 = [0x65#8, 0x78#8, 0x69#8, 0x74#8])))
    ∨ (s.state = .concurrent ∧ s.rxOvf = false ∧ (∃ res, s.inputs.head? = some (.answer res))
        ∧ ∃ pre, s.rxq = pre ++ t.rxq ∧ chBang ∈ pre)

/-- R72 (c): "the foreground never observes `prevEdge`": a step that is neither an edge nor a reset does the
same whatever `prevEdge` is. -/
def Obligations.ForegroundNeverObservesPrevEdge : Prop :=
  ∀ (s : State) (x : Timestamp),
    (∀ ts lvl, s.inputs.head? ≠ some (.edge ts lvl)) → s.inputs.head? ≠ some .reset →
    step { s with prevEdge := x } = mapNext (fun t => { t with prevEdge := x }) (step s)

/-! ## Encodings and the parser -/

/-- R82, R103: decoding the bytes of a well-formed command gives it back, with every operand, and leaves the
bytes that follow; the token of pass-through likewise. -/
def Obligations.DecodeOfEncode : Prop :=
  (∀ (i : Instr) (rest : Bytes), i.wellFormed = true → i.isCommand = true →
    decode .command (encode i ++ rest) = .ok (i, rest))
  ∧ ∀ rest : Bytes, decode .passthrough (encode .exitToken ++ rest) = .ok (.exitToken, rest)

/-- R80, R87, R165: every command string that fits the buffer decodes to a well-formed command whose bytes
are that string and the terminator, so no bit of it is dropped. -/
def Obligations.EncodeOfDecode : Prop :=
  ∀ s : Bytes, chBang ∉ s → s.length ≤ 32 →
    (decodeCommand s false).wellFormed = true ∧ (decodeCommand s false).isCommand = true
    ∧ encode (decodeCommand s false) = s ++ [0x21#8]

/-- R164 (with R140 to R160): the decoder reads from every string and overflow bit the instruction whose
Command record is what `Parse` returns. -/
def Obligations.DecoderAgreesWithParse : Prop :=
  ∀ (s : Bytes) (ovf : Bool), (decodeCommand s ovf).command? = some (parse s ovf)

/-- R87, R160 (decision D13): a string is `Unknown` exactly when no form of the grammar takes it. -/
def Obligations.UnknownExactlyOutsideTheGrammar : Prop :=
  ∀ s : Bytes, (∃ text ovf, decodeCommand s false = .unknown text ovf) ↔ isKnownForm s = false

/-- R165 (a), (b), (c), R85 (decision D14): the pairs of opcodes (`HighVolume` and `Extended` never without a
secondary), the ranges of the parameters, and that only `aMC!` requests a checksum. -/
def Obligations.ParserGuarantees : Prop :=
  ∀ (s : Bytes) (ovf : Bool),
    (((parse s ovf).secondary = 0x00#8
        ∧ (parse s ovf).primary ≠ .highVolume ∧ (parse s ovf).primary ≠ .extended)
      ∨ ((parse s ovf).primary, (parse s ovf).secondary) ∈
        [(Primary.data, chB), (.highVolume, chA), (.highVolume, chB), (.identify, chX),
         (.extended, chM), (.extended, chU), (.extended, chP)])
    ∧ -1 ≤ (parse s ovf).param1 ∧ (parse s ovf).param1 ≤ 9999
    ∧ -1 ≤ (parse s ovf).param2 ∧ (parse s ovf).param2 ≤ 9999
    ∧ ((parse s ovf).primary = .changeAddress →
        ∃ b : Byte, isAlnum b = true ∧ (parse s ovf).param1 = (b.toNat : Int))
    ∧ ((parse s ovf).crcRequested = true →
        (parse s ovf).primary = .measure ∧ (parse s ovf).param1 = -1)

/-- R82, R103: words written out from the opcode table, one or more of each family. -/
def Obligations.TableWordsDecode : Prop :=
  decode .command [0x30#8, 0x21#8] = .ok (.ack 0x30#8, [])
  ∧ decode .command [0x3F#8, 0x21#8] = .ok (.wildcardQuery, [])
  ∧ decode .command [0x30#8, 0x41#8, 0x35#8, 0x21#8] = .ok (.changeAddress 0x30#8 0x35#8, [])
  ∧ decode .command [0x30#8, 0x4D#8, 0x33#8, 0x21#8] = .ok (.measureIdx 0x30#8 3, [])
  ∧ decode .command [0x30#8, 0x4D#8, 0x43#8, 0x21#8] = .ok (.measureCrc 0x30#8, [])
  ∧ decode .command [0x30#8, 0x44#8, 0x42#8, 0x31#8, 0x21#8] = .ok (.byteData 0x30#8 1, [])
  ∧ decode .command [0x30#8, 0x58#8, 0x50#8, 0x41#8, 0x53#8, 0x21#8] = .ok (.passEnter 0x30#8, [])
  ∧ decode .passthrough [0x65#8, 0x78#8, 0x69#8, 0x74#8, 0x21#8] = .ok (.exitToken, [])

/-! ## A step runs the decoded instruction -/

/-- R182, R183 (decisions D10, D26): when the foreground agent consumes a terminator it re-arms the
detectors, empties the buffer and runs the command the buffer held: for every string and overflow bit the one
the decoder reads, and so, when the buffer holds the bytes of a well-formed command, that command. The input
list is the model's (log 5). -/
def Obligations.StepRunsTheHeldCommand : Prop :=
  ∀ (s : State) (rest : List Input) (q : Bytes),
    (s.inputs = .poll :: rest ∨ (s.inputs = [] ∧ rest = [])) →
    s.state = .lowPower → s.rxOvf = false → s.rxq = chBang :: q →
    step s = exec (decodeCommand (s.cmdBuf.take s.cmdLen) s.cmdOvf)
      { s with
        inputs := rest, rxq := q, waitBreak := true, waitMark := true, cmdLen := 0, cmdOvf := false }
    ∧ ∀ i : Instr, i.wellFormed = true → i.isCommand = true → s.cmdLen ≤ 32 → s.cmdOvf = false →
        s.cmdBuf.take s.cmdLen ++ [chBang] = encode i →
        step s = exec i
          { s with
            inputs := rest, rxq := q, waitBreak := true, waitMark := true, cmdLen := 0, cmdOvf := false }

/-- R204, R205 (decision D20): in pass-through a bus byte is forwarded to the sensor and shifted into the
window, and the token runs exactly when the window then holds `exit!`. -/
def Obligations.StepForwardsBusBytesAndRunsTheToken : Prop :=
  ∀ (s : State) (rest : List Input) (b : Byte) (q : Bytes),
    (s.inputs = .poll :: rest ∨ (s.inputs = [] ∧ rest = [])) →
    s.state = .serialPassthrough → s.rxOvf = false → s.rxq = b :: q →
    step s =
      (if s.ptWin.drop 1 ++ [b] = [0x65#8, 0x78#8, 0x69#8, 0x74#8, 0x21#8] then
        exec .exitToken { s with
          inputs := rest, rxq := q, ptOut := s.ptOut ++ [b], ptWin := s.ptWin.drop 1 ++ [b] }
      else
        .next { s with
          inputs := rest, rxq := q, ptOut := s.ptOut ++ [b], ptWin := s.ptWin.drop 1 ++ [b] })

/-- R120, R121 to R124: an edge runs `OnEdge` whatever the session does; the three calls of the foreground
agent run at rest. That a call which is due while an acquisition is in flight or in pass-through does not
happen is the model's choice (log 31; R37, R224, D48), as is the input list (log 5). -/
def Obligations.StepRunsLineSynchronizerCalls : Prop :=
  ∀ (s : State) (rest : List Input),
    (∀ ts lvl, s.inputs = .edge ts lvl :: rest → step s = exec (.onEdge ts lvl) { s with inputs := rest })
    ∧ (s.state = .lowPower →
      (s.inputs = .queryBreak :: rest → step s = exec .breakDetected { s with inputs := rest })
      ∧ (s.inputs = .queryMark :: rest → step s = exec .markDetected { s with inputs := rest })
      ∧ (s.inputs = .rearm :: rest → step s = exec .resetDetectionFlags { s with inputs := rest }))
    ∧ (s.state ≠ .lowPower →
      (s.inputs = .queryBreak :: rest ∨ s.inputs = .queryMark :: rest ∨ s.inputs = .rearm :: rest) →
      step s = .next { s with inputs := rest })

/-- R61, R184, R204, R66 (decisions D11, D12, D20; log 19, 30): what a step of F-RX does with a byte that is
no terminator, with room in the buffer and without, and with a receive overflow; what a receive overflow does
in pass-through, where the window and the command buffer stay; and, whatever the session does, a received byte
below the capacity of the queue and at it, and a signalled overflow. -/
def Obligations.ReceptionOfBytesAndOverflow : Prop :=
  ∀ (s : State) (rest : List Input),
    (s.inputs = .poll :: rest → s.state = .lowPower →
      (∀ b q, s.rxOvf = false → s.rxq = b :: q → b ≠ chBang → s.cmdLen < 32 →
        step s = .next { s with
          inputs := rest, rxq := q, cmdBuf := s.cmdBuf.set s.cmdLen b, cmdLen := s.cmdLen + 1 })
      ∧ (∀ b q, s.rxOvf = false → s.rxq = b :: q → b ≠ chBang → 32 ≤ s.cmdLen →
        step s = .next { s with inputs := rest, rxq := q, cmdOvf := true })
      ∧ (s.rxOvf = true →
        step s = .next { s with inputs := rest, rxq := [], rxOvf := false, cmdLen := 0, cmdOvf := false }))
    ∧ (s.inputs = .poll :: rest → s.state = .serialPassthrough → s.rxOvf = true →
      step s = .next { s with inputs := rest, rxq := [], rxOvf := false })
    ∧ (∀ b, s.inputs = .rxByte b :: rest →
      step s = (if s.rxq.length < s.cfg.rxqCap then .next { s with inputs := rest, rxq := s.rxq ++ [b] }
        else .next { s with inputs := rest, rxOvf := true }))
    ∧ (s.inputs = .rxOverflow :: rest → step s = .next { s with inputs := rest, rxOvf := true })

/-! ## The gate and the immediate commands -/

/-- R181 (with R182, decision D10): a command for another device is discarded: no frame and no change of
anything; its terminator re-arms the detectors and empties the command buffer, and that is all the step does. -/
def Obligations.UnaddressedCommandIsDiscarded : Prop :=
  ∀ (i : Instr) (a : Byte) (s : State),
    i.isCommand = true → i.address? = some a → a ≠ s.addr → a ≠ chWild →
    exec i s = .next s
    ∧ ∀ (t : State) (q : Bytes) (rest : List Input),
        t.inputs = .poll :: rest → t.state = .lowPower → t.rxOvf = false → t.rxq = chBang :: q →
        t.addr = s.addr → decodeCommand (t.cmdBuf.take t.cmdLen) t.cmdOvf = i →
        step t = .next { t with
          inputs := rest, rxq := q, waitBreak := true, waitMark := true, cmdLen := 0, cmdOvf := false }

/-- R188: `a!` and `?!` send `addr CRLF`, three bytes, with the device's own address. -/
def Obligations.AcknowledgeReply : Prop :=
  ∀ (a : Byte) (s : State),
    ((a = s.addr ∨ a = 0x3F#8) →
      exec (.ack a) s = .next { s with
        trace := s.trace ++ [.ascii [s.addr, 0x0D#8, 0x0A#8]], active := false, state := .lowPower })
    ∧ exec .wildcardQuery s = .next { s with
        trace := s.trace ++ [.ascii [s.addr, 0x0D#8, 0x0A#8]], active := false, state := .lowPower }

/-- R185, R98, R31 (decision D38): the identity strings in the order version, vendor, model, firmware, info,
every byte of them printable and none the terminator. That `?I!` is answered is decision D15. -/
def Obligations.IdentifyReply : Prop :=
  ∀ (a : Byte) (s : State), (a = s.addr ∨ a = 0x3F#8) →
    ∃ text : Bytes,
      text = printBytes s.cfg.identity.version ++ printBytes s.cfg.identity.vendor
        ++ printBytes s.cfg.identity.model ++ printBytes s.cfg.identity.fw ++ printBytes s.cfg.identity.info
      ∧ (∀ b ∈ text, 0x20 ≤ b.toNat ∧ b.toNat ≤ 0x7E ∧ b ≠ 0x21#8)
      ∧ exec (.identify a) s = .next { s with
          trace := s.trace ++ [.ascii (s.addr :: (text ++ [0x0D#8, 0x0A#8]))]
          active := false, state := .lowPower }

/-- R186, R99 (decision D17): the store is written only for a differing byte, the working address is
replaced, and the reply carries the new address. That `?A<b>!` does so too is decision D15. -/
def Obligations.ChangeAddressEffect : Prop :=
  ∀ (a b : Byte) (s : State), (a = s.addr ∨ a = 0x3F#8) →
    exec (.changeAddress a b) s = .next { s with
      addr := b, nvm := b
      nvmWrites := if b = s.nvm then s.nvmWrites else s.nvmWrites ++ [b]
      trace := s.trace ++ [.ascii [b, 0x0D#8, 0x0A#8]]
      active := false, state := .lowPower }

/-- R187, R63, R96, R272 (decisions D32, D34, D35): the slot of the digit, empty when there is none, with the
checksum of address and line when it is latched. That `?D<0-9>!` is answered is decision D15. -/
def Obligations.DataReply : Prop :=
  ∀ (a : Byte) (d : Fin 10) (s : State), (a = s.addr ∨ a = 0x3F#8) →
    exec (.data a d) s = .next { s with
      trace := s.trace ++ [.ascii (s.addr :: s.lines.getD d.val []
        ++ (if s.crcLatched = true then crcAscii (s.addr :: s.lines.getD d.val []) else [])
        ++ [0x0D#8, 0x0A#8])]
      active := false, state := .lowPower }

/-- R189, R97 (decision D36): address, payload length low byte first, type code, payload, and the checksum of
all that low byte first when it is latched; payload and type code are those of `dbEncode`. For a payload of
65536 bytes or more the length field is the model's choice (log 22). That `?DB<0-9>!` is answered is decision
D15. -/
def Obligations.ByteDataReply : Prop :=
  ∀ (a : Byte) (d : Fin 10) (s : State), (a = s.addr ∨ a = 0x3F#8) →
    ∀ f : Bytes,
    f = [s.addr, BitVec.ofNat 8 ((dbEncode s d.val).2.length % 256),
          BitVec.ofNat 8 ((dbEncode s d.val).2.length / 256), (dbEncode s d.val).1] ++ (dbEncode s d.val).2 →
    exec (.byteData a d) s = .next { s with
      trace := s.trace ++ [.binary (f ++ (if s.crcLatched = true then
        [BitVec.ofNat 8 ((crc16 f).toNat % 256), BitVec.ofNat 8 ((crc16 f).toNat / 256)] else []))]
      active := false, state := .lowPower }

/-- R190 (decision D36): outside the populated lines the payload is the defined empty result, whatever the
parameter; under the default it is the line with type code 0x02. -/
def Obligations.ByteDataPayload : Prop :=
  ∀ (s : State) (n : Nat),
    (s.lines.getD n [] = [] → dbEncode s n = (0x00#8, []))
    ∧ (s.lines.getD n [] ≠ [] → s.cfg.dbEncode = .lineBytes → dbEncode s n = (0x02#8, s.lines.getD n []))

/-- R191, R100 (decision D37): the table text of the normalised key, where a first parameter 1 counts as 0,
between address and `CRLF`, or the empty result; nothing is acquired. That `?IX...!` is answered is decision
D15. -/
def Obligations.MetadataReply : Prop :=
  ∀ (a : Byte) (ext : Bytes) (p1 p2 : Int) (s : State),
    (a = s.addr ∨ a = 0x3F#8) → digitRuns ext = some (p1, p2) →
    exec (.metadata a ext) s = .next { s with
      trace := s.trace ++ [.ascii ([s.addr]
        ++ (ixTable s.cfg (if p1 = 1 then 0 else p1, p2)).getD [] ++ [0x0D#8, 0x0A#8])]
      active := false, state := .lowPower }

/-- R192, R193, R194 (decision D19): what `extHandler` gives, within its bounds: at most one frame
`addr text CRLF`, bytes to the sensor, then `Finish`. The handler is an uninterpreted function (log 9), so
this holds of every handler that depends on the form, the parameter and the payload alone. That the forms run
with the wildcard address is decision D15. -/
def Obligations.ExtendedCommandsKeepTheBounds : Prop :=
  ∀ (a : Byte) (ext : Bytes) (s : State), (a = s.addr ∨ a = 0x3F#8) →
    (∀ e, e = Config.extHandler .extM (if ext = [] then -1 else (decimalValue ext : Int)) ext →
      exec (.extM a ext) s = .next { s with
        ptOut := s.ptOut ++ e.toSensor
        trace := s.trace ++ (match e.reply with
          | none => []
          | some text => [.ascii (s.addr :: (text ++ [0x0D#8, 0x0A#8]))])
        active := false, state := .lowPower })
    ∧ (∀ e, e = Config.extHandler .extU (-1) ext →
      exec (.extU a ext) s = .next { s with
        ptOut := s.ptOut ++ e.toSensor
        trace := s.trace ++ (match e.reply with
          | none => []
          | some text => [.ascii (s.addr :: (text ++ [0x0D#8, 0x0A#8]))])
        active := false, state := .lowPower })

/-- R208 (decision D21): silence, unless debug echo is enabled; then the uninterpreted text (log 10). That an
`Unknown` command with the wildcard address counts as Addressed is decision D15. -/
def Obligations.UnknownCommandEffect : Prop :=
  ∀ (text : Bytes) (ovf : Bool) (s : State), (text.headD 0x00#8 = s.addr ∨ text.headD 0x00#8 = 0x3F#8) →
    (s.cfg.debugEcho = false →
      exec (.unknown text ovf) s = .next { s with active := false, state := .lowPower })
    ∧ (s.cfg.debugEcho = true →
      exec (.unknown text ovf) s = .next { s with
        trace := s.trace ++ [.ascii (Config.debugEchoText text)], active := false, state := .lowPower })

/-! ## Pass-through -/

/-- R203 (decision D20): entry sends nothing, keeps `active` set and clears the window. That `?XPAS!` enters
too is decision D15. -/
def Obligations.PassEnterEffect : Prop :=
  ∀ (a : Byte) (s : State), (a = s.addr ∨ a = 0x3F#8) →
    exec (.passEnter a) s = .next { s with
      state := .serialPassthrough, active := true, ptWin := [0x00#8, 0x00#8, 0x00#8, 0x00#8, 0x00#8] }

/-- R206, R92 (decision D48): in pass-through the token re-arms the detectors, answers with the address and
returns to rest. R90: elsewhere its bytes are an `Unknown` command addressed to `e` (log 17). -/
def Obligations.ExitTokenEffect : Prop :=
  ∀ s : State,
    (s.state = .serialPassthrough →
      exec .exitToken s = .next { s with
        waitBreak := true, waitMark := true
        trace := s.trace ++ [.ascii [s.addr, 0x0D#8, 0x0A#8]], active := false, state := .lowPower })
    ∧ (s.state ≠ .serialPassthrough →
      exec .exitToken s = exec (.unknown [0x65#8, 0x78#8, 0x69#8, 0x74#8] false) s)

/-- R207 (decision D20): in pass-through a sensor byte goes to the bus as a one-byte binary frame; elsewhere
nothing changes (log 20). -/
def Obligations.SensorByteEffect : Prop :=
  ∀ (s : State) (b : Byte) (rest : List Input), s.inputs = .sensorByte b :: rest →
    (s.state = .serialPassthrough →
      step s = .next { s with inputs := rest, trace := s.trace ++ [.binary [b]] })
    ∧ (s.state ≠ .serialPassthrough → step s = .next { s with inputs := rest })

/-- R337, R298, R204, R205 (decision D20): pass-through is left by a reset, or by a poll without a receive
overflow whose byte is the `!` of `exit!`. -/
def Obligations.PassThroughEndsOnlyByExit : Prop :=
  ∀ s t : State, step s = .next t → s.state = .serialPassthrough → t.state ≠ .serialPassthrough →
    t.state = .lowPower
    ∧ (s.inputs.head? = some .reset
      ∨ ((s.inputs = [] ∨ s.inputs.head? = some .poll) ∧ s.rxOvf = false
        ∧ s.rxq = chBang :: t.rxq ∧ s.ptWin.drop 1 = [0x65#8, 0x78#8, 0x69#8, 0x74#8]))

/-! ## Measurements -/

/-- R222, R93, R94, R221, R231 to R239, R181 (decisions D22 to D25): each of the nine measurement forms with a
table entry sends its acknowledgment, latches the checksum request, commits n, enters the state of its class
and starts the acquisition; the results of the last measurement stay. That the forms run with the wildcard
address is decision D15. -/
def Obligations.MeasurementIsAcknowledged : Prop :=
  ∀ (i : Instr) (a : Byte) (cls : MeasClass) (idx : Option Nat) (crc : Bool) (e : MeasEntry) (s : State),
    measurementForm i = some (a, cls, idx, crc) → (a = s.addr ∨ a = 0x3F#8) →
    measTable s.cfg cls idx = some e →
    exec i s = .next { s with
      crcLatched := crc, count := e.n
      trace := s.trace ++ [.ascii (ackFrame s.addr cls e.ttt.val e.n)]
      state := (classAttributes cls).1, active := true
      acq := some e.req, acqReqs := s.acqReqs ++ [e.req] }

/-- R223, R101, R181 (decisions D22, D23, D24, D25): an index with no table entry gets the zero-count
acknowledgment; the buffered results are cleared, the latch is written, nothing is acquired. `aM!` and `aMC!`
always have an entry (R9), so this is about the other seven forms. That they run with the wildcard address is
decision D15. -/
def Obligations.MissingEntryIsZeroCount : Prop :=
  ∀ (i : Instr) (a : Byte) (cls : MeasClass) (idx : Option Nat) (crc : Bool) (s : State),
    measurementForm i = some (a, cls, idx, crc) → (a = s.addr ∨ a = 0x3F#8) →
    measTable s.cfg cls idx = none →
    exec i s = .next { s with
      crcLatched := crc, count := 0
      values := [0, 0, 0, 0, 0], lines := [[], [], [], [], [], [], [], [], [], []]
      trace := s.trace ++ [.ascii (ackFrame s.addr cls 0 0)]
      state := .lowPower, active := false }

/-- R9, R231, R233 (decisions D22, D25): the one entry the source fixes: `aM!` and `aMC!` are acknowledged with
ttt 001 and n 2 in every configuration, and `aMC!` latches the checksum. That `?M!` and `?MC!` are answered is
decision D15. -/
def Obligations.PlainMeasureAnswersOneSecondTwoValues : Prop :=
  ∀ (a : Byte) (s : State), (a = s.addr ∨ a = 0x3F#8) →
    ∃ t u, exec (.measure a) s = .next t ∧ exec (.measureCrc a) s = .next u
      ∧ t.trace = s.trace ++ [.ascii [s.addr, 0x30#8, 0x30#8, 0x31#8, 0x32#8, 0x0D#8, 0x0A#8]]
      ∧ t.count = 2 ∧ t.state = .measuring ∧ t.crcLatched = false ∧ t.acq.isSome = true
      ∧ u = { t with crcLatched := true }

/-- R224, R335, R37, R227 (decisions D26, D29, D47): while an acquisition is in flight the foreground agent
takes no step but its end: a poll, a direct call (log 31) and a sensor byte (log 20) change nothing, bytes that
arrive stay queued, and a break is detected exactly when one was already or an edge ends a low of 12000
microseconds. -/
def Obligations.AcquisitionBlocksTheForeground : Prop :=
  ∀ s : State, isAcquiring s.state = true →
    (s.inputs = [] → step s = .next s)
    ∧ (∀ e rest, (e ∈ [Input.poll, .queryBreak, .queryMark, .rearm] ∨ ∃ b, e = .sensorByte b) →
      s.inputs = e :: rest → step s = .next { s with inputs := rest })
    ∧ (∀ b rest, s.inputs = .rxByte b :: rest → s.rxq.length < s.cfg.rxqCap →
      step s = .next { s with inputs := rest, rxq := s.rxq ++ [b] })
    ∧ ∀ t, step s = .next t → s.inputs.head? ≠ some .reset →
      (∀ res, s.inputs.head? ≠ some (.answer res)) →
      (t.waitBreak = false ↔ s.waitBreak = false
        ∨ ∃ ts rest, s.inputs = .edge ts .low :: rest ∧ 12000 ≤ (ts - s.prevEdge).toNat)

/-- R242: exactly n values come of an answer: a timeout gives zeros, a short answer is padded with zeros, a
long one is cut. While an acquisition is in flight no step but a reset takes back what was sent, no step but
an answer changes the committed n or ends the acquisition (the engine has no timer), and every delivery, that
of a concurrent measurement whose queue holds no command for this device among them, keeps n and stores n
values. -/
def Obligations.AcknowledgmentIsACommitment : Prop :=
  (∀ n : Nat, normalise .timeout n = List.replicate n 0)
  ∧ (∀ (vs : List Int) (n : Nat), (normalise (.ok vs) n).length = n
      ∧ ∀ i, i < n → (normalise (.ok vs) n)[i]? = some (vs.getD i 0))
  ∧ (∀ s t : State, isAcquiring s.state = true → s.inputs.head? ≠ some .reset → step s = .next t →
      (∃ fs, t.trace = s.trace ++ fs)
      ∧ ((∀ res, s.inputs.head? ≠ some (.answer res)) →
          t.count = s.count ∧ t.state = s.state ∧ t.acq = s.acq))
  ∧ ∀ (s t : State) (res : AcqResult) (rest : List Input),
      s.inputs = .answer res :: rest → step s = .next t →
      ((s.state = .measuring ∧ s.waitBreak = true) ∨ s.state = .verify
        ∨ s.state = .continuous ∨ s.state = .highVolume
        ∨ (s.state = .concurrent ∧ (reselect s).1 = none)) →
      t.count = s.count ∧ t.values.take s.count = normalise res s.count

/-- R227, R291, R297 (decision D26): a break detected since the command cancels an M measurement at the
answer, whatever the answer is: the results are cleared and nothing is sent. -/
def Obligations.BreakCancelsAMeasurement : Prop :=
  ∀ (s : State) (res : AcqResult) (rest : List Input),
    s.inputs = .answer res :: rest → s.state = .measuring → s.waitBreak = false →
    step s = .next { s with
      inputs := rest, acq := none, count := 0
      values := [0, 0, 0, 0, 0], lines := [[], [], [], [], [], [], [], [], [], []]
      active := false, state := .lowPower }

/-- R291: `Cancel` clears count, values and lines, ends the session and sends nothing; every data request
after it gets the empty result, with the checksum of the address when it is latched (R187, R96, decisions D34,
D35). That `?D<0-9>!` is answered is decision D15. -/
def Obligations.CancelEffect : Prop :=
  ∀ s : State,
    cancel s = { s with
      count := 0, values := [0, 0, 0, 0, 0], lines := [[], [], [], [], [], [], [], [], [], []]
      active := false, state := .lowPower }
    ∧ ∀ (a : Byte) (d : Fin 10), (a = s.addr ∨ a = 0x3F#8) →
        ∃ t, exec (.data a d) (cancel s) = .next t
          ∧ t.trace = s.trace ++ [.ascii ([s.addr]
              ++ (if s.crcLatched = true then crcAscii [s.addr] else []) ++ [0x0D#8, 0x0A#8])]

/-- R227, R230, R221 (decisions D23, D26): without a break an M measurement delivers, the break being read once,
at the answer, and a V measurement delivers with or without one: the values are stored, packed at width 35,
and the service request is sent. -/
def Obligations.PlainMeasurementDelivers : Prop :=
  ∀ (s : State) (res : AcqResult) (rest : List Input),
    s.inputs = .answer res :: rest →
    ((s.state = .measuring ∧ s.waitBreak = true) ∨ s.state = .verify) →
    (∀ m ∈ normalise res s.count, m.natAbs < 9999999500000) →
    ∃ ls, pack s.cfg.pReq 35 (normalise res s.count) = some ls
      ∧ step s = .next { s with
          inputs := rest, acq := none
          values := normalise res s.count ++ s.values.drop s.count, lines := ls
          trace := s.trace ++ [.ascii [s.addr, 0x0D#8, 0x0A#8]]
          active := false, state := .lowPower }

/-- R229, R230, R228 (decisions D23, D27, 90_conflicts.md C3): R, HA and HB deliver at width 75 and send nothing;
so does C when nothing was received, whatever the break flag is. -/
def Obligations.WideMeasurementDelivers : Prop :=
  ∀ (s : State) (res : AcqResult) (rest : List Input),
    s.inputs = .answer res :: rest →
    (s.state = .continuous ∨ s.state = .highVolume
      ∨ (s.state = .concurrent ∧ s.rxq = [] ∧ s.rxOvf = false)) →
    (∀ m ∈ normalise res s.count, m.natAbs < 9999999500000) →
    ∃ ls, pack s.cfg.pReq 75 (normalise res s.count) = some ls
      ∧ step s = .next { s with
          inputs := rest, acq := none
          values := normalise res s.count ++ s.values.drop s.count, lines := ls
          active := false, state := .lowPower }

/-- R228, R293 (decisions D15 for the wildcard address, D27, D28): what the answer of a concurrent measurement
does with the queue, byte by byte: a byte is stored; a terminator re-arms and drops a command for another
device; the first command for this device cancels the measurement and runs; an overflow throws the queue away
and cancels nothing. -/
def Obligations.ConcurrentAnswerConsumesTheQueue : Prop :=
  ∀ (s : State) (res : AcqResult) (rest : List Input),
    s.inputs = .answer res :: rest → s.state = .concurrent →
    (∀ b q, s.rxOvf = false → s.rxq = b :: q → b ≠ chBang →
      step s = step (storeByte b { s with rxq := q }))
    ∧ (∀ q a, s.rxOvf = false → s.rxq = chBang :: q →
        (decodeCommand (s.cmdBuf.take s.cmdLen) s.cmdOvf).address? = some a →
        a ≠ s.addr → a ≠ chWild →
        step s = step { s with
          rxq := q, waitBreak := true, waitMark := true, cmdLen := 0, cmdOvf := false })
    ∧ (∀ q a, s.rxOvf = false → s.rxq = chBang :: q →
        (decodeCommand (s.cmdBuf.take s.cmdLen) s.cmdOvf).address? = some a →
        (a = s.addr ∨ a = chWild) →
        step s = exec (decodeCommand (s.cmdBuf.take s.cmdLen) s.cmdOvf) { s with
          inputs := rest, acq := none, rxq := q, waitBreak := true, waitMark := true
          cmdLen := 0, cmdOvf := false
          count := 0, values := [0, 0, 0, 0, 0], lines := [[], [], [], [], [], [], [], [], [], []]
          active := false, state := .lowPower })
    ∧ (s.rxOvf = true →
        step s = step { s with rxq := [], rxOvf := false, cmdLen := 0, cmdOvf := false })

/-- R265 (decision D30, log 8): a delivery that contains a value of magnitude 9999999.5 or more is refused, in
every class. -/
def Obligations.OutOfRangeDeliveryIsRefused : Prop :=
  ∀ (s : State) (res : AcqResult) (rest : List Input),
    s.inputs = .answer res :: rest →
    ((s.state = .measuring ∧ s.waitBreak = true) ∨ s.state = .verify
      ∨ s.state = .continuous ∨ s.state = .highVolume
      ∨ (s.state = .concurrent ∧ (reselect s).1 = none)) →
    (∃ m ∈ normalise res s.count, 9999999500000 ≤ m.natAbs) →
    step s = .refused .valueOutOfRange

/-- The model's choice (log 7), for the contract of R310: an answer with no acquisition in flight stops the
machine, and nothing else faults. -/
def Obligations.OnlyAnUnrequestedAnswerFaults : Prop :=
  ∀ (s : State) (r : Fault), step s = .fault r ↔
    ∃ res rest, s.inputs = .answer res :: rest ∧ isAcquiring s.state = false ∧ r = .answerWithoutRequest

/-- R240: from M, V, R, HA and HB the next state is the same or rest, and from C too unless the queue holds a
command for this device, which is then dispatched. -/
def Obligations.MeasurementStatesReturnToRest : Prop :=
  ∀ s t : State, step s = .next t → isAcquiring s.state = true →
    (s.state = .concurrent → (reselect s).1 = none) →
    t.state = s.state ∨ t.state = .lowPower

/-- R240: rest is left only at a terminator that the foreground agent consumes. -/
def Obligations.RestIsLeftOnlyAtATerminator : Prop :=
  ∀ s t : State, step s = .next t → s.state = .lowPower → t.state ≠ .lowPower →
    ∃ q, s.rxq = chBang :: q ∧ s.rxOvf = false ∧ (s.inputs = [] ∨ s.inputs.head? = some .poll)

/-! ## The Response Encoder -/

/-- R265 (decision D30): `FormatValue` is defined exactly for magnitudes below 9999999.5, whatever `P_REQ`. -/
def Obligations.FormatValueDefinedExactlyInRange : Prop :=
  ∀ (p : Nat) (m : Int), (formatValue p m).isSome = true ↔ m.natAbs < 9999999500000

/-- R261, R262, R263, R264 (decision D31): a sign, at most nine characters, an integer part of at least one
digit and without leading zeros, and the digits of the nearest number with as many fractional digits as fit, a
tie going away from zero. `r` is that number in units of 10^-d, rounded from the original magnitude. -/
def Obligations.FormatValueIsNearestThatFits : Prop :=
  ∀ (p : Nat) (m : Int) (f : Bytes), formatValue p m = some f →
    f.length ≤ 9 ∧ f.head? = some (if m < 0 then 0x2D#8 else 0x2B#8)
    ∧ f.tail.takeWhile isDigit ≠ []
    ∧ ((f.tail.takeWhile isDigit).head? = some 0x30#8 → f.tail.takeWhile isDigit = [0x30#8])
    ∧ ∃ d r : Nat, d ≤ min p 6 ∧ r < 10 ^ 7
      ∧ (f.tail.filter isDigit).length = f.tail.length - (if d = 0 then 0 else 1)
      ∧ decimalValue (f.tail.filter isDigit) = r
      ∧ (d ≠ 0 → f[f.length - d - 1]? = some 0x2E#8)
      ∧ (if d = 6 then r = m.natAbs else
          2 * (r * 10 ^ (6 - d)) ≤ 2 * m.natAbs + 10 ^ (6 - d)
          ∧ 2 * m.natAbs < 2 * (r * 10 ^ (6 - d)) + 10 ^ (6 - d))
      ∧ ∀ d', d < d' → d' ≤ min p 6 →
          10 ^ 7 ≤ (if d' = 6 then m.natAbs else (m.natAbs + 5 * 10 ^ (5 - d')) / 10 ^ (6 - d'))

/-- R267 (b), (c), (d): no line reaches its width, the lines in order are the formatted values in order, and
the populated slots are a prefix of the ten. -/
def Obligations.PackGuarantees : Prop :=
  ∀ (p w : Nat) (vs : List Int) (ls : List Bytes),
    9 < w → vs.length ≤ 10 → pack p w vs = some ls →
    ls.length = 10 ∧ (∀ l ∈ ls, l.length < w) ∧ populatedPrefix ls = true
    ∧ formatAll p vs = some (vs.map fun m => (formatValue p m).getD [])
    ∧ ls.flatten = (vs.map fun m => (formatValue p m).getD []).flatten

/-- R266: the slots are the greedy left-to-right lines, and the unused slots are empty. -/
def Obligations.PackIsGreedy : Prop :=
  ∀ (w : Nat) (fs : List Bytes), fs.length < 10 →
    packLines w fs = greedyLines w [] fs ++ List.replicate (10 - (greedyLines w [] fs).length) []

/-- R273 (decision D33): altering one byte changes the checksum and its three characters. -/
def Obligations.ChecksumDetectsAnAlteredByte : Prop :=
  ∀ (pre post : Bytes) (a b : Byte), a ≠ b →
    crc16 (pre ++ a :: post) ≠ crc16 (pre ++ b :: post)
    ∧ crcAscii (pre ++ a :: post) ≠ crcAscii (pre ++ b :: post)

/-- R271 (decision D33): three characters, each in 0x40..0x7F: the top four bits, the middle six and the low
six of the checksum. -/
def Obligations.ChecksumCharacters : Prop :=
  ∀ bs : Bytes, ∃ x y z : Byte, crcAscii bs = [x, y, z]
    ∧ x.toNat = 0x40 + (crc16 bs).toNat / 4096
    ∧ y.toNat = 0x40 + (crc16 bs).toNat / 64 % 64
    ∧ z.toNat = 0x40 + (crc16 bs).toNat % 64

/-- R271's example, which is the SDI-12 specification's (decision D33): `0+3.14` gives 0xFC5A and `OqZ`. -/
def Obligations.ChecksumExample : Prop :=
  crc16 [0x30#8, 0x2B#8, 0x33#8, 0x2E#8, 0x31#8, 0x34#8] = 0xFC5A#16
  ∧ crcAscii [0x30#8, 0x2B#8, 0x33#8, 0x2E#8, 0x31#8, 0x34#8] = [0x4F#8, 0x71#8, 0x5A#8]

/-! ## The whole machine -/

/-- R13, R295: "every operation returns a definite (possibly degenerate) value": every instruction completes
in every state; none touches the configuration, the receive queue, the command buffer or the schedule. That
ill-formed terms (log 21) and the OPEN `aXM<n>!`, `aXU...!` (log 9) and debug echo (log 10) complete is the
model's choice. -/
def Obligations.EveryInstructionCompletes : Prop :=
  ∀ (i : Instr) (s : State), ∃ t, exec i s = .next t
    ∧ t.cfg = s.cfg ∧ t.inputs = s.inputs ∧ t.draws = s.draws ∧ t.rxq = s.rxq ∧ t.rxOvf = s.rxOvf
    ∧ t.cmdBuf = s.cmdBuf ∧ t.cmdLen = s.cmdLen ∧ t.cmdOvf = s.cmdOvf

/-- R38, with R37, R66 and R206: every step keeps the invariants. -/
def Obligations.StepKeepsTheInvariants : Prop :=
  ∀ s t : State, s.Inv → step s = .next t → t.Inv

/-- R38, R39: the invariants hold after a reset with any stored byte, and at the model's first power-on. -/
def Obligations.ResetHasTheInvariants : Prop :=
  (∀ (nvm : Byte) (cfg : Params) (inputs : List Input) (draws : Nat),
    (State.resetWith nvm cfg inputs draws).Inv)
  ∧ State.reset.Inv

/-- R295, R310: from a state that meets the invariants, with an environment that keeps its duties, every step
answers a next state, which meets the invariants again. -/
def Obligations.LegalStepsNeverStop : Prop :=
  ∀ s : State, s.Inv → s.inputLegal = true → ∃ t, step s = .next t ∧ t.Inv

/-- R39, R321, R320, R323 (decisions D39, D49): what a reset leaves; the stored byte is kept, the address is that
byte or `0`. The model's choices here: `prevEdge` is the next free value (log 2), the 32 bytes of `cmdBuf` are
0x00 (log 4), the lists of observations are emptied (log 15), the acquisition in flight is dropped (log 16). -/
def Obligations.ResetInputEffect : Prop :=
  ∀ (s : State) (rest : List Input), s.inputs = .reset :: rest →
    step s = .next { s with
      inputs := rest, draws := s.draws + 1, prevEdge := Config.prevEdgeDraw s.draws
      waitBreak := true, waitMark := true
      addr := if isAlnum s.nvm = true then s.nvm else 0x30#8
      active := false, state := .lowPower, count := 0
      values := [0, 0, 0, 0, 0], lines := [[], [], [], [], [], [], [], [], [], []]
      crcLatched := false, cmdBuf := List.replicate 32 0x00#8, cmdLen := 0, cmdOvf := false
      ptWin := [0x00#8, 0x00#8, 0x00#8, 0x00#8, 0x00#8]
      rxq := [], rxOvf := false, acq := none
      trace := [], acqReqs := [], nvmWrites := [], ptOut := [], queries := [] }

/-- R67, R186, R308: the store is read at boot without being written; an instruction writes it only when it is
a change-address command with a byte that differs from the stored one, and the write replaces the byte; a step
that writes it consumed a terminator, writes once, and changes the address with it. That a reset empties the
list of writes is the model's choice (log 15). -/
def Obligations.StoreWrittenOnlyByAChangeOfAddress : Prop :=
  (∀ (nvm : Byte) (cfg : Params) (inputs : List Input) (draws : Nat),
    (State.resetWith nvm cfg inputs draws).nvm = nvm
    ∧ (State.resetWith nvm cfg inputs draws).nvmWrites = []
    ∧ (isAlnum nvm = true → (State.resetWith nvm cfg inputs draws).addr = nvm))
  ∧ (∀ (i : Instr) (s t : State), exec i s = .next t →
      (t.nvm = s.nvm ∧ t.nvmWrites = s.nvmWrites)
      ∨ ∃ a b, i = .changeAddress a b ∧ b ≠ s.nvm ∧ t.nvm = b ∧ t.nvmWrites = s.nvmWrites ++ [b])
  ∧ ∀ s t : State, step s = .next t →
      (t.nvm = s.nvm ∧ (t.nvmWrites = s.nvmWrites ∨ s.inputs.head? = some .reset))
      ∨ (t.nvm ≠ s.nvm ∧ t.nvmWrites = s.nvmWrites ++ [t.nvm] ∧ t.addr = t.nvm
        ∧ ∃ pre, s.rxq = pre ++ chBang :: t.rxq)

/-- R24, R91, R97, R102: an instruction sends at most one frame, and (with debug echo off) every frame
begins with the device's own address, an ASCII one ending in `CRLF`. -/
def Obligations.FramesCarryTheOwnAddress : Prop :=
  ∀ (i : Instr) (s t : State), s.cfg.debugEcho = false → exec i s = .next t →
    t.trace = s.trace
    ∨ (∃ body, t.trace = s.trace ++ [.ascii (t.addr :: (body ++ [0x0D#8, 0x0A#8]))])
    ∨ ∃ body, t.trace = s.trace ++ [.binary (t.addr :: body)]

/-- R30, R222, R233 (decision D22): a measurement command for this device sets the checksum latch when it is
`aMC!` and clears it otherwise, table entry or not; every other instruction, and a measurement command for
another device, leaves it. The wildcard address is decision D15. -/
def Obligations.ChecksumLatchFollowsTheLastMeasurement : Prop :=
  ∀ (i : Instr) (s t : State), exec i s = .next t →
    (∀ a cls idx crc, measurementForm i = some (a, cls, idx, crc) →
      (crc = true ↔ i = .measureCrc a)
      ∧ ((a = s.addr ∨ a = 0x3F#8) → t.crcLatched = crc)
      ∧ (a ≠ s.addr → a ≠ 0x3F#8 → t.crcLatched = s.crcLatched))
    ∧ (measurementForm i = none → t.crcLatched = s.crcLatched)

/-! ## The forms of the parser, rule by rule -/

/-- R142, R143, R146, R147, R149 to R156: the records of the forms these rules give, for every address byte,
and the strings each names as `Unknown`. -/
def Obligations.FormsParse : Prop :=
  ∀ (a x : Byte) (e : Bytes),
    -- R142
    parse [a] false = ⟨a, .ack, 0x00#8, -1, -1, false, []⟩
    -- R143
    ∧ parse [a, 0x49#8] false = ⟨a, .identify, 0x00#8, -1, -1, false, []⟩
    ∧ (x ≠ 0x58#8 → parse (a :: 0x49#8 :: x :: e) false = ⟨a, .unknown, 0x00#8, -1, -1, false, []⟩)
    -- R146
    ∧ parse [a, 0x4D#8] false = ⟨a, .measure, 0x00#8, -1, -1, false, []⟩
    -- R147
    ∧ (0x31 ≤ x.toNat → x.toNat ≤ 0x39 →
        parse [a, 0x4D#8, x] false = ⟨a, .measure, 0x00#8, (x.toNat : Int) - 0x30, -1, false, []⟩)
    ∧ parse [a, 0x4D#8, 0x30#8] false = ⟨a, .unknown, 0x00#8, -1, -1, false, []⟩
    -- R149
    ∧ parse [a, 0x43#8] false = ⟨a, .concurrent, 0x00#8, -1, -1, false, []⟩
    -- R150
    ∧ (0x31 ≤ x.toNat → x.toNat ≤ 0x39 →
        parse [a, 0x43#8, x] false = ⟨a, .concurrent, 0x00#8, (x.toNat : Int) - 0x30, -1, false, []⟩)
    ∧ parse [a, 0x43#8, 0x30#8] false = ⟨a, .unknown, 0x00#8, -1, -1, false, []⟩
    ∧ parse [a, 0x43#8, 0x43#8] false = ⟨a, .unknown, 0x00#8, -1, -1, false, []⟩
    -- R151
    ∧ parse [a, 0x56#8] false = ⟨a, .verify, 0x00#8, -1, -1, false, []⟩
    ∧ parse [a, 0x56#8, 0x31#8] false = ⟨a, .unknown, 0x00#8, -1, -1, false, []⟩
    -- R152
    ∧ (0x30 ≤ x.toNat → x.toNat ≤ 0x39 →
        parse [a, 0x44#8, x] false = ⟨a, .data, 0x00#8, (x.toNat : Int) - 0x30, -1, false, []⟩)
    ∧ parse [a, 0x44#8] false = ⟨a, .unknown, 0x00#8, -1, -1, false, []⟩
    ∧ parse [a, 0x44#8, 0x31#8, 0x30#8] false = ⟨a, .unknown, 0x00#8, -1, -1, false, []⟩
    -- R153
    ∧ (0x30 ≤ x.toNat → x.toNat ≤ 0x39 →
        parse [a, 0x44#8, 0x42#8, x] false = ⟨a, .data, 0x42#8, (x.toNat : Int) - 0x30, -1, false, []⟩)
    ∧ parse [a, 0x44#8, 0x42#8] false = ⟨a, .unknown, 0x00#8, -1, -1, false, []⟩
    -- R154
    ∧ (0x30 ≤ x.toNat → x.toNat ≤ 0x39 →
        parse [a, 0x52#8, x] false = ⟨a, .continuous, 0x00#8, (x.toNat : Int) - 0x30, -1, false, []⟩)
    ∧ parse [a, 0x52#8] false = ⟨a, .unknown, 0x00#8, -1, -1, false, []⟩
    -- R155, R156
    ∧ parse [a, 0x48#8, 0x41#8] false = ⟨a, .highVolume, 0x41#8, -1, -1, false, []⟩
    ∧ parse [a, 0x48#8, 0x42#8] false = ⟨a, .highVolume, 0x42#8, -1, -1, false, []⟩
    ∧ parse [a, 0x48#8] false = ⟨a, .unknown, 0x00#8, -1, -1, false, []⟩
    ∧ parse [a, 0x48#8, 0x43#8] false = ⟨a, .unknown, 0x00#8, -1, -1, false, []⟩
end

