-- ==== Sys2Proof/Laws/Encoder.lean ====
section
/-! SUPPORT. Lengths, characters and values of decimal spellings, and what the encoder's functions give. -/

namespace Sys2Proof

/-! ### Digits -/

theorem digitByte_toNat (n : Nat) : (digitByte n).toNat = 0x30 + n % 10 := by
  have h : n % 10 < 10 := Nat.mod_lt _ (by omega)
  simp only [digitByte, BitVec.toNat_ofNat]
  omega

@[simp] theorem isDigit_digitByte (n : Nat) : isDigit (digitByte n) = true := by
  have h : n % 10 < 10 := Nat.mod_lt _ (by omega)
  simp only [isDigit, digitByte_toNat, Bool.and_eq_true, decide_eq_true_eq]
  omega

@[simp] theorem dv_digitByte (n : Nat) : (dv (digitByte n)).val = n % 10 := by
  simp [dv, digitByte_toNat]

/-- A digit byte is the digit of its value. -/
theorem digitByte_dv {c : Byte} (h : isDigit c = true) : digitByte (dv c).val = c := by
  apply BitVec.eq_of_toNat_eq
  simp only [isDigit, Bool.and_eq_true, decide_eq_true_eq] at h
  simp only [digitByte_toNat, dv, Fin.val_ofNat]
  omega

theorem isDigit_of_isDigit19 {c : Byte} (h : isDigit19 c = true) : isDigit c = true := by
  simp only [isDigit19, isDigit, Bool.and_eq_true, decide_eq_true_eq] at *
  omega

/-- A byte of a character class is not the terminator. -/
theorem ne_bang_of_isDigit {c : Byte} (h : isDigit c = true) : c ≠ chBang := by
  rintro rfl; revert h; decide

theorem ne_bang_of_isAlnum {c : Byte} (h : isAlnum c = true) : c ≠ chBang := by
  rintro rfl; revert h; decide

/-! ### Decimal spellings -/

@[simp] theorem dec_length (n w : Nat) : (dec n w).length = w := by
  induction w generalizing n with
  | zero => rfl
  | succ w ih => simp [dec, ih]

theorem decimalValue_append (ds : Bytes) (c : Byte) :
    decimalValue (ds ++ [c]) = 10 * decimalValue ds + (dv c).val := by
  simp [decimalValue]

/-- A run of k bytes spells a number below 10^k. -/
theorem decimalValue_lt (ds : Bytes) : decimalValue ds < 10 ^ ds.length := by
  induction ds using List.reverseRecOn with
  | nil => simp [decimalValue]
  | append_singleton ds c ih =>
    rw [decimalValue_append, List.length_append, List.length_singleton, Nat.pow_succ]
    have := (dv c).isLt
    omega

theorem decimalWith_all_digits (fuel n : Nat) : ∀ c ∈ decimalWith fuel n, isDigit c = true := by
  induction fuel generalizing n with
  | zero => simp [decimalWith]
  | succ f ih =>
    unfold decimalWith
    split
    · simp
    · intro c hc
      rcases List.mem_append.1 hc with h | h
      · exact ih _ c h
      · simp only [List.mem_singleton] at h; subst h; simp

/-- With fuel enough the spelling spells its number. -/
theorem decimalWith_value (fuel n : Nat) (h : n ≤ fuel) : decimalValue (decimalWith fuel n) = n := by
  induction fuel generalizing n with
  | zero =>
    obtain rfl : n = 0 := by omega
    decide
  | succ f ih =>
    unfold decimalWith
    split
    · rename_i hn
      show decimalValue ([] ++ [digitByte n]) = n
      rw [decimalValue_append, dv_digitByte]
      simp only [decimalValue, List.foldl_nil]
      omega
    · rw [decimalValue_append, ih _ (by omega), dv_digitByte]
      omega

/-- With fuel enough a spelling has at most w characters exactly when its number is below 10^w. -/
theorem decimalWith_length_le (fuel n w : Nat) (h : n ≤ fuel) (hw : 0 < w) :
    (decimalWith fuel n).length ≤ w ↔ n < 10 ^ w := by
  induction fuel generalizing n w with
  | zero =>
    obtain rfl : n = 0 := by omega
    simp only [decimalWith, List.length_singleton]
    have : 0 < 10 ^ w := Nat.pos_of_ne_zero (by simp)
    omega
  | succ f ih =>
    unfold decimalWith
    split
    · rename_i hn
      simp only [List.length_singleton]
      have : 10 ^ 1 ≤ 10 ^ w := Nat.pow_le_pow_right (by omega) hw
      omega
    · rename_i hn
      rw [List.length_append, List.length_singleton]
      cases w with
      | zero => omega
      | succ w =>
        cases w with
        | zero =>
          have hp : 0 < (decimalWith f (n / 10)).length := by
            cases f <;> unfold decimalWith <;> [simp; (split <;> simp)]
          simp only [Nat.zero_add, Nat.pow_one]
          omega
        | succ w =>
          have := ih (n / 10) (w + 1) (by omega) (by omega)
          rw [Nat.pow_succ 10 (w + 1)]
          omega

theorem decimal_value (n : Nat) : decimalValue (decimal n) = n := decimalWith_value n n le_rfl

theorem decimal_all_digits (n : Nat) : ∀ c ∈ decimal n, isDigit c = true := decimalWith_all_digits n n

theorem decimal_length_le (n w : Nat) (hw : 0 < w) : (decimal n).length ≤ w ↔ n < 10 ^ w :=
  decimalWith_length_le n n w le_rfl hw

theorem padLeft_length (w : Nat) (ds : Bytes) : (padLeft w ds).length = max w ds.length := by
  simp only [padLeft, List.length_append, List.length_replicate]; omega

namespace Machine

/-! ### FormatValue -/

/-- The digits of an attempt fit the budget exactly when the rounded number is below 10^7 (R262). -/
theorem roundedDigits_fit {a d : Nat} (hd : d ≤ 6) :
    (roundedDigits a d).length ≤ Config.digitsMax ↔ roundedTo a d < 10 ^ 7 := by
  rw [roundedDigits, padLeft_length, ← decimal_length_le (roundedTo a d) 7 (by omega)]
  simp only [Config.digitsMax]
  omega

/-- What a successful attempt gives: the first number of places, from the highest, at which the rounded
number fits (R262). -/
theorem formatFrom_some {sign : Byte} {a : Nat} : ∀ {k : Nat} {f : Bytes}, formatFrom sign a k = some f →
    ∃ d, d ≤ k ∧ (roundedDigits a d).length ≤ Config.digitsMax
      ∧ f = renderDigits sign d (roundedDigits a d)
      ∧ ∀ d', d < d' → d' ≤ k → ¬ (roundedDigits a d').length ≤ Config.digitsMax
  | 0, f, h => by
    unfold formatFrom at h
    split at h
    · rename_i hl
      cases h
      exact ⟨0, le_rfl, hl, rfl, fun d' h1 h2 => by omega⟩
    · cases h
  | k + 1, f, h => by
    unfold formatFrom at h
    split at h
    · rename_i hl
      cases h
      exact ⟨k + 1, le_rfl, hl, rfl, fun d' h1 h2 => by omega⟩
    · rename_i hl
      obtain ⟨d, h1, h2, h3, h4⟩ := formatFrom_some h
      refine ⟨d, by omega, h2, h3, fun d' h5 h6 => ?_⟩
      by_cases hk : d' = k + 1
      · subst hk; exact hl
      · exact h4 d' h5 (by omega)

/-- An attempt fails exactly when no number of places fits. -/
theorem formatFrom_none {sign : Byte} {a : Nat} : ∀ {k : Nat}, formatFrom sign a k = none ↔
    ∀ d, d ≤ k → ¬ (roundedDigits a d).length ≤ Config.digitsMax
  | 0 => by
    unfold formatFrom
    split
    · rename_i h; simp only [reduceCtorEq, false_iff]; exact fun hh => hh 0 le_rfl h
    · rename_i h
      simp only [true_iff]
      intro d hd
      obtain rfl : d = 0 := by omega
      exact h
  | k + 1 => by
    unfold formatFrom
    split
    · rename_i h; simp only [reduceCtorEq, false_iff]; exact fun hh => hh (k + 1) le_rfl h
    · rename_i h
      rw [formatFrom_none]
      constructor
      · intro hh d hd
        by_cases hk : d = k + 1
        · subst hk; exact h
        · exact hh d (by omega)
      · exact fun hh d hd => hh d (by omega)

theorem renderDigits_length (sign : Byte) (d : Nat) (ds : Bytes) :
    (renderDigits sign d ds).length = 1 + ds.length + (if d = 0 then 0 else 1) := by
  unfold renderDigits
  split <;> simp <;> omega

/-! ### Pack -/

theorem formatAll_some {p : Nat} : ∀ {vs : List Int} {fs : List Bytes}, formatAll p vs = some fs →
    fs.length = vs.length ∧ ∀ f ∈ fs, ∃ m ∈ vs, formatValue p m = some f
  | [], fs, h => by cases h; simp
  | m :: ms, fs, h => by
    unfold formatAll at h
    split at h
    · rename_i f fs' h1 h2
      cases h
      obtain ⟨hl, hm⟩ := formatAll_some h2
      refine ⟨by simp [hl], fun g hg => ?_⟩
      rcases List.mem_cons.1 hg with rfl | hg
      · exact ⟨m, by simp, h1⟩
      · obtain ⟨m', hm', he⟩ := hm g hg
        exact ⟨m', by simp [hm'], he⟩
    · cases h

theorem formatAll_isSome {p : Nat} {vs : List Int} :
    (formatAll p vs).isSome = true ↔ ∀ m ∈ vs, (formatValue p m).isSome = true := by
  induction vs with
  | nil => simp [formatAll]
  | cons m ms ih =>
    unfold formatAll
    cases h1 : formatValue p m <;> cases h2 : formatAll p ms <;> simp_all

/-- Packing succeeds exactly when every value can be formatted (R265). -/
theorem pack_isSome {p w : Nat} {vs : List Int} :
    (pack p w vs).isSome = true ↔ ∀ m ∈ vs, (formatValue p m).isSome = true := by
  simp only [pack, Option.isSome_map, formatAll_isSome]

/-! ### The checksum -/

theorem crc16_append (xs ys : Bytes) : crc16 (xs ++ ys) = ys.foldl crcByte (crc16 xs) := by
  simp [crc16]

@[simp] theorem crcAscii_length (bs : Bytes) : (crcAscii bs).length = 3 := rfl

end Machine

end Sys2Proof
end

