-- ==== Sys2Proof/Laws/Decode.lean ====
section
/-! SUPPORT. What the framing and the parts of the decoder give: the split at the terminator, and one
inversion lemma for the named forms. -/

namespace Sys2Proof

/-- A body without a terminator is split off at the first one (R80). -/
theorem splitAtBang_append : ∀ (body rest : Bytes), chBang ∉ body →
    splitAtBang (body ++ chBang :: rest) = some (body, rest)
  | [], rest, _ => by simp [splitAtBang]
  | b :: body, rest, h => by
    have hb : b ≠ chBang := fun e => h (by simp [e])
    have hr : chBang ∉ body := fun e => h (by simp [e])
    simp only [List.cons_append, splitAtBang, if_neg hb, splitAtBang_append body rest hr, Option.map_some]

/-- What is split off holds no terminator, and the parts make up the stream again. -/
theorem splitAtBang_some : ∀ {bs body rest : Bytes}, splitAtBang bs = some (body, rest) →
    chBang ∉ body ∧ bs = body ++ chBang :: rest
  | [], _, _, h => by simp [splitAtBang] at h
  | b :: q, body, rest, h => by
    unfold splitAtBang at h
    split at h
    · rename_i hb; cases h; simp [hb]
    · rename_i hb
      obtain ⟨⟨body', rest'⟩, hq, he⟩ := Option.map_eq_some_iff.1 h
      cases he
      obtain ⟨h1, h2⟩ := splitAtBang_some hq
      refine ⟨?_, by simp [h2]⟩
      simp only [List.mem_cons, not_or]
      exact ⟨fun e => hb e.symm, h1⟩

/-- A framed command string decodes to the instruction of the string (R80, R61). -/
theorem decode_framed {body : Bytes} (rest : Bytes) (h : chBang ∉ body) :
    decode .command (body ++ chBang :: rest)
      = .ok (decodeCommand (body.take Config.cmdMax) (decide (Config.cmdMax < body.length)), rest) := by
  simp only [decode, splitAtBang_append body rest h]

/-- Every named form that a string of two bytes or more can have, with what its bytes are (R143 to R159). -/
theorem decodeNamed_some {a k : Byte} {r : Bytes} {i : Instr} (h : decodeNamed a k r = some i) :
    (k = chI ∧ r = [] ∧ i = .identify a)
    ∨ (∃ e, k = chI ∧ r = chX :: e ∧ (digitRuns e).isSome = true ∧ i = .metadata a e)
    ∨ (∃ b, k = chA ∧ r = [b] ∧ isAlnum b = true ∧ i = .changeAddress a b)
    ∨ (k = chM ∧ r = [] ∧ i = .measure a)
    ∨ (∃ x, k = chM ∧ r = [x] ∧ isDigit19 x = true ∧ i = .measureIdx a (dv x))
    ∨ (k = chM ∧ r = [chC] ∧ i = .measureCrc a)
    ∨ (k = chC ∧ r = [] ∧ i = .concurrent a)
    ∨ (∃ x, k = chC ∧ r = [x] ∧ isDigit19 x = true ∧ i = .concurrentIdx a (dv x))
    ∨ (k = chV ∧ r = [] ∧ i = .verify a)
    ∨ (∃ x, k = chD ∧ r = [x] ∧ isDigit x = true ∧ i = .data a (dv x))
    ∨ (∃ y, k = chD ∧ r = [chB, y] ∧ isDigit y = true ∧ i = .byteData a (dv y))
    ∨ (∃ x, k = chR ∧ r = [x] ∧ isDigit x = true ∧ i = .continuous a (dv x))
    ∨ (k = chH ∧ r = [chA] ∧ i = .highVolumeA a)
    ∨ (k = chH ∧ r = [chB] ∧ i = .highVolumeB a)
    ∨ (∃ e, k = chX ∧ r = chM :: e ∧ e.all isDigit = true ∧ e.length ≤ Config.paramDigits ∧ i = .extM a e)
    ∨ (∃ e, k = chX ∧ r = chU :: e ∧ i = .extU a e)
    ∨ (k = chX ∧ r = [chP, chA, chS] ∧ i = .passEnter a) := by
  unfold decodeNamed at h
  repeat' split at h
  all_goals rename_i hk
  · unfold decodeI at h
    repeat' split at h
    all_goals cases h
    · simp [hk]
    · rename_i hx; obtain ⟨rfl, hx⟩ := hx; simp [hk, hx]
  · unfold decodeA at h
    repeat' split at h
    all_goals cases h
    rename_i hx; simp [hk, hx]
  · unfold decodeM at h
    repeat' split at h
    all_goals cases h
    · simp [hk]
    · rename_i hx; simp [hk, hx]
    · rename_i hx; subst hx; simp [hk]
  · unfold decodeC at h
    repeat' split at h
    all_goals cases h
    · simp [hk]
    · rename_i hx; simp [hk, hx]
  · unfold decodeV at h
    repeat' split at h
    all_goals cases h
    simp [hk]
  · unfold decodeD at h
    repeat' split at h
    all_goals cases h
    · rename_i hx; simp [hk, hx]
    · rename_i hx; obtain ⟨rfl, hx⟩ := hx; simp [hk, hx]
  · unfold decodeR at h
    repeat' split at h
    all_goals cases h
    rename_i hx; simp [hk, hx]
  · unfold decodeH at h
    repeat' split at h
    all_goals cases h
    · rename_i hx; subst hx; simp [hk]
    · rename_i hx; subst hx; simp [hk]
  · unfold decodeX at h
    repeat' split at h
    all_goals cases h
    · rename_i hx; obtain ⟨rfl, h1, h2⟩ := hx; simp [hk, h2]; simpa using h1
    · rename_i hx; subst hx; simp [hk]
    · rename_i hx; obtain ⟨rfl, rfl⟩ := hx; simp [hk]
  · cases h

/-- The characters of identity strings are printable and none is the terminator (10_state.md R31). -/
theorem printByte_legal : ∀ c : PrintChar,
    0x20 ≤ (printByte c).toNat ∧ (printByte c).toNat ≤ 0x7E ∧ printByte c ≠ chBang := by decide

/-- Every printable byte but the terminator is such a character (10_state.md R31). -/
theorem printByte_complete : ∀ b : Byte, 0x20 ≤ b.toNat → b.toNat ≤ 0x7E → b ≠ chBang →
    ∃ c : PrintChar, printByte c = b := by decide +kernel

theorem printBytes_append (xs ys : List PrintChar) : printBytes (xs ++ ys) = printBytes xs ++ printBytes ys := by
  simp [printBytes]

/-- So is every byte of an identity string. -/
theorem printBytes_legal {cs : List PrintChar} {b : Byte} (h : b ∈ printBytes cs) :
    0x20 ≤ b.toNat ∧ b.toNat ≤ 0x7E ∧ b ≠ chBang := by
  obtain ⟨c, -, rfl⟩ := List.mem_map.1 h
  exact printByte_legal c

end Sys2Proof
end

