-- ==== Sys2Proof/Laws/State.lean ====
section
/-! SUPPORT. One lemma for each field of State under each named update, true by rfl, so that no later proof
unfolds a record update; then the fields that the conditional updates leave alone. -/

namespace Sys2Proof.Machine

open Sys2Proof

/-! ### rearmFlags -/

@[simp] theorem rearmFlags_prevEdge (s : State) : (rearmFlags s).prevEdge = s.prevEdge := rfl
@[simp] theorem rearmFlags_waitBreak (s : State) : (rearmFlags s).waitBreak = true := rfl
@[simp] theorem rearmFlags_waitMark (s : State) : (rearmFlags s).waitMark = true := rfl
@[simp] theorem rearmFlags_addr (s : State) : (rearmFlags s).addr = s.addr := rfl
@[simp] theorem rearmFlags_active (s : State) : (rearmFlags s).active = s.active := rfl
@[simp] theorem rearmFlags_state (s : State) : (rearmFlags s).state = s.state := rfl
@[simp] theorem rearmFlags_count (s : State) : (rearmFlags s).count = s.count := rfl
@[simp] theorem rearmFlags_values (s : State) : (rearmFlags s).values = s.values := rfl
@[simp] theorem rearmFlags_lines (s : State) : (rearmFlags s).lines = s.lines := rfl
@[simp] theorem rearmFlags_crcLatched (s : State) : (rearmFlags s).crcLatched = s.crcLatched := rfl
@[simp] theorem rearmFlags_cmdBuf (s : State) : (rearmFlags s).cmdBuf = s.cmdBuf := rfl
@[simp] theorem rearmFlags_cmdLen (s : State) : (rearmFlags s).cmdLen = s.cmdLen := rfl
@[simp] theorem rearmFlags_cmdOvf (s : State) : (rearmFlags s).cmdOvf = s.cmdOvf := rfl
@[simp] theorem rearmFlags_ptWin (s : State) : (rearmFlags s).ptWin = s.ptWin := rfl
@[simp] theorem rearmFlags_rxq (s : State) : (rearmFlags s).rxq = s.rxq := rfl
@[simp] theorem rearmFlags_rxOvf (s : State) : (rearmFlags s).rxOvf = s.rxOvf := rfl
@[simp] theorem rearmFlags_nvm (s : State) : (rearmFlags s).nvm = s.nvm := rfl
@[simp] theorem rearmFlags_acq (s : State) : (rearmFlags s).acq = s.acq := rfl
@[simp] theorem rearmFlags_trace (s : State) : (rearmFlags s).trace = s.trace := rfl
@[simp] theorem rearmFlags_acqReqs (s : State) : (rearmFlags s).acqReqs = s.acqReqs := rfl
@[simp] theorem rearmFlags_nvmWrites (s : State) : (rearmFlags s).nvmWrites = s.nvmWrites := rfl
@[simp] theorem rearmFlags_ptOut (s : State) : (rearmFlags s).ptOut = s.ptOut := rfl
@[simp] theorem rearmFlags_queries (s : State) : (rearmFlags s).queries = s.queries := rfl
@[simp] theorem rearmFlags_cfg (s : State) : (rearmFlags s).cfg = s.cfg := rfl
@[simp] theorem rearmFlags_inputs (s : State) : (rearmFlags s).inputs = s.inputs := rfl
@[simp] theorem rearmFlags_draws (s : State) : (rearmFlags s).draws = s.draws := rfl

/-! ### activate -/

@[simp] theorem activate_prevEdge (s : State) : (activate s).prevEdge = s.prevEdge := rfl
@[simp] theorem activate_waitBreak (s : State) : (activate s).waitBreak = s.waitBreak := rfl
@[simp] theorem activate_waitMark (s : State) : (activate s).waitMark = s.waitMark := rfl
@[simp] theorem activate_addr (s : State) : (activate s).addr = s.addr := rfl
@[simp] theorem activate_active (s : State) : (activate s).active = true := rfl
@[simp] theorem activate_state (s : State) : (activate s).state = .ready := rfl
@[simp] theorem activate_count (s : State) : (activate s).count = s.count := rfl
@[simp] theorem activate_values (s : State) : (activate s).values = s.values := rfl
@[simp] theorem activate_lines (s : State) : (activate s).lines = s.lines := rfl
@[simp] theorem activate_crcLatched (s : State) : (activate s).crcLatched = s.crcLatched := rfl
@[simp] theorem activate_cmdBuf (s : State) : (activate s).cmdBuf = s.cmdBuf := rfl
@[simp] theorem activate_cmdLen (s : State) : (activate s).cmdLen = s.cmdLen := rfl
@[simp] theorem activate_cmdOvf (s : State) : (activate s).cmdOvf = s.cmdOvf := rfl
@[simp] theorem activate_ptWin (s : State) : (activate s).ptWin = s.ptWin := rfl
@[simp] theorem activate_rxq (s : State) : (activate s).rxq = s.rxq := rfl
@[simp] theorem activate_rxOvf (s : State) : (activate s).rxOvf = s.rxOvf := rfl
@[simp] theorem activate_nvm (s : State) : (activate s).nvm = s.nvm := rfl
@[simp] theorem activate_acq (s : State) : (activate s).acq = s.acq := rfl
@[simp] theorem activate_trace (s : State) : (activate s).trace = s.trace := rfl
@[simp] theorem activate_acqReqs (s : State) : (activate s).acqReqs = s.acqReqs := rfl
@[simp] theorem activate_nvmWrites (s : State) : (activate s).nvmWrites = s.nvmWrites := rfl
@[simp] theorem activate_ptOut (s : State) : (activate s).ptOut = s.ptOut := rfl
@[simp] theorem activate_queries (s : State) : (activate s).queries = s.queries := rfl
@[simp] theorem activate_cfg (s : State) : (activate s).cfg = s.cfg := rfl
@[simp] theorem activate_inputs (s : State) : (activate s).inputs = s.inputs := rfl
@[simp] theorem activate_draws (s : State) : (activate s).draws = s.draws := rfl

/-! ### finish -/

@[simp] theorem finish_prevEdge (s : State) : (finish s).prevEdge = s.prevEdge := rfl
@[simp] theorem finish_waitBreak (s : State) : (finish s).waitBreak = s.waitBreak := rfl
@[simp] theorem finish_waitMark (s : State) : (finish s).waitMark = s.waitMark := rfl
@[simp] theorem finish_addr (s : State) : (finish s).addr = s.addr := rfl
@[simp] theorem finish_active (s : State) : (finish s).active = false := rfl
@[simp] theorem finish_state (s : State) : (finish s).state = .lowPower := rfl
@[simp] theorem finish_count (s : State) : (finish s).count = s.count := rfl
@[simp] theorem finish_values (s : State) : (finish s).values = s.values := rfl
@[simp] theorem finish_lines (s : State) : (finish s).lines = s.lines := rfl
@[simp] theorem finish_crcLatched (s : State) : (finish s).crcLatched = s.crcLatched := rfl
@[simp] theorem finish_cmdBuf (s : State) : (finish s).cmdBuf = s.cmdBuf := rfl
@[simp] theorem finish_cmdLen (s : State) : (finish s).cmdLen = s.cmdLen := rfl
@[simp] theorem finish_cmdOvf (s : State) : (finish s).cmdOvf = s.cmdOvf := rfl
@[simp] theorem finish_ptWin (s : State) : (finish s).ptWin = s.ptWin := rfl
@[simp] theorem finish_rxq (s : State) : (finish s).rxq = s.rxq := rfl
@[simp] theorem finish_rxOvf (s : State) : (finish s).rxOvf = s.rxOvf := rfl
@[simp] theorem finish_nvm (s : State) : (finish s).nvm = s.nvm := rfl
@[simp] theorem finish_acq (s : State) : (finish s).acq = s.acq := rfl
@[simp] theorem finish_trace (s : State) : (finish s).trace = s.trace := rfl
@[simp] theorem finish_acqReqs (s : State) : (finish s).acqReqs = s.acqReqs := rfl
@[simp] theorem finish_nvmWrites (s : State) : (finish s).nvmWrites = s.nvmWrites := rfl
@[simp] theorem finish_ptOut (s : State) : (finish s).ptOut = s.ptOut := rfl
@[simp] theorem finish_queries (s : State) : (finish s).queries = s.queries := rfl
@[simp] theorem finish_cfg (s : State) : (finish s).cfg = s.cfg := rfl
@[simp] theorem finish_inputs (s : State) : (finish s).inputs = s.inputs := rfl
@[simp] theorem finish_draws (s : State) : (finish s).draws = s.draws := rfl

/-! ### sendAscii -/

@[simp] theorem sendAscii_prevEdge (bs : Bytes) (s : State) : (sendAscii bs s).prevEdge = s.prevEdge := rfl
@[simp] theorem sendAscii_waitBreak (bs : Bytes) (s : State) : (sendAscii bs s).waitBreak = s.waitBreak := rfl
@[simp] theorem sendAscii_waitMark (bs : Bytes) (s : State) : (sendAscii bs s).waitMark = s.waitMark := rfl
@[simp] theorem sendAscii_addr (bs : Bytes) (s : State) : (sendAscii bs s).addr = s.addr := rfl
@[simp] theorem sendAscii_active (bs : Bytes) (s : State) : (sendAscii bs s).active = s.active := rfl
@[simp] theorem sendAscii_state (bs : Bytes) (s : State) : (sendAscii bs s).state = s.state := rfl
@[simp] theorem sendAscii_count (bs : Bytes) (s : State) : (sendAscii bs s).count = s.count := rfl
@[simp] theorem sendAscii_values (bs : Bytes) (s : State) : (sendAscii bs s).values = s.values := rfl
@[simp] theorem sendAscii_lines (bs : Bytes) (s : State) : (sendAscii bs s).lines = s.lines := rfl
@[simp] theorem sendAscii_crcLatched (bs : Bytes) (s : State) : (sendAscii bs s).crcLatched = s.crcLatched := rfl
@[simp] theorem sendAscii_cmdBuf (bs : Bytes) (s : State) : (sendAscii bs s).cmdBuf = s.cmdBuf := rfl
@[simp] theorem sendAscii_cmdLen (bs : Bytes) (s : State) : (sendAscii bs s).cmdLen = s.cmdLen := rfl
@[simp] theorem sendAscii_cmdOvf (bs : Bytes) (s : State) : (sendAscii bs s).cmdOvf = s.cmdOvf := rfl
@[simp] theorem sendAscii_ptWin (bs : Bytes) (s : State) : (sendAscii bs s).ptWin = s.ptWin := rfl
@[simp] theorem sendAscii_rxq (bs : Bytes) (s : State) : (sendAscii bs s).rxq = s.rxq := rfl
@[simp] theorem sendAscii_rxOvf (bs : Bytes) (s : State) : (sendAscii bs s).rxOvf = s.rxOvf := rfl
@[simp] theorem sendAscii_nvm (bs : Bytes) (s : State) : (sendAscii bs s).nvm = s.nvm := rfl
@[simp] theorem sendAscii_acq (bs : Bytes) (s : State) : (sendAscii bs s).acq = s.acq := rfl
@[simp] theorem sendAscii_trace (bs : Bytes) (s : State) : (sendAscii bs s).trace = s.trace ++ [.ascii bs] := rfl
@[simp] theorem sendAscii_acqReqs (bs : Bytes) (s : State) : (sendAscii bs s).acqReqs = s.acqReqs := rfl
@[simp] theorem sendAscii_nvmWrites (bs : Bytes) (s : State) : (sendAscii bs s).nvmWrites = s.nvmWrites := rfl
@[simp] theorem sendAscii_ptOut (bs : Bytes) (s : State) : (sendAscii bs s).ptOut = s.ptOut := rfl
@[simp] theorem sendAscii_queries (bs : Bytes) (s : State) : (sendAscii bs s).queries = s.queries := rfl
@[simp] theorem sendAscii_cfg (bs : Bytes) (s : State) : (sendAscii bs s).cfg = s.cfg := rfl
@[simp] theorem sendAscii_inputs (bs : Bytes) (s : State) : (sendAscii bs s).inputs = s.inputs := rfl
@[simp] theorem sendAscii_draws (bs : Bytes) (s : State) : (sendAscii bs s).draws = s.draws := rfl

/-! ### sendBinary -/

@[simp] theorem sendBinary_prevEdge (bs : Bytes) (s : State) : (sendBinary bs s).prevEdge = s.prevEdge := rfl
@[simp] theorem sendBinary_waitBreak (bs : Bytes) (s : State) : (sendBinary bs s).waitBreak = s.waitBreak := rfl
@[simp] theorem sendBinary_waitMark (bs : Bytes) (s : State) : (sendBinary bs s).waitMark = s.waitMark := rfl
@[simp] theorem sendBinary_addr (bs : Bytes) (s : State) : (sendBinary bs s).addr = s.addr := rfl
@[simp] theorem sendBinary_active (bs : Bytes) (s : State) : (sendBinary bs s).active = s.active := rfl
@[simp] theorem sendBinary_state (bs : Bytes) (s : State) : (sendBinary bs s).state = s.state := rfl
@[simp] theorem sendBinary_count (bs : Bytes) (s : State) : (sendBinary bs s).count = s.count := rfl
@[simp] theorem sendBinary_values (bs : Bytes) (s : State) : (sendBinary bs s).values = s.values := rfl
@[simp] theorem sendBinary_lines (bs : Bytes) (s : State) : (sendBinary bs s).lines = s.lines := rfl
@[simp] theorem sendBinary_crcLatched (bs : Bytes) (s : State) : (sendBinary bs s).crcLatched = s.crcLatched := rfl
@[simp] theorem sendBinary_cmdBuf (bs : Bytes) (s : State) : (sendBinary bs s).cmdBuf = s.cmdBuf := rfl
@[simp] theorem sendBinary_cmdLen (bs : Bytes) (s : State) : (sendBinary bs s).cmdLen = s.cmdLen := rfl
@[simp] theorem sendBinary_cmdOvf (bs : Bytes) (s : State) : (sendBinary bs s).cmdOvf = s.cmdOvf := rfl
@[simp] theorem sendBinary_ptWin (bs : Bytes) (s : State) : (sendBinary bs s).ptWin = s.ptWin := rfl
@[simp] theorem sendBinary_rxq (bs : Bytes) (s : State) : (sendBinary bs s).rxq = s.rxq := rfl
@[simp] theorem sendBinary_rxOvf (bs : Bytes) (s : State) : (sendBinary bs s).rxOvf = s.rxOvf := rfl
@[simp] theorem sendBinary_nvm (bs : Bytes) (s : State) : (sendBinary bs s).nvm = s.nvm := rfl
@[simp] theorem sendBinary_acq (bs : Bytes) (s : State) : (sendBinary bs s).acq = s.acq := rfl
@[simp] theorem sendBinary_trace (bs : Bytes) (s : State) : (sendBinary bs s).trace = s.trace ++ [.binary bs] := rfl
@[simp] theorem sendBinary_acqReqs (bs : Bytes) (s : State) : (sendBinary bs s).acqReqs = s.acqReqs := rfl
@[simp] theorem sendBinary_nvmWrites (bs : Bytes) (s : State) : (sendBinary bs s).nvmWrites = s.nvmWrites := rfl
@[simp] theorem sendBinary_ptOut (bs : Bytes) (s : State) : (sendBinary bs s).ptOut = s.ptOut := rfl
@[simp] theorem sendBinary_queries (bs : Bytes) (s : State) : (sendBinary bs s).queries = s.queries := rfl
@[simp] theorem sendBinary_cfg (bs : Bytes) (s : State) : (sendBinary bs s).cfg = s.cfg := rfl
@[simp] theorem sendBinary_inputs (bs : Bytes) (s : State) : (sendBinary bs s).inputs = s.inputs := rfl
@[simp] theorem sendBinary_draws (bs : Bytes) (s : State) : (sendBinary bs s).draws = s.draws := rfl

/-! ### sendAddress -/

@[simp] theorem sendAddress_prevEdge (s : State) : (sendAddress s).prevEdge = s.prevEdge := rfl
@[simp] theorem sendAddress_waitBreak (s : State) : (sendAddress s).waitBreak = s.waitBreak := rfl
@[simp] theorem sendAddress_waitMark (s : State) : (sendAddress s).waitMark = s.waitMark := rfl
@[simp] theorem sendAddress_addr (s : State) : (sendAddress s).addr = s.addr := rfl
@[simp] theorem sendAddress_active (s : State) : (sendAddress s).active = s.active := rfl
@[simp] theorem sendAddress_state (s : State) : (sendAddress s).state = s.state := rfl
@[simp] theorem sendAddress_count (s : State) : (sendAddress s).count = s.count := rfl
@[simp] theorem sendAddress_values (s : State) : (sendAddress s).values = s.values := rfl
@[simp] theorem sendAddress_lines (s : State) : (sendAddress s).lines = s.lines := rfl
@[simp] theorem sendAddress_crcLatched (s : State) : (sendAddress s).crcLatched = s.crcLatched := rfl
@[simp] theorem sendAddress_cmdBuf (s : State) : (sendAddress s).cmdBuf = s.cmdBuf := rfl
@[simp] theorem sendAddress_cmdLen (s : State) : (sendAddress s).cmdLen = s.cmdLen := rfl
@[simp] theorem sendAddress_cmdOvf (s : State) : (sendAddress s).cmdOvf = s.cmdOvf := rfl
@[simp] theorem sendAddress_ptWin (s : State) : (sendAddress s).ptWin = s.ptWin := rfl
@[simp] theorem sendAddress_rxq (s : State) : (sendAddress s).rxq = s.rxq := rfl
@[simp] theorem sendAddress_rxOvf (s : State) : (sendAddress s).rxOvf = s.rxOvf := rfl
@[simp] theorem sendAddress_nvm (s : State) : (sendAddress s).nvm = s.nvm := rfl
@[simp] theorem sendAddress_acq (s : State) : (sendAddress s).acq = s.acq := rfl
@[simp] theorem sendAddress_trace (s : State) : (sendAddress s).trace = s.trace ++ [.ascii (s.addr :: crlf)] := rfl
@[simp] theorem sendAddress_acqReqs (s : State) : (sendAddress s).acqReqs = s.acqReqs := rfl
@[simp] theorem sendAddress_nvmWrites (s : State) : (sendAddress s).nvmWrites = s.nvmWrites := rfl
@[simp] theorem sendAddress_ptOut (s : State) : (sendAddress s).ptOut = s.ptOut := rfl
@[simp] theorem sendAddress_queries (s : State) : (sendAddress s).queries = s.queries := rfl
@[simp] theorem sendAddress_cfg (s : State) : (sendAddress s).cfg = s.cfg := rfl
@[simp] theorem sendAddress_inputs (s : State) : (sendAddress s).inputs = s.inputs := rfl
@[simp] theorem sendAddress_draws (s : State) : (sendAddress s).draws = s.draws := rfl

/-! ### startAcquisition -/

@[simp] theorem startAcquisition_prevEdge (req : Request) (s : State) : (startAcquisition req s).prevEdge = s.prevEdge := rfl
@[simp] theorem startAcquisition_waitBreak (req : Request) (s : State) : (startAcquisition req s).waitBreak = s.waitBreak := rfl
@[simp] theorem startAcquisition_waitMark (req : Request) (s : State) : (startAcquisition req s).waitMark = s.waitMark := rfl
@[simp] theorem startAcquisition_addr (req : Request) (s : State) : (startAcquisition req s).addr = s.addr := rfl
@[simp] theorem startAcquisition_active (req : Request) (s : State) : (startAcquisition req s).active = s.active := rfl
@[simp] theorem startAcquisition_state (req : Request) (s : State) : (startAcquisition req s).state = s.state := rfl
@[simp] theorem startAcquisition_count (req : Request) (s : State) : (startAcquisition req s).count = s.count := rfl
@[simp] theorem startAcquisition_values (req : Request) (s : State) : (startAcquisition req s).values = s.values := rfl
@[simp] theorem startAcquisition_lines (req : Request) (s : State) : (startAcquisition req s).lines = s.lines := rfl
@[simp] theorem startAcquisition_crcLatched (req : Request) (s : State) : (startAcquisition req s).crcLatched = s.crcLatched := rfl
@[simp] theorem startAcquisition_cmdBuf (req : Request) (s : State) : (startAcquisition req s).cmdBuf = s.cmdBuf := rfl
@[simp] theorem startAcquisition_cmdLen (req : Request) (s : State) : (startAcquisition req s).cmdLen = s.cmdLen := rfl
@[simp] theorem startAcquisition_cmdOvf (req : Request) (s : State) : (startAcquisition req s).cmdOvf = s.cmdOvf := rfl
@[simp] theorem startAcquisition_ptWin (req : Request) (s : State) : (startAcquisition req s).ptWin = s.ptWin := rfl
@[simp] theorem startAcquisition_rxq (req : Request) (s : State) : (startAcquisition req s).rxq = s.rxq := rfl
@[simp] theorem startAcquisition_rxOvf (req : Request) (s : State) : (startAcquisition req s).rxOvf = s.rxOvf := rfl
@[simp] theorem startAcquisition_nvm (req : Request) (s : State) : (startAcquisition req s).nvm = s.nvm := rfl
@[simp] theorem startAcquisition_acq (req : Request) (s : State) : (startAcquisition req s).acq = some req := rfl
@[simp] theorem startAcquisition_trace (req : Request) (s : State) : (startAcquisition req s).trace = s.trace := rfl
@[simp] theorem startAcquisition_acqReqs (req : Request) (s : State) : (startAcquisition req s).acqReqs = s.acqReqs ++ [req] := rfl
@[simp] theorem startAcquisition_nvmWrites (req : Request) (s : State) : (startAcquisition req s).nvmWrites = s.nvmWrites := rfl
@[simp] theorem startAcquisition_ptOut (req : Request) (s : State) : (startAcquisition req s).ptOut = s.ptOut := rfl
@[simp] theorem startAcquisition_queries (req : Request) (s : State) : (startAcquisition req s).queries = s.queries := rfl
@[simp] theorem startAcquisition_cfg (req : Request) (s : State) : (startAcquisition req s).cfg = s.cfg := rfl
@[simp] theorem startAcquisition_inputs (req : Request) (s : State) : (startAcquisition req s).inputs = s.inputs := rfl
@[simp] theorem startAcquisition_draws (req : Request) (s : State) : (startAcquisition req s).draws = s.draws := rfl

/-! ### endAcquisition -/

@[simp] theorem endAcquisition_prevEdge (s : State) : (endAcquisition s).prevEdge = s.prevEdge := rfl
@[simp] theorem endAcquisition_waitBreak (s : State) : (endAcquisition s).waitBreak = s.waitBreak := rfl
@[simp] theorem endAcquisition_waitMark (s : State) : (endAcquisition s).waitMark = s.waitMark := rfl
@[simp] theorem endAcquisition_addr (s : State) : (endAcquisition s).addr = s.addr := rfl
@[simp] theorem endAcquisition_active (s : State) : (endAcquisition s).active = s.active := rfl
@[simp] theorem endAcquisition_state (s : State) : (endAcquisition s).state = s.state := rfl
@[simp] theorem endAcquisition_count (s : State) : (endAcquisition s).count = s.count := rfl
@[simp] theorem endAcquisition_values (s : State) : (endAcquisition s).values = s.values := rfl
@[simp] theorem endAcquisition_lines (s : State) : (endAcquisition s).lines = s.lines := rfl
@[simp] theorem endAcquisition_crcLatched (s : State) : (endAcquisition s).crcLatched = s.crcLatched := rfl
@[simp] theorem endAcquisition_cmdBuf (s : State) : (endAcquisition s).cmdBuf = s.cmdBuf := rfl
@[simp] theorem endAcquisition_cmdLen (s : State) : (endAcquisition s).cmdLen = s.cmdLen := rfl
@[simp] theorem endAcquisition_cmdOvf (s : State) : (endAcquisition s).cmdOvf = s.cmdOvf := rfl
@[simp] theorem endAcquisition_ptWin (s : State) : (endAcquisition s).ptWin = s.ptWin := rfl
@[simp] theorem endAcquisition_rxq (s : State) : (endAcquisition s).rxq = s.rxq := rfl
@[simp] theorem endAcquisition_rxOvf (s : State) : (endAcquisition s).rxOvf = s.rxOvf := rfl
@[simp] theorem endAcquisition_nvm (s : State) : (endAcquisition s).nvm = s.nvm := rfl
@[simp] theorem endAcquisition_acq (s : State) : (endAcquisition s).acq = none := rfl
@[simp] theorem endAcquisition_trace (s : State) : (endAcquisition s).trace = s.trace := rfl
@[simp] theorem endAcquisition_acqReqs (s : State) : (endAcquisition s).acqReqs = s.acqReqs := rfl
@[simp] theorem endAcquisition_nvmWrites (s : State) : (endAcquisition s).nvmWrites = s.nvmWrites := rfl
@[simp] theorem endAcquisition_ptOut (s : State) : (endAcquisition s).ptOut = s.ptOut := rfl
@[simp] theorem endAcquisition_queries (s : State) : (endAcquisition s).queries = s.queries := rfl
@[simp] theorem endAcquisition_cfg (s : State) : (endAcquisition s).cfg = s.cfg := rfl
@[simp] theorem endAcquisition_inputs (s : State) : (endAcquisition s).inputs = s.inputs := rfl
@[simp] theorem endAcquisition_draws (s : State) : (endAcquisition s).draws = s.draws := rfl

/-! ### nvmWrite -/

@[simp] theorem nvmWrite_prevEdge (b : Byte) (s : State) : (nvmWrite b s).prevEdge = s.prevEdge := rfl
@[simp] theorem nvmWrite_waitBreak (b : Byte) (s : State) : (nvmWrite b s).waitBreak = s.waitBreak := rfl
@[simp] theorem nvmWrite_waitMark (b : Byte) (s : State) : (nvmWrite b s).waitMark = s.waitMark := rfl
@[simp] theorem nvmWrite_addr (b : Byte) (s : State) : (nvmWrite b s).addr = s.addr := rfl
@[simp] theorem nvmWrite_active (b : Byte) (s : State) : (nvmWrite b s).active = s.active := rfl
@[simp] theorem nvmWrite_state (b : Byte) (s : State) : (nvmWrite b s).state = s.state := rfl
@[simp] theorem nvmWrite_count (b : Byte) (s : State) : (nvmWrite b s).count = s.count := rfl
@[simp] theorem nvmWrite_values (b : Byte) (s : State) : (nvmWrite b s).values = s.values := rfl
@[simp] theorem nvmWrite_lines (b : Byte) (s : State) : (nvmWrite b s).lines = s.lines := rfl
@[simp] theorem nvmWrite_crcLatched (b : Byte) (s : State) : (nvmWrite b s).crcLatched = s.crcLatched := rfl
@[simp] theorem nvmWrite_cmdBuf (b : Byte) (s : State) : (nvmWrite b s).cmdBuf = s.cmdBuf := rfl
@[simp] theorem nvmWrite_cmdLen (b : Byte) (s : State) : (nvmWrite b s).cmdLen = s.cmdLen := rfl
@[simp] theorem nvmWrite_cmdOvf (b : Byte) (s : State) : (nvmWrite b s).cmdOvf = s.cmdOvf := rfl
@[simp] theorem nvmWrite_ptWin (b : Byte) (s : State) : (nvmWrite b s).ptWin = s.ptWin := rfl
@[simp] theorem nvmWrite_rxq (b : Byte) (s : State) : (nvmWrite b s).rxq = s.rxq := rfl
@[simp] theorem nvmWrite_rxOvf (b : Byte) (s : State) : (nvmWrite b s).rxOvf = s.rxOvf := rfl
@[simp] theorem nvmWrite_nvm (b : Byte) (s : State) : (nvmWrite b s).nvm = b := rfl
@[simp] theorem nvmWrite_acq (b : Byte) (s : State) : (nvmWrite b s).acq = s.acq := rfl
@[simp] theorem nvmWrite_trace (b : Byte) (s : State) : (nvmWrite b s).trace = s.trace := rfl
@[simp] theorem nvmWrite_acqReqs (b : Byte) (s : State) : (nvmWrite b s).acqReqs = s.acqReqs := rfl
@[simp] theorem nvmWrite_nvmWrites (b : Byte) (s : State) : (nvmWrite b s).nvmWrites = s.nvmWrites ++ [b] := rfl
@[simp] theorem nvmWrite_ptOut (b : Byte) (s : State) : (nvmWrite b s).ptOut = s.ptOut := rfl
@[simp] theorem nvmWrite_queries (b : Byte) (s : State) : (nvmWrite b s).queries = s.queries := rfl
@[simp] theorem nvmWrite_cfg (b : Byte) (s : State) : (nvmWrite b s).cfg = s.cfg := rfl
@[simp] theorem nvmWrite_inputs (b : Byte) (s : State) : (nvmWrite b s).inputs = s.inputs := rfl
@[simp] theorem nvmWrite_draws (b : Byte) (s : State) : (nvmWrite b s).draws = s.draws := rfl

/-! ### toSensor -/

@[simp] theorem toSensor_prevEdge (bs : Bytes) (s : State) : (toSensor bs s).prevEdge = s.prevEdge := rfl
@[simp] theorem toSensor_waitBreak (bs : Bytes) (s : State) : (toSensor bs s).waitBreak = s.waitBreak := rfl
@[simp] theorem toSensor_waitMark (bs : Bytes) (s : State) : (toSensor bs s).waitMark = s.waitMark := rfl
@[simp] theorem toSensor_addr (bs : Bytes) (s : State) : (toSensor bs s).addr = s.addr := rfl
@[simp] theorem toSensor_active (bs : Bytes) (s : State) : (toSensor bs s).active = s.active := rfl
@[simp] theorem toSensor_state (bs : Bytes) (s : State) : (toSensor bs s).state = s.state := rfl
@[simp] theorem toSensor_count (bs : Bytes) (s : State) : (toSensor bs s).count = s.count := rfl
@[simp] theorem toSensor_values (bs : Bytes) (s : State) : (toSensor bs s).values = s.values := rfl
@[simp] theorem toSensor_lines (bs : Bytes) (s : State) : (toSensor bs s).lines = s.lines := rfl
@[simp] theorem toSensor_crcLatched (bs : Bytes) (s : State) : (toSensor bs s).crcLatched = s.crcLatched := rfl
@[simp] theorem toSensor_cmdBuf (bs : Bytes) (s : State) : (toSensor bs s).cmdBuf = s.cmdBuf := rfl
@[simp] theorem toSensor_cmdLen (bs : Bytes) (s : State) : (toSensor bs s).cmdLen = s.cmdLen := rfl
@[simp] theorem toSensor_cmdOvf (bs : Bytes) (s : State) : (toSensor bs s).cmdOvf = s.cmdOvf := rfl
@[simp] theorem toSensor_ptWin (bs : Bytes) (s : State) : (toSensor bs s).ptWin = s.ptWin := rfl
@[simp] theorem toSensor_rxq (bs : Bytes) (s : State) : (toSensor bs s).rxq = s.rxq := rfl
@[simp] theorem toSensor_rxOvf (bs : Bytes) (s : State) : (toSensor bs s).rxOvf = s.rxOvf := rfl
@[simp] theorem toSensor_nvm (bs : Bytes) (s : State) : (toSensor bs s).nvm = s.nvm := rfl
@[simp] theorem toSensor_acq (bs : Bytes) (s : State) : (toSensor bs s).acq = s.acq := rfl
@[simp] theorem toSensor_trace (bs : Bytes) (s : State) : (toSensor bs s).trace = s.trace := rfl
@[simp] theorem toSensor_acqReqs (bs : Bytes) (s : State) : (toSensor bs s).acqReqs = s.acqReqs := rfl
@[simp] theorem toSensor_nvmWrites (bs : Bytes) (s : State) : (toSensor bs s).nvmWrites = s.nvmWrites := rfl
@[simp] theorem toSensor_ptOut (bs : Bytes) (s : State) : (toSensor bs s).ptOut = s.ptOut ++ bs := rfl
@[simp] theorem toSensor_queries (bs : Bytes) (s : State) : (toSensor bs s).queries = s.queries := rfl
@[simp] theorem toSensor_cfg (bs : Bytes) (s : State) : (toSensor bs s).cfg = s.cfg := rfl
@[simp] theorem toSensor_inputs (bs : Bytes) (s : State) : (toSensor bs s).inputs = s.inputs := rfl
@[simp] theorem toSensor_draws (bs : Bytes) (s : State) : (toSensor bs s).draws = s.draws := rfl

/-! ### returnQuery -/

@[simp] theorem returnQuery_prevEdge (q : QueryResult) (s : State) : (returnQuery q s).prevEdge = s.prevEdge := rfl
@[simp] theorem returnQuery_waitBreak (q : QueryResult) (s : State) : (returnQuery q s).waitBreak = s.waitBreak := rfl
@[simp] theorem returnQuery_waitMark (q : QueryResult) (s : State) : (returnQuery q s).waitMark = s.waitMark := rfl
@[simp] theorem returnQuery_addr (q : QueryResult) (s : State) : (returnQuery q s).addr = s.addr := rfl
@[simp] theorem returnQuery_active (q : QueryResult) (s : State) : (returnQuery q s).active = s.active := rfl
@[simp] theorem returnQuery_state (q : QueryResult) (s : State) : (returnQuery q s).state = s.state := rfl
@[simp] theorem returnQuery_count (q : QueryResult) (s : State) : (returnQuery q s).count = s.count := rfl
@[simp] theorem returnQuery_values (q : QueryResult) (s : State) : (returnQuery q s).values = s.values := rfl
@[simp] theorem returnQuery_lines (q : QueryResult) (s : State) : (returnQuery q s).lines = s.lines := rfl
@[simp] theorem returnQuery_crcLatched (q : QueryResult) (s : State) : (returnQuery q s).crcLatched = s.crcLatched := rfl
@[simp] theorem returnQuery_cmdBuf (q : QueryResult) (s : State) : (returnQuery q s).cmdBuf = s.cmdBuf := rfl
@[simp] theorem returnQuery_cmdLen (q : QueryResult) (s : State) : (returnQuery q s).cmdLen = s.cmdLen := rfl
@[simp] theorem returnQuery_cmdOvf (q : QueryResult) (s : State) : (returnQuery q s).cmdOvf = s.cmdOvf := rfl
@[simp] theorem returnQuery_ptWin (q : QueryResult) (s : State) : (returnQuery q s).ptWin = s.ptWin := rfl
@[simp] theorem returnQuery_rxq (q : QueryResult) (s : State) : (returnQuery q s).rxq = s.rxq := rfl
@[simp] theorem returnQuery_rxOvf (q : QueryResult) (s : State) : (returnQuery q s).rxOvf = s.rxOvf := rfl
@[simp] theorem returnQuery_nvm (q : QueryResult) (s : State) : (returnQuery q s).nvm = s.nvm := rfl
@[simp] theorem returnQuery_acq (q : QueryResult) (s : State) : (returnQuery q s).acq = s.acq := rfl
@[simp] theorem returnQuery_trace (q : QueryResult) (s : State) : (returnQuery q s).trace = s.trace := rfl
@[simp] theorem returnQuery_acqReqs (q : QueryResult) (s : State) : (returnQuery q s).acqReqs = s.acqReqs := rfl
@[simp] theorem returnQuery_nvmWrites (q : QueryResult) (s : State) : (returnQuery q s).nvmWrites = s.nvmWrites := rfl
@[simp] theorem returnQuery_ptOut (q : QueryResult) (s : State) : (returnQuery q s).ptOut = s.ptOut := rfl
@[simp] theorem returnQuery_queries (q : QueryResult) (s : State) : (returnQuery q s).queries = s.queries ++ [q] := rfl
@[simp] theorem returnQuery_cfg (q : QueryResult) (s : State) : (returnQuery q s).cfg = s.cfg := rfl
@[simp] theorem returnQuery_inputs (q : QueryResult) (s : State) : (returnQuery q s).inputs = s.inputs := rfl
@[simp] theorem returnQuery_draws (q : QueryResult) (s : State) : (returnQuery q s).draws = s.draws := rfl

/-! ### clearResults -/

@[simp] theorem clearResults_prevEdge (s : State) : (clearResults s).prevEdge = s.prevEdge := rfl
@[simp] theorem clearResults_waitBreak (s : State) : (clearResults s).waitBreak = s.waitBreak := rfl
@[simp] theorem clearResults_waitMark (s : State) : (clearResults s).waitMark = s.waitMark := rfl
@[simp] theorem clearResults_addr (s : State) : (clearResults s).addr = s.addr := rfl
@[simp] theorem clearResults_active (s : State) : (clearResults s).active = s.active := rfl
@[simp] theorem clearResults_state (s : State) : (clearResults s).state = s.state := rfl
@[simp] theorem clearResults_count (s : State) : (clearResults s).count = 0 := rfl
@[simp] theorem clearResults_values (s : State) : (clearResults s).values = List.replicate Config.valueMax 0 := rfl
@[simp] theorem clearResults_lines (s : State) : (clearResults s).lines = List.replicate Config.lineSlots [] := rfl
@[simp] theorem clearResults_crcLatched (s : State) : (clearResults s).crcLatched = s.crcLatched := rfl
@[simp] theorem clearResults_cmdBuf (s : State) : (clearResults s).cmdBuf = s.cmdBuf := rfl
@[simp] theorem clearResults_cmdLen (s : State) : (clearResults s).cmdLen = s.cmdLen := rfl
@[simp] theorem clearResults_cmdOvf (s : State) : (clearResults s).cmdOvf = s.cmdOvf := rfl
@[simp] theorem clearResults_ptWin (s : State) : (clearResults s).ptWin = s.ptWin := rfl
@[simp] theorem clearResults_rxq (s : State) : (clearResults s).rxq = s.rxq := rfl
@[simp] theorem clearResults_rxOvf (s : State) : (clearResults s).rxOvf = s.rxOvf := rfl
@[simp] theorem clearResults_nvm (s : State) : (clearResults s).nvm = s.nvm := rfl
@[simp] theorem clearResults_acq (s : State) : (clearResults s).acq = s.acq := rfl
@[simp] theorem clearResults_trace (s : State) : (clearResults s).trace = s.trace := rfl
@[simp] theorem clearResults_acqReqs (s : State) : (clearResults s).acqReqs = s.acqReqs := rfl
@[simp] theorem clearResults_nvmWrites (s : State) : (clearResults s).nvmWrites = s.nvmWrites := rfl
@[simp] theorem clearResults_ptOut (s : State) : (clearResults s).ptOut = s.ptOut := rfl
@[simp] theorem clearResults_queries (s : State) : (clearResults s).queries = s.queries := rfl
@[simp] theorem clearResults_cfg (s : State) : (clearResults s).cfg = s.cfg := rfl
@[simp] theorem clearResults_inputs (s : State) : (clearResults s).inputs = s.inputs := rfl
@[simp] theorem clearResults_draws (s : State) : (clearResults s).draws = s.draws := rfl

/-! ### cancel -/

@[simp] theorem cancel_prevEdge (s : State) : (cancel s).prevEdge = s.prevEdge := rfl
@[simp] theorem cancel_waitBreak (s : State) : (cancel s).waitBreak = s.waitBreak := rfl
@[simp] theorem cancel_waitMark (s : State) : (cancel s).waitMark = s.waitMark := rfl
@[simp] theorem cancel_addr (s : State) : (cancel s).addr = s.addr := rfl
@[simp] theorem cancel_active (s : State) : (cancel s).active = false := rfl
@[simp] theorem cancel_state (s : State) : (cancel s).state = .lowPower := rfl
@[simp] theorem cancel_count (s : State) : (cancel s).count = 0 := rfl
@[simp] theorem cancel_values (s : State) : (cancel s).values = List.replicate Config.valueMax 0 := rfl
@[simp] theorem cancel_lines (s : State) : (cancel s).lines = List.replicate Config.lineSlots [] := rfl
@[simp] theorem cancel_crcLatched (s : State) : (cancel s).crcLatched = s.crcLatched := rfl
@[simp] theorem cancel_cmdBuf (s : State) : (cancel s).cmdBuf = s.cmdBuf := rfl
@[simp] theorem cancel_cmdLen (s : State) : (cancel s).cmdLen = s.cmdLen := rfl
@[simp] theorem cancel_cmdOvf (s : State) : (cancel s).cmdOvf = s.cmdOvf := rfl
@[simp] theorem cancel_ptWin (s : State) : (cancel s).ptWin = s.ptWin := rfl
@[simp] theorem cancel_rxq (s : State) : (cancel s).rxq = s.rxq := rfl
@[simp] theorem cancel_rxOvf (s : State) : (cancel s).rxOvf = s.rxOvf := rfl
@[simp] theorem cancel_nvm (s : State) : (cancel s).nvm = s.nvm := rfl
@[simp] theorem cancel_acq (s : State) : (cancel s).acq = s.acq := rfl
@[simp] theorem cancel_trace (s : State) : (cancel s).trace = s.trace := rfl
@[simp] theorem cancel_acqReqs (s : State) : (cancel s).acqReqs = s.acqReqs := rfl
@[simp] theorem cancel_nvmWrites (s : State) : (cancel s).nvmWrites = s.nvmWrites := rfl
@[simp] theorem cancel_ptOut (s : State) : (cancel s).ptOut = s.ptOut := rfl
@[simp] theorem cancel_queries (s : State) : (cancel s).queries = s.queries := rfl
@[simp] theorem cancel_cfg (s : State) : (cancel s).cfg = s.cfg := rfl
@[simp] theorem cancel_inputs (s : State) : (cancel s).inputs = s.inputs := rfl
@[simp] theorem cancel_draws (s : State) : (cancel s).draws = s.draws := rfl

/-! ### clearCommand -/

@[simp] theorem clearCommand_prevEdge (s : State) : (clearCommand s).prevEdge = s.prevEdge := rfl
@[simp] theorem clearCommand_waitBreak (s : State) : (clearCommand s).waitBreak = s.waitBreak := rfl
@[simp] theorem clearCommand_waitMark (s : State) : (clearCommand s).waitMark = s.waitMark := rfl
@[simp] theorem clearCommand_addr (s : State) : (clearCommand s).addr = s.addr := rfl
@[simp] theorem clearCommand_active (s : State) : (clearCommand s).active = s.active := rfl
@[simp] theorem clearCommand_state (s : State) : (clearCommand s).state = s.state := rfl
@[simp] theorem clearCommand_count (s : State) : (clearCommand s).count = s.count := rfl
@[simp] theorem clearCommand_values (s : State) : (clearCommand s).values = s.values := rfl
@[simp] theorem clearCommand_lines (s : State) : (clearCommand s).lines = s.lines := rfl
@[simp] theorem clearCommand_crcLatched (s : State) : (clearCommand s).crcLatched = s.crcLatched := rfl
@[simp] theorem clearCommand_cmdBuf (s : State) : (clearCommand s).cmdBuf = s.cmdBuf := rfl
@[simp] theorem clearCommand_cmdLen (s : State) : (clearCommand s).cmdLen = 0 := rfl
@[simp] theorem clearCommand_cmdOvf (s : State) : (clearCommand s).cmdOvf = false := rfl
@[simp] theorem clearCommand_ptWin (s : State) : (clearCommand s).ptWin = s.ptWin := rfl
@[simp] theorem clearCommand_rxq (s : State) : (clearCommand s).rxq = s.rxq := rfl
@[simp] theorem clearCommand_rxOvf (s : State) : (clearCommand s).rxOvf = s.rxOvf := rfl
@[simp] theorem clearCommand_nvm (s : State) : (clearCommand s).nvm = s.nvm := rfl
@[simp] theorem clearCommand_acq (s : State) : (clearCommand s).acq = s.acq := rfl
@[simp] theorem clearCommand_trace (s : State) : (clearCommand s).trace = s.trace := rfl
@[simp] theorem clearCommand_acqReqs (s : State) : (clearCommand s).acqReqs = s.acqReqs := rfl
@[simp] theorem clearCommand_nvmWrites (s : State) : (clearCommand s).nvmWrites = s.nvmWrites := rfl
@[simp] theorem clearCommand_ptOut (s : State) : (clearCommand s).ptOut = s.ptOut := rfl
@[simp] theorem clearCommand_queries (s : State) : (clearCommand s).queries = s.queries := rfl
@[simp] theorem clearCommand_cfg (s : State) : (clearCommand s).cfg = s.cfg := rfl
@[simp] theorem clearCommand_inputs (s : State) : (clearCommand s).inputs = s.inputs := rfl
@[simp] theorem clearCommand_draws (s : State) : (clearCommand s).draws = s.draws := rfl

/-! ### endCommand -/

@[simp] theorem endCommand_prevEdge (s : State) : (endCommand s).prevEdge = s.prevEdge := rfl
@[simp] theorem endCommand_waitBreak (s : State) : (endCommand s).waitBreak = true := rfl
@[simp] theorem endCommand_waitMark (s : State) : (endCommand s).waitMark = true := rfl
@[simp] theorem endCommand_addr (s : State) : (endCommand s).addr = s.addr := rfl
@[simp] theorem endCommand_active (s : State) : (endCommand s).active = s.active := rfl
@[simp] theorem endCommand_state (s : State) : (endCommand s).state = s.state := rfl
@[simp] theorem endCommand_count (s : State) : (endCommand s).count = s.count := rfl
@[simp] theorem endCommand_values (s : State) : (endCommand s).values = s.values := rfl
@[simp] theorem endCommand_lines (s : State) : (endCommand s).lines = s.lines := rfl
@[simp] theorem endCommand_crcLatched (s : State) : (endCommand s).crcLatched = s.crcLatched := rfl
@[simp] theorem endCommand_cmdBuf (s : State) : (endCommand s).cmdBuf = s.cmdBuf := rfl
@[simp] theorem endCommand_cmdLen (s : State) : (endCommand s).cmdLen = 0 := rfl
@[simp] theorem endCommand_cmdOvf (s : State) : (endCommand s).cmdOvf = false := rfl
@[simp] theorem endCommand_ptWin (s : State) : (endCommand s).ptWin = s.ptWin := rfl
@[simp] theorem endCommand_rxq (s : State) : (endCommand s).rxq = s.rxq := rfl
@[simp] theorem endCommand_rxOvf (s : State) : (endCommand s).rxOvf = s.rxOvf := rfl
@[simp] theorem endCommand_nvm (s : State) : (endCommand s).nvm = s.nvm := rfl
@[simp] theorem endCommand_acq (s : State) : (endCommand s).acq = s.acq := rfl
@[simp] theorem endCommand_trace (s : State) : (endCommand s).trace = s.trace := rfl
@[simp] theorem endCommand_acqReqs (s : State) : (endCommand s).acqReqs = s.acqReqs := rfl
@[simp] theorem endCommand_nvmWrites (s : State) : (endCommand s).nvmWrites = s.nvmWrites := rfl
@[simp] theorem endCommand_ptOut (s : State) : (endCommand s).ptOut = s.ptOut := rfl
@[simp] theorem endCommand_queries (s : State) : (endCommand s).queries = s.queries := rfl
@[simp] theorem endCommand_cfg (s : State) : (endCommand s).cfg = s.cfg := rfl
@[simp] theorem endCommand_inputs (s : State) : (endCommand s).inputs = s.inputs := rfl
@[simp] theorem endCommand_draws (s : State) : (endCommand s).draws = s.draws := rfl

/-! ### setQueue -/

@[simp] theorem setQueue_prevEdge (q : Bytes) (s : State) : (setQueue q s).prevEdge = s.prevEdge := rfl
@[simp] theorem setQueue_waitBreak (q : Bytes) (s : State) : (setQueue q s).waitBreak = s.waitBreak := rfl
@[simp] theorem setQueue_waitMark (q : Bytes) (s : State) : (setQueue q s).waitMark = s.waitMark := rfl
@[simp] theorem setQueue_addr (q : Bytes) (s : State) : (setQueue q s).addr = s.addr := rfl
@[simp] theorem setQueue_active (q : Bytes) (s : State) : (setQueue q s).active = s.active := rfl
@[simp] theorem setQueue_state (q : Bytes) (s : State) : (setQueue q s).state = s.state := rfl
@[simp] theorem setQueue_count (q : Bytes) (s : State) : (setQueue q s).count = s.count := rfl
@[simp] theorem setQueue_values (q : Bytes) (s : State) : (setQueue q s).values = s.values := rfl
@[simp] theorem setQueue_lines (q : Bytes) (s : State) : (setQueue q s).lines = s.lines := rfl
@[simp] theorem setQueue_crcLatched (q : Bytes) (s : State) : (setQueue q s).crcLatched = s.crcLatched := rfl
@[simp] theorem setQueue_cmdBuf (q : Bytes) (s : State) : (setQueue q s).cmdBuf = s.cmdBuf := rfl
@[simp] theorem setQueue_cmdLen (q : Bytes) (s : State) : (setQueue q s).cmdLen = s.cmdLen := rfl
@[simp] theorem setQueue_cmdOvf (q : Bytes) (s : State) : (setQueue q s).cmdOvf = s.cmdOvf := rfl
@[simp] theorem setQueue_ptWin (q : Bytes) (s : State) : (setQueue q s).ptWin = s.ptWin := rfl
@[simp] theorem setQueue_rxq (q : Bytes) (s : State) : (setQueue q s).rxq = q := rfl
@[simp] theorem setQueue_rxOvf (q : Bytes) (s : State) : (setQueue q s).rxOvf = s.rxOvf := rfl
@[simp] theorem setQueue_nvm (q : Bytes) (s : State) : (setQueue q s).nvm = s.nvm := rfl
@[simp] theorem setQueue_acq (q : Bytes) (s : State) : (setQueue q s).acq = s.acq := rfl
@[simp] theorem setQueue_trace (q : Bytes) (s : State) : (setQueue q s).trace = s.trace := rfl
@[simp] theorem setQueue_acqReqs (q : Bytes) (s : State) : (setQueue q s).acqReqs = s.acqReqs := rfl
@[simp] theorem setQueue_nvmWrites (q : Bytes) (s : State) : (setQueue q s).nvmWrites = s.nvmWrites := rfl
@[simp] theorem setQueue_ptOut (q : Bytes) (s : State) : (setQueue q s).ptOut = s.ptOut := rfl
@[simp] theorem setQueue_queries (q : Bytes) (s : State) : (setQueue q s).queries = s.queries := rfl
@[simp] theorem setQueue_cfg (q : Bytes) (s : State) : (setQueue q s).cfg = s.cfg := rfl
@[simp] theorem setQueue_inputs (q : Bytes) (s : State) : (setQueue q s).inputs = s.inputs := rfl
@[simp] theorem setQueue_draws (q : Bytes) (s : State) : (setQueue q s).draws = s.draws := rfl

/-! ### clearBuffer -/

@[simp] theorem clearBuffer_prevEdge (s : State) : (clearBuffer s).prevEdge = s.prevEdge := rfl
@[simp] theorem clearBuffer_waitBreak (s : State) : (clearBuffer s).waitBreak = s.waitBreak := rfl
@[simp] theorem clearBuffer_waitMark (s : State) : (clearBuffer s).waitMark = s.waitMark := rfl
@[simp] theorem clearBuffer_addr (s : State) : (clearBuffer s).addr = s.addr := rfl
@[simp] theorem clearBuffer_active (s : State) : (clearBuffer s).active = s.active := rfl
@[simp] theorem clearBuffer_state (s : State) : (clearBuffer s).state = s.state := rfl
@[simp] theorem clearBuffer_count (s : State) : (clearBuffer s).count = s.count := rfl
@[simp] theorem clearBuffer_values (s : State) : (clearBuffer s).values = s.values := rfl
@[simp] theorem clearBuffer_lines (s : State) : (clearBuffer s).lines = s.lines := rfl
@[simp] theorem clearBuffer_crcLatched (s : State) : (clearBuffer s).crcLatched = s.crcLatched := rfl
@[simp] theorem clearBuffer_cmdBuf (s : State) : (clearBuffer s).cmdBuf = s.cmdBuf := rfl
@[simp] theorem clearBuffer_cmdLen (s : State) : (clearBuffer s).cmdLen = s.cmdLen := rfl
@[simp] theorem clearBuffer_cmdOvf (s : State) : (clearBuffer s).cmdOvf = s.cmdOvf := rfl
@[simp] theorem clearBuffer_ptWin (s : State) : (clearBuffer s).ptWin = s.ptWin := rfl
@[simp] theorem clearBuffer_rxq (s : State) : (clearBuffer s).rxq = [] := rfl
@[simp] theorem clearBuffer_rxOvf (s : State) : (clearBuffer s).rxOvf = false := rfl
@[simp] theorem clearBuffer_nvm (s : State) : (clearBuffer s).nvm = s.nvm := rfl
@[simp] theorem clearBuffer_acq (s : State) : (clearBuffer s).acq = s.acq := rfl
@[simp] theorem clearBuffer_trace (s : State) : (clearBuffer s).trace = s.trace := rfl
@[simp] theorem clearBuffer_acqReqs (s : State) : (clearBuffer s).acqReqs = s.acqReqs := rfl
@[simp] theorem clearBuffer_nvmWrites (s : State) : (clearBuffer s).nvmWrites = s.nvmWrites := rfl
@[simp] theorem clearBuffer_ptOut (s : State) : (clearBuffer s).ptOut = s.ptOut := rfl
@[simp] theorem clearBuffer_queries (s : State) : (clearBuffer s).queries = s.queries := rfl
@[simp] theorem clearBuffer_cfg (s : State) : (clearBuffer s).cfg = s.cfg := rfl
@[simp] theorem clearBuffer_inputs (s : State) : (clearBuffer s).inputs = s.inputs := rfl
@[simp] theorem clearBuffer_draws (s : State) : (clearBuffer s).draws = s.draws := rfl

/-! ### overflowRecover -/

@[simp] theorem overflowRecover_prevEdge (s : State) : (overflowRecover s).prevEdge = s.prevEdge := rfl
@[simp] theorem overflowRecover_waitBreak (s : State) : (overflowRecover s).waitBreak = s.waitBreak := rfl
@[simp] theorem overflowRecover_waitMark (s : State) : (overflowRecover s).waitMark = s.waitMark := rfl
@[simp] theorem overflowRecover_addr (s : State) : (overflowRecover s).addr = s.addr := rfl
@[simp] theorem overflowRecover_active (s : State) : (overflowRecover s).active = s.active := rfl
@[simp] theorem overflowRecover_state (s : State) : (overflowRecover s).state = s.state := rfl
@[simp] theorem overflowRecover_count (s : State) : (overflowRecover s).count = s.count := rfl
@[simp] theorem overflowRecover_values (s : State) : (overflowRecover s).values = s.values := rfl
@[simp] theorem overflowRecover_lines (s : State) : (overflowRecover s).lines = s.lines := rfl
@[simp] theorem overflowRecover_crcLatched (s : State) : (overflowRecover s).crcLatched = s.crcLatched := rfl
@[simp] theorem overflowRecover_cmdBuf (s : State) : (overflowRecover s).cmdBuf = s.cmdBuf := rfl
@[simp] theorem overflowRecover_cmdLen (s : State) : (overflowRecover s).cmdLen = 0 := rfl
@[simp] theorem overflowRecover_cmdOvf (s : State) : (overflowRecover s).cmdOvf = false := rfl
@[simp] theorem overflowRecover_ptWin (s : State) : (overflowRecover s).ptWin = s.ptWin := rfl
@[simp] theorem overflowRecover_rxq (s : State) : (overflowRecover s).rxq = [] := rfl
@[simp] theorem overflowRecover_rxOvf (s : State) : (overflowRecover s).rxOvf = false := rfl
@[simp] theorem overflowRecover_nvm (s : State) : (overflowRecover s).nvm = s.nvm := rfl
@[simp] theorem overflowRecover_acq (s : State) : (overflowRecover s).acq = s.acq := rfl
@[simp] theorem overflowRecover_trace (s : State) : (overflowRecover s).trace = s.trace := rfl
@[simp] theorem overflowRecover_acqReqs (s : State) : (overflowRecover s).acqReqs = s.acqReqs := rfl
@[simp] theorem overflowRecover_nvmWrites (s : State) : (overflowRecover s).nvmWrites = s.nvmWrites := rfl
@[simp] theorem overflowRecover_ptOut (s : State) : (overflowRecover s).ptOut = s.ptOut := rfl
@[simp] theorem overflowRecover_queries (s : State) : (overflowRecover s).queries = s.queries := rfl
@[simp] theorem overflowRecover_cfg (s : State) : (overflowRecover s).cfg = s.cfg := rfl
@[simp] theorem overflowRecover_inputs (s : State) : (overflowRecover s).inputs = s.inputs := rfl
@[simp] theorem overflowRecover_draws (s : State) : (overflowRecover s).draws = s.draws := rfl

/-! ### shiftWindow -/

@[simp] theorem shiftWindow_prevEdge (b : Byte) (s : State) : (shiftWindow b s).prevEdge = s.prevEdge := rfl
@[simp] theorem shiftWindow_waitBreak (b : Byte) (s : State) : (shiftWindow b s).waitBreak = s.waitBreak := rfl
@[simp] theorem shiftWindow_waitMark (b : Byte) (s : State) : (shiftWindow b s).waitMark = s.waitMark := rfl
@[simp] theorem shiftWindow_addr (b : Byte) (s : State) : (shiftWindow b s).addr = s.addr := rfl
@[simp] theorem shiftWindow_active (b : Byte) (s : State) : (shiftWindow b s).active = s.active := rfl
@[simp] theorem shiftWindow_state (b : Byte) (s : State) : (shiftWindow b s).state = s.state := rfl
@[simp] theorem shiftWindow_count (b : Byte) (s : State) : (shiftWindow b s).count = s.count := rfl
@[simp] theorem shiftWindow_values (b : Byte) (s : State) : (shiftWindow b s).values = s.values := rfl
@[simp] theorem shiftWindow_lines (b : Byte) (s : State) : (shiftWindow b s).lines = s.lines := rfl
@[simp] theorem shiftWindow_crcLatched (b : Byte) (s : State) : (shiftWindow b s).crcLatched = s.crcLatched := rfl
@[simp] theorem shiftWindow_cmdBuf (b : Byte) (s : State) : (shiftWindow b s).cmdBuf = s.cmdBuf := rfl
@[simp] theorem shiftWindow_cmdLen (b : Byte) (s : State) : (shiftWindow b s).cmdLen = s.cmdLen := rfl
@[simp] theorem shiftWindow_cmdOvf (b : Byte) (s : State) : (shiftWindow b s).cmdOvf = s.cmdOvf := rfl
@[simp] theorem shiftWindow_ptWin (b : Byte) (s : State) : (shiftWindow b s).ptWin = s.ptWin.drop 1 ++ [b] := rfl
@[simp] theorem shiftWindow_rxq (b : Byte) (s : State) : (shiftWindow b s).rxq = s.rxq := rfl
@[simp] theorem shiftWindow_rxOvf (b : Byte) (s : State) : (shiftWindow b s).rxOvf = s.rxOvf := rfl
@[simp] theorem shiftWindow_nvm (b : Byte) (s : State) : (shiftWindow b s).nvm = s.nvm := rfl
@[simp] theorem shiftWindow_acq (b : Byte) (s : State) : (shiftWindow b s).acq = s.acq := rfl
@[simp] theorem shiftWindow_trace (b : Byte) (s : State) : (shiftWindow b s).trace = s.trace := rfl
@[simp] theorem shiftWindow_acqReqs (b : Byte) (s : State) : (shiftWindow b s).acqReqs = s.acqReqs := rfl
@[simp] theorem shiftWindow_nvmWrites (b : Byte) (s : State) : (shiftWindow b s).nvmWrites = s.nvmWrites := rfl
@[simp] theorem shiftWindow_ptOut (b : Byte) (s : State) : (shiftWindow b s).ptOut = s.ptOut := rfl
@[simp] theorem shiftWindow_queries (b : Byte) (s : State) : (shiftWindow b s).queries = s.queries := rfl
@[simp] theorem shiftWindow_cfg (b : Byte) (s : State) : (shiftWindow b s).cfg = s.cfg := rfl
@[simp] theorem shiftWindow_inputs (b : Byte) (s : State) : (shiftWindow b s).inputs = s.inputs := rfl
@[simp] theorem shiftWindow_draws (b : Byte) (s : State) : (shiftWindow b s).draws = s.draws := rfl

/-! ### doPassEnter -/

@[simp] theorem doPassEnter_prevEdge (s : State) : (doPassEnter s).prevEdge = s.prevEdge := rfl
@[simp] theorem doPassEnter_waitBreak (s : State) : (doPassEnter s).waitBreak = s.waitBreak := rfl
@[simp] theorem doPassEnter_waitMark (s : State) : (doPassEnter s).waitMark = s.waitMark := rfl
@[simp] theorem doPassEnter_addr (s : State) : (doPassEnter s).addr = s.addr := rfl
@[simp] theorem doPassEnter_active (s : State) : (doPassEnter s).active = s.active := rfl
@[simp] theorem doPassEnter_state (s : State) : (doPassEnter s).state = .serialPassthrough := rfl
@[simp] theorem doPassEnter_count (s : State) : (doPassEnter s).count = s.count := rfl
@[simp] theorem doPassEnter_values (s : State) : (doPassEnter s).values = s.values := rfl
@[simp] theorem doPassEnter_lines (s : State) : (doPassEnter s).lines = s.lines := rfl
@[simp] theorem doPassEnter_crcLatched (s : State) : (doPassEnter s).crcLatched = s.crcLatched := rfl
@[simp] theorem doPassEnter_cmdBuf (s : State) : (doPassEnter s).cmdBuf = s.cmdBuf := rfl
@[simp] theorem doPassEnter_cmdLen (s : State) : (doPassEnter s).cmdLen = s.cmdLen := rfl
@[simp] theorem doPassEnter_cmdOvf (s : State) : (doPassEnter s).cmdOvf = s.cmdOvf := rfl
@[simp] theorem doPassEnter_ptWin (s : State) : (doPassEnter s).ptWin = List.replicate 5 0x00#8 := rfl
@[simp] theorem doPassEnter_rxq (s : State) : (doPassEnter s).rxq = s.rxq := rfl
@[simp] theorem doPassEnter_rxOvf (s : State) : (doPassEnter s).rxOvf = s.rxOvf := rfl
@[simp] theorem doPassEnter_nvm (s : State) : (doPassEnter s).nvm = s.nvm := rfl
@[simp] theorem doPassEnter_acq (s : State) : (doPassEnter s).acq = s.acq := rfl
@[simp] theorem doPassEnter_trace (s : State) : (doPassEnter s).trace = s.trace := rfl
@[simp] theorem doPassEnter_acqReqs (s : State) : (doPassEnter s).acqReqs = s.acqReqs := rfl
@[simp] theorem doPassEnter_nvmWrites (s : State) : (doPassEnter s).nvmWrites = s.nvmWrites := rfl
@[simp] theorem doPassEnter_ptOut (s : State) : (doPassEnter s).ptOut = s.ptOut := rfl
@[simp] theorem doPassEnter_queries (s : State) : (doPassEnter s).queries = s.queries := rfl
@[simp] theorem doPassEnter_cfg (s : State) : (doPassEnter s).cfg = s.cfg := rfl
@[simp] theorem doPassEnter_inputs (s : State) : (doPassEnter s).inputs = s.inputs := rfl
@[simp] theorem doPassEnter_draws (s : State) : (doPassEnter s).draws = s.draws := rfl

/-! ### storeValues -/

@[simp] theorem storeValues_prevEdge (vals : List Int) (s : State) : (storeValues vals s).prevEdge = s.prevEdge := rfl
@[simp] theorem storeValues_waitBreak (vals : List Int) (s : State) : (storeValues vals s).waitBreak = s.waitBreak := rfl
@[simp] theorem storeValues_waitMark (vals : List Int) (s : State) : (storeValues vals s).waitMark = s.waitMark := rfl
@[simp] theorem storeValues_addr (vals : List Int) (s : State) : (storeValues vals s).addr = s.addr := rfl
@[simp] theorem storeValues_active (vals : List Int) (s : State) : (storeValues vals s).active = s.active := rfl
@[simp] theorem storeValues_state (vals : List Int) (s : State) : (storeValues vals s).state = s.state := rfl
@[simp] theorem storeValues_count (vals : List Int) (s : State) : (storeValues vals s).count = s.count := rfl
@[simp] theorem storeValues_values (vals : List Int) (s : State) : (storeValues vals s).values = vals.take s.count ++ s.values.drop s.count := rfl
@[simp] theorem storeValues_lines (vals : List Int) (s : State) : (storeValues vals s).lines = s.lines := rfl
@[simp] theorem storeValues_crcLatched (vals : List Int) (s : State) : (storeValues vals s).crcLatched = s.crcLatched := rfl
@[simp] theorem storeValues_cmdBuf (vals : List Int) (s : State) : (storeValues vals s).cmdBuf = s.cmdBuf := rfl
@[simp] theorem storeValues_cmdLen (vals : List Int) (s : State) : (storeValues vals s).cmdLen = s.cmdLen := rfl
@[simp] theorem storeValues_cmdOvf (vals : List Int) (s : State) : (storeValues vals s).cmdOvf = s.cmdOvf := rfl
@[simp] theorem storeValues_ptWin (vals : List Int) (s : State) : (storeValues vals s).ptWin = s.ptWin := rfl
@[simp] theorem storeValues_rxq (vals : List Int) (s : State) : (storeValues vals s).rxq = s.rxq := rfl
@[simp] theorem storeValues_rxOvf (vals : List Int) (s : State) : (storeValues vals s).rxOvf = s.rxOvf := rfl
@[simp] theorem storeValues_nvm (vals : List Int) (s : State) : (storeValues vals s).nvm = s.nvm := rfl
@[simp] theorem storeValues_acq (vals : List Int) (s : State) : (storeValues vals s).acq = s.acq := rfl
@[simp] theorem storeValues_trace (vals : List Int) (s : State) : (storeValues vals s).trace = s.trace := rfl
@[simp] theorem storeValues_acqReqs (vals : List Int) (s : State) : (storeValues vals s).acqReqs = s.acqReqs := rfl
@[simp] theorem storeValues_nvmWrites (vals : List Int) (s : State) : (storeValues vals s).nvmWrites = s.nvmWrites := rfl
@[simp] theorem storeValues_ptOut (vals : List Int) (s : State) : (storeValues vals s).ptOut = s.ptOut := rfl
@[simp] theorem storeValues_queries (vals : List Int) (s : State) : (storeValues vals s).queries = s.queries := rfl
@[simp] theorem storeValues_cfg (vals : List Int) (s : State) : (storeValues vals s).cfg = s.cfg := rfl
@[simp] theorem storeValues_inputs (vals : List Int) (s : State) : (storeValues vals s).inputs = s.inputs := rfl
@[simp] theorem storeValues_draws (vals : List Int) (s : State) : (storeValues vals s).draws = s.draws := rfl

/-! ### rxLost -/

@[simp] theorem rxLost_prevEdge (s : State) : (rxLost s).prevEdge = s.prevEdge := rfl
@[simp] theorem rxLost_waitBreak (s : State) : (rxLost s).waitBreak = s.waitBreak := rfl
@[simp] theorem rxLost_waitMark (s : State) : (rxLost s).waitMark = s.waitMark := rfl
@[simp] theorem rxLost_addr (s : State) : (rxLost s).addr = s.addr := rfl
@[simp] theorem rxLost_active (s : State) : (rxLost s).active = s.active := rfl
@[simp] theorem rxLost_state (s : State) : (rxLost s).state = s.state := rfl
@[simp] theorem rxLost_count (s : State) : (rxLost s).count = s.count := rfl
@[simp] theorem rxLost_values (s : State) : (rxLost s).values = s.values := rfl
@[simp] theorem rxLost_lines (s : State) : (rxLost s).lines = s.lines := rfl
@[simp] theorem rxLost_crcLatched (s : State) : (rxLost s).crcLatched = s.crcLatched := rfl
@[simp] theorem rxLost_cmdBuf (s : State) : (rxLost s).cmdBuf = s.cmdBuf := rfl
@[simp] theorem rxLost_cmdLen (s : State) : (rxLost s).cmdLen = s.cmdLen := rfl
@[simp] theorem rxLost_cmdOvf (s : State) : (rxLost s).cmdOvf = s.cmdOvf := rfl
@[simp] theorem rxLost_ptWin (s : State) : (rxLost s).ptWin = s.ptWin := rfl
@[simp] theorem rxLost_rxq (s : State) : (rxLost s).rxq = s.rxq := rfl
@[simp] theorem rxLost_rxOvf (s : State) : (rxLost s).rxOvf = true := rfl
@[simp] theorem rxLost_nvm (s : State) : (rxLost s).nvm = s.nvm := rfl
@[simp] theorem rxLost_acq (s : State) : (rxLost s).acq = s.acq := rfl
@[simp] theorem rxLost_trace (s : State) : (rxLost s).trace = s.trace := rfl
@[simp] theorem rxLost_acqReqs (s : State) : (rxLost s).acqReqs = s.acqReqs := rfl
@[simp] theorem rxLost_nvmWrites (s : State) : (rxLost s).nvmWrites = s.nvmWrites := rfl
@[simp] theorem rxLost_ptOut (s : State) : (rxLost s).ptOut = s.ptOut := rfl
@[simp] theorem rxLost_queries (s : State) : (rxLost s).queries = s.queries := rfl
@[simp] theorem rxLost_cfg (s : State) : (rxLost s).cfg = s.cfg := rfl
@[simp] theorem rxLost_inputs (s : State) : (rxLost s).inputs = s.inputs := rfl
@[simp] theorem rxLost_draws (s : State) : (rxLost s).draws = s.draws := rfl

/-! ### storeByte: writes the command buffer only -/

@[simp] theorem storeByte_prevEdge (b : Byte) (s : State) : (storeByte b s).prevEdge = s.prevEdge := by
  unfold storeByte; split <;> rfl
@[simp] theorem storeByte_waitBreak (b : Byte) (s : State) : (storeByte b s).waitBreak = s.waitBreak := by
  unfold storeByte; split <;> rfl
@[simp] theorem storeByte_waitMark (b : Byte) (s : State) : (storeByte b s).waitMark = s.waitMark := by
  unfold storeByte; split <;> rfl
@[simp] theorem storeByte_addr (b : Byte) (s : State) : (storeByte b s).addr = s.addr := by
  unfold storeByte; split <;> rfl
@[simp] theorem storeByte_active (b : Byte) (s : State) : (storeByte b s).active = s.active := by
  unfold storeByte; split <;> rfl
@[simp] theorem storeByte_state (b : Byte) (s : State) : (storeByte b s).state = s.state := by
  unfold storeByte; split <;> rfl
@[simp] theorem storeByte_count (b : Byte) (s : State) : (storeByte b s).count = s.count := by
  unfold storeByte; split <;> rfl
@[simp] theorem storeByte_values (b : Byte) (s : State) : (storeByte b s).values = s.values := by
  unfold storeByte; split <;> rfl
@[simp] theorem storeByte_lines (b : Byte) (s : State) : (storeByte b s).lines = s.lines := by
  unfold storeByte; split <;> rfl
@[simp] theorem storeByte_crcLatched (b : Byte) (s : State) : (storeByte b s).crcLatched = s.crcLatched := by
  unfold storeByte; split <;> rfl
@[simp] theorem storeByte_ptWin (b : Byte) (s : State) : (storeByte b s).ptWin = s.ptWin := by
  unfold storeByte; split <;> rfl
@[simp] theorem storeByte_rxq (b : Byte) (s : State) : (storeByte b s).rxq = s.rxq := by
  unfold storeByte; split <;> rfl
@[simp] theorem storeByte_rxOvf (b : Byte) (s : State) : (storeByte b s).rxOvf = s.rxOvf := by
  unfold storeByte; split <;> rfl
@[simp] theorem storeByte_nvm (b : Byte) (s : State) : (storeByte b s).nvm = s.nvm := by
  unfold storeByte; split <;> rfl
@[simp] theorem storeByte_acq (b : Byte) (s : State) : (storeByte b s).acq = s.acq := by
  unfold storeByte; split <;> rfl
@[simp] theorem storeByte_trace (b : Byte) (s : State) : (storeByte b s).trace = s.trace := by
  unfold storeByte; split <;> rfl
@[simp] theorem storeByte_acqReqs (b : Byte) (s : State) : (storeByte b s).acqReqs = s.acqReqs := by
  unfold storeByte; split <;> rfl
@[simp] theorem storeByte_nvmWrites (b : Byte) (s : State) : (storeByte b s).nvmWrites = s.nvmWrites := by
  unfold storeByte; split <;> rfl
@[simp] theorem storeByte_ptOut (b : Byte) (s : State) : (storeByte b s).ptOut = s.ptOut := by
  unfold storeByte; split <;> rfl
@[simp] theorem storeByte_queries (b : Byte) (s : State) : (storeByte b s).queries = s.queries := by
  unfold storeByte; split <;> rfl
@[simp] theorem storeByte_cfg (b : Byte) (s : State) : (storeByte b s).cfg = s.cfg := by
  unfold storeByte; split <;> rfl
@[simp] theorem storeByte_inputs (b : Byte) (s : State) : (storeByte b s).inputs = s.inputs := by
  unfold storeByte; split <;> rfl
@[simp] theorem storeByte_draws (b : Byte) (s : State) : (storeByte b s).draws = s.draws := by
  unfold storeByte; split <;> rfl

/-! ### rxAppend: writes the receive queue and the overflow indication only -/

@[simp] theorem rxAppend_prevEdge (b : Byte) (s : State) : (rxAppend b s).prevEdge = s.prevEdge := by
  unfold rxAppend; split <;> rfl
@[simp] theorem rxAppend_waitBreak (b : Byte) (s : State) : (rxAppend b s).waitBreak = s.waitBreak := by
  unfold rxAppend; split <;> rfl
@[simp] theorem rxAppend_waitMark (b : Byte) (s : State) : (rxAppend b s).waitMark = s.waitMark := by
  unfold rxAppend; split <;> rfl
@[simp] theorem rxAppend_addr (b : Byte) (s : State) : (rxAppend b s).addr = s.addr := by
  unfold rxAppend; split <;> rfl
@[simp] theorem rxAppend_active (b : Byte) (s : State) : (rxAppend b s).active = s.active := by
  unfold rxAppend; split <;> rfl
@[simp] theorem rxAppend_state (b : Byte) (s : State) : (rxAppend b s).state = s.state := by
  unfold rxAppend; split <;> rfl
@[simp] theorem rxAppend_count (b : Byte) (s : State) : (rxAppend b s).count = s.count := by
  unfold rxAppend; split <;> rfl
@[simp] theorem rxAppend_values (b : Byte) (s : State) : (rxAppend b s).values = s.values := by
  unfold rxAppend; split <;> rfl
@[simp] theorem rxAppend_lines (b : Byte) (s : State) : (rxAppend b s).lines = s.lines := by
  unfold rxAppend; split <;> rfl
@[simp] theorem rxAppend_crcLatched (b : Byte) (s : State) : (rxAppend b s).crcLatched = s.crcLatched := by
  unfold rxAppend; split <;> rfl
@[simp] theorem rxAppend_cmdBuf (b : Byte) (s : State) : (rxAppend b s).cmdBuf = s.cmdBuf := by
  unfold rxAppend; split <;> rfl
@[simp] theorem rxAppend_cmdLen (b : Byte) (s : State) : (rxAppend b s).cmdLen = s.cmdLen := by
  unfold rxAppend; split <;> rfl
@[simp] theorem rxAppend_cmdOvf (b : Byte) (s : State) : (rxAppend b s).cmdOvf = s.cmdOvf := by
  unfold rxAppend; split <;> rfl
@[simp] theorem rxAppend_ptWin (b : Byte) (s : State) : (rxAppend b s).ptWin = s.ptWin := by
  unfold rxAppend; split <;> rfl
@[simp] theorem rxAppend_nvm (b : Byte) (s : State) : (rxAppend b s).nvm = s.nvm := by
  unfold rxAppend; split <;> rfl
@[simp] theorem rxAppend_acq (b : Byte) (s : State) : (rxAppend b s).acq = s.acq := by
  unfold rxAppend; split <;> rfl
@[simp] theorem rxAppend_trace (b : Byte) (s : State) : (rxAppend b s).trace = s.trace := by
  unfold rxAppend; split <;> rfl
@[simp] theorem rxAppend_acqReqs (b : Byte) (s : State) : (rxAppend b s).acqReqs = s.acqReqs := by
  unfold rxAppend; split <;> rfl
@[simp] theorem rxAppend_nvmWrites (b : Byte) (s : State) : (rxAppend b s).nvmWrites = s.nvmWrites := by
  unfold rxAppend; split <;> rfl
@[simp] theorem rxAppend_ptOut (b : Byte) (s : State) : (rxAppend b s).ptOut = s.ptOut := by
  unfold rxAppend; split <;> rfl
@[simp] theorem rxAppend_queries (b : Byte) (s : State) : (rxAppend b s).queries = s.queries := by
  unfold rxAppend; split <;> rfl
@[simp] theorem rxAppend_cfg (b : Byte) (s : State) : (rxAppend b s).cfg = s.cfg := by
  unfold rxAppend; split <;> rfl
@[simp] theorem rxAppend_inputs (b : Byte) (s : State) : (rxAppend b s).inputs = s.inputs := by
  unfold rxAppend; split <;> rfl
@[simp] theorem rxAppend_draws (b : Byte) (s : State) : (rxAppend b s).draws = s.draws := by
  unfold rxAppend; split <;> rfl

/-! ### edgeUpdate: writes the line timing state only -/

@[simp] theorem edgeUpdate_addr (ts : Timestamp) (lvl : Level) (s : State) : (edgeUpdate ts lvl s).addr = s.addr := rfl
@[simp] theorem edgeUpdate_active (ts : Timestamp) (lvl : Level) (s : State) : (edgeUpdate ts lvl s).active = s.active := rfl
@[simp] theorem edgeUpdate_state (ts : Timestamp) (lvl : Level) (s : State) : (edgeUpdate ts lvl s).state = s.state := rfl
@[simp] theorem edgeUpdate_count (ts : Timestamp) (lvl : Level) (s : State) : (edgeUpdate ts lvl s).count = s.count := rfl
@[simp] theorem edgeUpdate_values (ts : Timestamp) (lvl : Level) (s : State) : (edgeUpdate ts lvl s).values = s.values := rfl
@[simp] theorem edgeUpdate_lines (ts : Timestamp) (lvl : Level) (s : State) : (edgeUpdate ts lvl s).lines = s.lines := rfl
@[simp] theorem edgeUpdate_crcLatched (ts : Timestamp) (lvl : Level) (s : State) : (edgeUpdate ts lvl s).crcLatched = s.crcLatched := rfl
@[simp] theorem edgeUpdate_cmdBuf (ts : Timestamp) (lvl : Level) (s : State) : (edgeUpdate ts lvl s).cmdBuf = s.cmdBuf := rfl
@[simp] theorem edgeUpdate_cmdLen (ts : Timestamp) (lvl : Level) (s : State) : (edgeUpdate ts lvl s).cmdLen = s.cmdLen := rfl
@[simp] theorem edgeUpdate_cmdOvf (ts : Timestamp) (lvl : Level) (s : State) : (edgeUpdate ts lvl s).cmdOvf = s.cmdOvf := rfl
@[simp] theorem edgeUpdate_ptWin (ts : Timestamp) (lvl : Level) (s : State) : (edgeUpdate ts lvl s).ptWin = s.ptWin := rfl
@[simp] theorem edgeUpdate_rxq (ts : Timestamp) (lvl : Level) (s : State) : (edgeUpdate ts lvl s).rxq = s.rxq := rfl
@[simp] theorem edgeUpdate_rxOvf (ts : Timestamp) (lvl : Level) (s : State) : (edgeUpdate ts lvl s).rxOvf = s.rxOvf := rfl
@[simp] theorem edgeUpdate_nvm (ts : Timestamp) (lvl : Level) (s : State) : (edgeUpdate ts lvl s).nvm = s.nvm := rfl
@[simp] theorem edgeUpdate_acq (ts : Timestamp) (lvl : Level) (s : State) : (edgeUpdate ts lvl s).acq = s.acq := rfl
@[simp] theorem edgeUpdate_trace (ts : Timestamp) (lvl : Level) (s : State) : (edgeUpdate ts lvl s).trace = s.trace := rfl
@[simp] theorem edgeUpdate_acqReqs (ts : Timestamp) (lvl : Level) (s : State) : (edgeUpdate ts lvl s).acqReqs = s.acqReqs := rfl
@[simp] theorem edgeUpdate_nvmWrites (ts : Timestamp) (lvl : Level) (s : State) : (edgeUpdate ts lvl s).nvmWrites = s.nvmWrites := rfl
@[simp] theorem edgeUpdate_ptOut (ts : Timestamp) (lvl : Level) (s : State) : (edgeUpdate ts lvl s).ptOut = s.ptOut := rfl
@[simp] theorem edgeUpdate_queries (ts : Timestamp) (lvl : Level) (s : State) : (edgeUpdate ts lvl s).queries = s.queries := rfl
@[simp] theorem edgeUpdate_cfg (ts : Timestamp) (lvl : Level) (s : State) : (edgeUpdate ts lvl s).cfg = s.cfg := rfl
@[simp] theorem edgeUpdate_inputs (ts : Timestamp) (lvl : Level) (s : State) : (edgeUpdate ts lvl s).inputs = s.inputs := rfl
@[simp] theorem edgeUpdate_draws (ts : Timestamp) (lvl : Level) (s : State) : (edgeUpdate ts lvl s).draws = s.draws := rfl

/-! ### fPtSens: writes the trace only -/

@[simp] theorem fPtSens_prevEdge (b : Byte) (s : State) : (fPtSens b s).prevEdge = s.prevEdge := by
  unfold fPtSens; split <;> rfl
@[simp] theorem fPtSens_waitBreak (b : Byte) (s : State) : (fPtSens b s).waitBreak = s.waitBreak := by
  unfold fPtSens; split <;> rfl
@[simp] theorem fPtSens_waitMark (b : Byte) (s : State) : (fPtSens b s).waitMark = s.waitMark := by
  unfold fPtSens; split <;> rfl
@[simp] theorem fPtSens_addr (b : Byte) (s : State) : (fPtSens b s).addr = s.addr := by
  unfold fPtSens; split <;> rfl
@[simp] theorem fPtSens_active (b : Byte) (s : State) : (fPtSens b s).active = s.active := by
  unfold fPtSens; split <;> rfl
@[simp] theorem fPtSens_state (b : Byte) (s : State) : (fPtSens b s).state = s.state := by
  unfold fPtSens; split <;> rfl
@[simp] theorem fPtSens_count (b : Byte) (s : State) : (fPtSens b s).count = s.count := by
  unfold fPtSens; split <;> rfl
@[simp] theorem fPtSens_values (b : Byte) (s : State) : (fPtSens b s).values = s.values := by
  unfold fPtSens; split <;> rfl
@[simp] theorem fPtSens_lines (b : Byte) (s : State) : (fPtSens b s).lines = s.lines := by
  unfold fPtSens; split <;> rfl
@[simp] theorem fPtSens_crcLatched (b : Byte) (s : State) : (fPtSens b s).crcLatched = s.crcLatched := by
  unfold fPtSens; split <;> rfl
@[simp] theorem fPtSens_cmdBuf (b : Byte) (s : State) : (fPtSens b s).cmdBuf = s.cmdBuf := by
  unfold fPtSens; split <;> rfl
@[simp] theorem fPtSens_cmdLen (b : Byte) (s : State) : (fPtSens b s).cmdLen = s.cmdLen := by
  unfold fPtSens; split <;> rfl
@[simp] theorem fPtSens_cmdOvf (b : Byte) (s : State) : (fPtSens b s).cmdOvf = s.cmdOvf := by
  unfold fPtSens; split <;> rfl
@[simp] theorem fPtSens_ptWin (b : Byte) (s : State) : (fPtSens b s).ptWin = s.ptWin := by
  unfold fPtSens; split <;> rfl
@[simp] theorem fPtSens_rxq (b : Byte) (s : State) : (fPtSens b s).rxq = s.rxq := by
  unfold fPtSens; split <;> rfl
@[simp] theorem fPtSens_rxOvf (b : Byte) (s : State) : (fPtSens b s).rxOvf = s.rxOvf := by
  unfold fPtSens; split <;> rfl
@[simp] theorem fPtSens_nvm (b : Byte) (s : State) : (fPtSens b s).nvm = s.nvm := by
  unfold fPtSens; split <;> rfl
@[simp] theorem fPtSens_acq (b : Byte) (s : State) : (fPtSens b s).acq = s.acq := by
  unfold fPtSens; split <;> rfl
@[simp] theorem fPtSens_acqReqs (b : Byte) (s : State) : (fPtSens b s).acqReqs = s.acqReqs := by
  unfold fPtSens; split <;> rfl
@[simp] theorem fPtSens_nvmWrites (b : Byte) (s : State) : (fPtSens b s).nvmWrites = s.nvmWrites := by
  unfold fPtSens; split <;> rfl
@[simp] theorem fPtSens_ptOut (b : Byte) (s : State) : (fPtSens b s).ptOut = s.ptOut := by
  unfold fPtSens; split <;> rfl
@[simp] theorem fPtSens_queries (b : Byte) (s : State) : (fPtSens b s).queries = s.queries := by
  unfold fPtSens; split <;> rfl
@[simp] theorem fPtSens_cfg (b : Byte) (s : State) : (fPtSens b s).cfg = s.cfg := by
  unfold fPtSens; split <;> rfl
@[simp] theorem fPtSens_inputs (b : Byte) (s : State) : (fPtSens b s).inputs = s.inputs := by
  unfold fPtSens; split <;> rfl
@[simp] theorem fPtSens_draws (b : Byte) (s : State) : (fPtSens b s).draws = s.draws := by
  unfold fPtSens; split <;> rfl

/-! ### applyExt: writes the trace and the sensor link only (R194) -/

@[simp] theorem applyExt_prevEdge (e : ExtEffect) (s : State) : (applyExt e s).prevEdge = s.prevEdge := by
  unfold applyExt; dsimp only; split <;> rfl
@[simp] theorem applyExt_waitBreak (e : ExtEffect) (s : State) : (applyExt e s).waitBreak = s.waitBreak := by
  unfold applyExt; dsimp only; split <;> rfl
@[simp] theorem applyExt_waitMark (e : ExtEffect) (s : State) : (applyExt e s).waitMark = s.waitMark := by
  unfold applyExt; dsimp only; split <;> rfl
@[simp] theorem applyExt_addr (e : ExtEffect) (s : State) : (applyExt e s).addr = s.addr := by
  unfold applyExt; dsimp only; split <;> rfl
@[simp] theorem applyExt_active (e : ExtEffect) (s : State) : (applyExt e s).active = s.active := by
  unfold applyExt; dsimp only; split <;> rfl
@[simp] theorem applyExt_state (e : ExtEffect) (s : State) : (applyExt e s).state = s.state := by
  unfold applyExt; dsimp only; split <;> rfl
@[simp] theorem applyExt_count (e : ExtEffect) (s : State) : (applyExt e s).count = s.count := by
  unfold applyExt; dsimp only; split <;> rfl
@[simp] theorem applyExt_values (e : ExtEffect) (s : State) : (applyExt e s).values = s.values := by
  unfold applyExt; dsimp only; split <;> rfl
@[simp] theorem applyExt_lines (e : ExtEffect) (s : State) : (applyExt e s).lines = s.lines := by
  unfold applyExt; dsimp only; split <;> rfl
@[simp] theorem applyExt_crcLatched (e : ExtEffect) (s : State) : (applyExt e s).crcLatched = s.crcLatched := by
  unfold applyExt; dsimp only; split <;> rfl
@[simp] theorem applyExt_cmdBuf (e : ExtEffect) (s : State) : (applyExt e s).cmdBuf = s.cmdBuf := by
  unfold applyExt; dsimp only; split <;> rfl
@[simp] theorem applyExt_cmdLen (e : ExtEffect) (s : State) : (applyExt e s).cmdLen = s.cmdLen := by
  unfold applyExt; dsimp only; split <;> rfl
@[simp] theorem applyExt_cmdOvf (e : ExtEffect) (s : State) : (applyExt e s).cmdOvf = s.cmdOvf := by
  unfold applyExt; dsimp only; split <;> rfl
@[simp] theorem applyExt_ptWin (e : ExtEffect) (s : State) : (applyExt e s).ptWin = s.ptWin := by
  unfold applyExt; dsimp only; split <;> rfl
@[simp] theorem applyExt_rxq (e : ExtEffect) (s : State) : (applyExt e s).rxq = s.rxq := by
  unfold applyExt; dsimp only; split <;> rfl
@[simp] theorem applyExt_rxOvf (e : ExtEffect) (s : State) : (applyExt e s).rxOvf = s.rxOvf := by
  unfold applyExt; dsimp only; split <;> rfl
@[simp] theorem applyExt_nvm (e : ExtEffect) (s : State) : (applyExt e s).nvm = s.nvm := by
  unfold applyExt; dsimp only; split <;> rfl
@[simp] theorem applyExt_acq (e : ExtEffect) (s : State) : (applyExt e s).acq = s.acq := by
  unfold applyExt; dsimp only; split <;> rfl
@[simp] theorem applyExt_acqReqs (e : ExtEffect) (s : State) : (applyExt e s).acqReqs = s.acqReqs := by
  unfold applyExt; dsimp only; split <;> rfl
@[simp] theorem applyExt_nvmWrites (e : ExtEffect) (s : State) : (applyExt e s).nvmWrites = s.nvmWrites := by
  unfold applyExt; dsimp only; split <;> rfl
@[simp] theorem applyExt_queries (e : ExtEffect) (s : State) : (applyExt e s).queries = s.queries := by
  unfold applyExt; dsimp only; split <;> rfl
@[simp] theorem applyExt_cfg (e : ExtEffect) (s : State) : (applyExt e s).cfg = s.cfg := by
  unfold applyExt; dsimp only; split <;> rfl
@[simp] theorem applyExt_inputs (e : ExtEffect) (s : State) : (applyExt e s).inputs = s.inputs := by
  unfold applyExt; dsimp only; split <;> rfl
@[simp] theorem applyExt_draws (e : ExtEffect) (s : State) : (applyExt e s).draws = s.draws := by
  unfold applyExt; dsimp only; split <;> rfl
@[simp] theorem applyExt_ptOut (e : ExtEffect) (s : State) : (applyExt e s).ptOut = s.ptOut ++ e.toSensor := by
  unfold applyExt; dsimp only; split <;> rfl

end Sys2Proof.Machine
end

