-- ==== Sys2Proof/Laws/Ops.lean ====
section
/-! SUPPORT. What each shared operation can do, said once: the gate, the start of a measurement, a delivery,
the reselection loop, the steps of the agents and the step itself. -/

namespace Sys2Proof.Machine

open Sys2Proof

/-! ### The gate -/

theorem addressed_iff (s : State) (x : Byte) : addressed s x = true ↔ x = s.addr ∨ x = chWild := by
  simp [addressed]

theorem addressed_wild (s : State) : addressed s chWild = true := by simp [addressed]

theorem gate_of_addressed {s : State} {a : Byte} (f : State → State) (h : a = s.addr ∨ a = chWild) :
    gate a f s = f (activate s) := by
  simp [gate, (addressed_iff s a).2 h]

theorem gate_of_not_addressed {s : State} {a : Byte} (f : State → State) (h1 : a ≠ s.addr)
    (h2 : a ≠ chWild) : gate a f s = s := by
  simp [gate, addressed, h1, h2]

/-- The gate either lets the command run from the activated state or changes nothing. -/
theorem gate_cases (a : Byte) (f : State → State) (s : State) :
    gate a f s = f (activate s) ∨ gate a f s = s := by
  unfold gate; split <;> simp

theorem forThisDevice_iff {s : State} {i : Instr} :
    forThisDevice s i = true ↔ ∃ a, i.address? = some a ∧ (a = s.addr ∨ a = chWild) := by
  unfold forThisDevice
  split <;> rename_i h <;> simp [h, addressed_iff]

/-! ### The transport -/

theorem available_ne_zero {s : State} : available s ≠ 0 ↔ s.rxOvf = true ∨ s.rxq ≠ [] := by
  unfold available
  by_cases h : s.rxOvf = true <;> simp [h]

/-! ### Starting a measurement -/

/-- A measurement command either acknowledges a table entry or sends the zero-count acknowledgment; the
latch is written in both cases (R222, R223). -/
theorem startMeasurement_cases (cls : MeasClass) (idx : Option Nat) (crc : Bool) (s : State) :
    (∃ e, measTable s.cfg cls idx = some e
      ∧ startMeasurement cls idx crc s = acknowledge cls e { s with crcLatched := crc })
    ∨ (measTable s.cfg cls idx = none
      ∧ startMeasurement cls idx crc s = zeroCount cls { s with crcLatched := crc }) := by
  unfold startMeasurement
  dsimp only
  cases h : measTable s.cfg cls idx with
  | none => exact .inr ⟨rfl, rfl⟩
  | some e => exact .inl ⟨e, rfl, rfl⟩

/-- Everything an acknowledgment writes (R222). -/
theorem acknowledge_eq (cls : MeasClass) (e : MeasEntry) (s : State) :
    acknowledge cls e s = { s with
      count := e.n
      trace := s.trace ++ [.ascii (s.addr :: (ackContent cls e.ttt.val e.n ++ crlf))]
      state := classState cls
      acq := some e.req
      acqReqs := s.acqReqs ++ [e.req] } := rfl

/-- Everything a zero-count acknowledgment writes (R223). -/
theorem zeroCount_eq (cls : MeasClass) (s : State) :
    zeroCount cls s = { s with
      count := 0
      values := List.replicate Config.valueMax 0
      lines := List.replicate Config.lineSlots []
      trace := s.trace ++ [.ascii (s.addr :: (ackContent cls 0 0 ++ crlf))]
      active := false
      state := .lowPower } := rfl

/-! ### Values and delivery -/

theorem normalise_length (res : AcqResult) (n : Nat) : (normalise res n).length = n := by
  cases res <;> simp [normalise]

/-- What `Pack` reads after the values of an answer are stored is those values. -/
theorem storeValues_take {vals : List Int} {s : State} (h : vals.length = s.count) :
    ((storeValues vals s).values).take s.count = vals := by
  simp [← h]

/-- Everything a delivery can do when it answers a next state (R230). -/
theorem deliver_next {vals : List Int} {w : Nat} {sr : Bool} {s t : State}
    (h : deliver vals w sr s = .next t) :
    ∃ ls, pack s.cfg.pReq w ((storeValues vals s).values.take s.count) = some ls
      ∧ t = { s with
          values := vals.take s.count ++ s.values.drop s.count
          lines := ls
          trace := if sr then s.trace ++ [.ascii (s.addr :: crlf)] else s.trace
          active := false
          state := .lowPower } := by
  simp only [deliver, storeValues_cfg, storeValues_count] at h
  split at h
  · cases h
  · rename_i ls hls
    refine ⟨ls, hls, ?_⟩
    cases h
    cases sr <;> rfl

/-- A delivery answers a next state exactly when its values can be packed; otherwise it is refused. -/
theorem deliver_of_pack {vals : List Int} {w : Nat} {sr : Bool} {s : State} {ls : List Bytes}
    (h : pack s.cfg.pReq w ((storeValues vals s).values.take s.count) = some ls) :
    deliver vals w sr s = .next { s with
      values := vals.take s.count ++ s.values.drop s.count
      lines := ls
      trace := if sr then s.trace ++ [.ascii (s.addr :: crlf)] else s.trace
      active := false
      state := .lowPower } := by
  simp only [deliver, storeValues_cfg, storeValues_count, h]
  cases sr <;> rfl

theorem deliver_refused {vals : List Int} {w : Nat} {sr : Bool} {s : State}
    (h : pack s.cfg.pReq w ((storeValues vals s).values.take s.count) = none) :
    deliver vals w sr s = .refused .valueOutOfRange := by
  simp only [deliver, storeValues_cfg, storeValues_count, h]

/-- A delivery never faults. -/
theorem deliver_ne_fault {vals : List Int} {w : Nat} {sr : Bool} {s : State} {r : Fault} :
    deliver vals w sr s ≠ .fault r := by
  unfold deliver
  dsimp only
  split <;> simp

/-! ### Reselection -/

/-- Reselection looks at the bytes it is given, not at the queue in the state. -/
theorem drain_setQueue (x : Bytes) : ∀ (q : Bytes) (s : State), drain q (setQueue x s) = drain q s
  | [], _ => rfl
  | b :: q, s => by
    unfold drain
    have h1 : endCommand (setQueue x s) = setQueue x (endCommand s) := rfl
    have h2 : storeByte b (setQueue x s) = setQueue x (storeByte b s) := by
      unfold storeByte; split <;> rename_i h <;> simp only [setQueue_cmdLen] at h <;> simp [h, setQueue]
    have h3 : heldInstr (setQueue x s) = heldInstr s := rfl
    have h4 : ∀ i, forThisDevice (setQueue x s) i = forThisDevice s i := fun _ => rfl
    rw [h1, h2, h3, h4, drain_setQueue x q, drain_setQueue x q]
    split
    · split
      · rfl
      · rfl
    · rfl

/-- What reselection leaves alone, whatever it finds: everything but the queue, the command buffer and the
wait flags (R228). -/
theorem drain_frame : ∀ (q : Bytes) (s : State),
    (drain q s).2 = { s with
      rxq := (drain q s).2.rxq, cmdBuf := (drain q s).2.cmdBuf, cmdLen := (drain q s).2.cmdLen
      cmdOvf := (drain q s).2.cmdOvf, waitBreak := (drain q s).2.waitBreak
      waitMark := (drain q s).2.waitMark }
  | [], _ => rfl
  | b :: q, s => by
    unfold drain
    split
    · split
      · rfl
      · rw [drain_frame q (endCommand s)]; rfl
    · rw [drain_frame q (storeByte b s)]
      unfold storeByte; split <;> rfl

/-- The command that reselection finds is one the decoder read, and it is for this device. -/
theorem drain_found : ∀ (q : Bytes) (s : State) (i : Instr), (drain q s).1 = some i →
    (∃ text ovf, i = decodeCommand text ovf) ∧ ∃ a, i.address? = some a ∧ (a = s.addr ∨ a = chWild)
  | [], _, _ => by simp [drain]
  | b :: q, s, i => by
    unfold drain
    intro h
    split at h
    · split at h
      · rename_i hf
        cases h
        exact ⟨⟨_, _, rfl⟩, forThisDevice_iff.1 hf⟩
      · exact drain_found q (endCommand s) i h
    · simpa using drain_found q (storeByte b s) i h

/-- What reselection consumes: a prefix of the bytes it is given, ended by the terminator of the command it
finds, or all of them (R228). -/
theorem drain_consumes : ∀ (q : Bytes) (s : State),
    ((drain q s).1 = none ∧ (drain q s).2.rxq = [])
    ∨ ∃ i pre, (drain q s).1 = some i ∧ q = pre ++ chBang :: (drain q s).2.rxq
  | [], _ => .inl ⟨rfl, rfl⟩
  | b :: q, s => by
    unfold drain
    split
    · rename_i hb
      split
      · exact .inr ⟨_, [], rfl, by simp [hb]⟩
      · obtain h | ⟨i, pre, h1, h2⟩ := drain_consumes q (endCommand s)
        · exact .inl h
        · exact .inr ⟨i, b :: pre, h1, by rw [List.cons_append, ← h2]⟩
    · obtain h | ⟨i, pre, h1, h2⟩ := drain_consumes q (storeByte b s)
      · exact .inl h
      · exact .inr ⟨i, b :: pre, h1, by rw [List.cons_append, ← h2]⟩

/-- Reselection re-arms the detectors at a terminator only (R182, R228). -/
theorem drain_rearms : ∀ (q : Bytes) (s : State), chBang ∉ q →
    (drain q s).2.waitBreak = s.waitBreak ∧ (drain q s).2.waitMark = s.waitMark
  | [], _, _ => ⟨rfl, rfl⟩
  | b :: q, s, h => by
    unfold drain
    rw [if_neg (fun hb => h (by simp [hb]))]
    obtain ⟨h1, h2⟩ := drain_rearms q (storeByte b s) (fun hq => h (List.mem_cons_of_mem _ hq))
    exact ⟨h1.trans (storeByte_waitBreak b s), h2.trans (storeByte_waitMark b s)⟩

/-- Whether reselection finds a command depends on the queue, the overflow indication, the command buffer
and the address alone, and so not on the acquisition or the inputs. -/
theorem drain_endAcquisition : ∀ (q : Bytes) (s : State),
    drain q (endAcquisition s) = ((drain q s).1, endAcquisition (drain q s).2)
  | [], _ => rfl
  | b :: q, s => by
    unfold drain
    have h1 : endCommand (endAcquisition s) = endAcquisition (endCommand s) := rfl
    have h2 : storeByte b (endAcquisition s) = endAcquisition (storeByte b s) := by
      unfold storeByte; split <;> rename_i h <;> simp only [endAcquisition_cmdLen] at h <;> simp [h, endAcquisition]
    have h3 : heldInstr (endAcquisition s) = heldInstr s := rfl
    have h4 : ∀ i, forThisDevice (endAcquisition s) i = forThisDevice s i := fun _ => rfl
    rw [h1, h2, h3, h4, drain_endAcquisition q, drain_endAcquisition q]
    split
    · split
      · rfl
      · rfl
    · rfl

/-- Nor on what is still to come. -/
theorem drain_inputs (r : List Input) : ∀ (q : Bytes) (s : State),
    drain q { s with inputs := r } = ((drain q s).1, { (drain q s).2 with inputs := r })
  | [], _ => rfl
  | b :: q, s => by
    unfold drain
    have h1 : endCommand { s with inputs := r } = { endCommand s with inputs := r } := rfl
    have h2 : storeByte b { s with inputs := r } = { storeByte b s with inputs := r } := by
      unfold storeByte; split <;> rfl
    have h3 : heldInstr { s with inputs := r } = heldInstr s := rfl
    have h4 : ∀ i, forThisDevice { s with inputs := r } i = forThisDevice s i := fun _ => rfl
    rw [h1, h2, h3, h4, drain_inputs r q, drain_inputs r q]
    split
    · split
      · rfl
      · rfl
    · rfl

/-! ### The steps of the agents -/

/-- The Transport appends a byte, or at the capacity signals that it was lost (R66, log 19). -/
theorem rxAppend_cases (b : Byte) (s : State) :
    (s.rxq.length < s.cfg.rxqCap ∧ rxAppend b s = { s with rxq := s.rxq ++ [b] })
    ∨ (s.cfg.rxqCap ≤ s.rxq.length ∧ rxAppend b s = { s with rxOvf := true }) := by
  unfold rxAppend
  split
  · rename_i h; exact .inl ⟨h, rfl⟩
  · rename_i h; exact .inr ⟨Nat.le_of_not_lt h, rfl⟩

/-- A direct call runs at rest, and elsewhere the agent idles (log 31). -/
theorem directCall_cases (i : Instr) (s : State) :
    (s.state = .lowPower ∧ directCall i s = exec i s)
    ∨ (s.state ≠ .lowPower ∧ directCall i s = .next s) := by
  unfold directCall
  split
  · rename_i h; exact .inl ⟨h, rfl⟩
  · rename_i h; exact .inr ⟨h, rfl⟩

/-- F-RX: an overflow, an empty queue, a stored byte, or a command that runs (R182). -/
theorem fRx_cases (s : State) :
    (s.rxOvf = true ∧ fRx s = .next (overflowRecover s))
    ∨ (s.rxOvf = false ∧ s.rxq = [] ∧ fRx s = .next s)
    ∨ (∃ b q, s.rxOvf = false ∧ s.rxq = b :: q ∧ b ≠ chBang
        ∧ fRx s = .next (storeByte b (setQueue q s)))
    ∨ ∃ q, s.rxOvf = false ∧ s.rxq = chBang :: q
        ∧ fRx s = exec (heldInstr s) (endCommand (setQueue q s)) := by
  unfold fRx
  by_cases h : s.rxOvf = true
  · simp [h]
  · have h' : s.rxOvf = false := by simpa using h
    cases hq : s.rxq with
    | nil => simp [h']
    | cons b q =>
      by_cases hb : b = chBang
      · exact .inr (.inr (.inr ⟨q, h', by simp [hb], by simp [h', hb]⟩))
      · exact .inr (.inr (.inl ⟨b, q, h', rfl, hb, by simp [h', hb]⟩))

/-- F-PT-BUS: an overflow, an empty queue, a forwarded byte, or the token (R204, R205). -/
theorem fPtBus_cases (s : State) :
    (s.rxOvf = true ∧ fPtBus s = .next (clearBuffer s))
    ∨ (s.rxOvf = false ∧ s.rxq = [] ∧ fPtBus s = .next s)
    ∨ ∃ b q, s.rxOvf = false ∧ s.rxq = b :: q
        ∧ ((s.ptWin.drop 1 ++ [b] ≠ exitBytes
              ∧ fPtBus s = .next (shiftWindow b (toSensor [b] (setQueue q s))))
          ∨ (s.ptWin.drop 1 ++ [b] = exitBytes
              ∧ fPtBus s = exec .exitToken (shiftWindow b (toSensor [b] (setQueue q s))))) := by
  unfold fPtBus
  by_cases h : s.rxOvf = true
  · simp [h]
  · have h' : s.rxOvf = false := by simpa using h
    cases hq : s.rxq with
    | nil => simp [h']
    | cons b q =>
      refine .inr (.inr ⟨b, q, h', rfl, ?_⟩)
      by_cases hw : s.ptWin.drop 1 ++ [b] = exitBytes
      · exact .inr ⟨hw, by simp only [shiftWindow_ptWin, toSensor_ptWin, setQueue_ptWin, hw]; simp [h']⟩
      · exact .inl ⟨hw, by simp only [shiftWindow_ptWin, toSensor_ptWin, setQueue_ptWin, hw]; simp [h']⟩

/-- The foreground agent idles, receives, or forwards, as the session state says (R180). -/
theorem foreground_cases (s : State) :
    foreground s = .next s ∨ (s.state = .lowPower ∧ foreground s = fRx s)
    ∨ (s.state = .serialPassthrough ∧ foreground s = fPtBus s) := by
  unfold foreground
  split
  · rename_i h; exact .inr (.inl ⟨h.1, rfl⟩)
  · split
    · rename_i h; exact .inr (.inr ⟨h.1, rfl⟩)
    · exact .inl rfl

/-- One step takes the next input of the schedule; with none left the foreground agent polls (log 5). -/
theorem step_cases (s : State) :
    (s.inputs = [] ∧ step s = foreground s)
    ∨ ∃ e rest, s.inputs = e :: rest ∧ step s = takeInput e { s with inputs := rest } := by
  unfold step stepInputs
  cases h : s.inputs with
  | nil => exact .inl ⟨rfl, rfl⟩
  | cons e rest => exact .inr ⟨e, rest, rfl, rfl⟩

/-- An answer while an acquisition is in flight cancels, runs a reselecting command, or delivers; otherwise
it faults (R227 to R229, log 7). -/
theorem fAcq_cases (res : AcqResult) (s : State) :
    (isAcquiring s.state = false ∧ fAcq res s = .fault .answerWithoutRequest)
    ∨ (s.state = .measuring ∧ s.waitBreak = false ∧ fAcq res s = .next (cancel (endAcquisition s)))
    ∨ (((s.state = .measuring ∧ s.waitBreak = true) ∨ s.state = .verify)
        ∧ fAcq res s = deliver (normalise res s.count) Config.wPlain true (endAcquisition s))
    ∨ ((s.state = .continuous ∨ s.state = .highVolume)
        ∧ fAcq res s = deliver (normalise res s.count) Config.wWide false (endAcquisition s))
    ∨ (s.state = .concurrent ∧ ∃ i, (reselect (endAcquisition s)).1 = some i
        ∧ fAcq res s = exec i (cancel (reselect (endAcquisition s)).2))
    ∨ (s.state = .concurrent ∧ (reselect (endAcquisition s)).1 = none
        ∧ fAcq res s
          = deliver (normalise res s.count) Config.wWide false (reselect (endAcquisition s)).2) := by
  unfold fAcq
  cases hs : s.state <;> simp only [isAcquiring, reduceCtorEq, false_and, true_and, false_or,
    or_false, and_self, or_true]
  · -- measuring
    cases hb : s.waitBreak <;> simp [acqMeasuring, isBreakDetected, hb]
  · -- concurrent
    unfold acqConcurrent
    cases hr : reselect (endAcquisition s) with
    | mk o t => cases o <;> simp
  all_goals rfl

end Sys2Proof.Machine
end

