-- ==== Sys2Proof/Laws/PerInstr.lean ====
section
/-! SUPPORT. The family Framing: a well-formed command's bytes are a body without a terminator, then the
terminator (30_encoding.md R80). One lemma for each constructor of Instr. -/

namespace Sys2Proof.Laws.Framing

open Sys2Proof

/-- The bytes of a well-formed command end at its first terminator; the other rows are no command. -/
def Statement (i : Instr) : Prop :=
  i.wellFormed = true → i.isCommand = true → ∃ body, encode i = body ++ [chBang] ∧ chBang ∉ body

theorem bang_ne_of_legal {a : Byte} (h : legalAddressByte a = true) : chBang ≠ a := by
  rintro rfl; revert h; decide

theorem bang_ne_digitByte (n : Nat) : chBang ≠ digitByte n :=
  fun h => ne_bang_of_isDigit (isDigit_digitByte n) h.symm

theorem bang_not_mem_of_all {e : Bytes} (h : e.all (· != chBang) = true) : chBang ∉ e := by
  intro hm
  have := List.all_eq_true.1 h _ hm
  simp at this

theorem bang_not_mem_digits {e : Bytes} (h : e.all isDigit = true) : chBang ∉ e :=
  fun hm => ne_bang_of_isDigit (List.all_eq_true.1 h _ hm) rfl

/-- A list of bytes that all differ from the terminator does not hold it. -/
theorem bang_not_mem_cons {b : Byte} {bs : Bytes} (h : chBang ≠ b) (hs : chBang ∉ bs) : chBang ∉ b :: bs := by
  simp [h, hs]

/-- An address byte followed by bytes without a terminator. -/
theorem bang_not_mem_command {a : Byte} {bs : Bytes} (h : legalAddressByte a = true) (hs : chBang ∉ bs) :
    chBang ∉ a :: bs :=
  bang_not_mem_cons (bang_ne_of_legal h) hs

/-- The last digit of a form. -/
theorem bang_not_mem_digit (n : Nat) : chBang ∉ [digitByte n] :=
  bang_not_mem_cons (bang_ne_digitByte n) List.not_mem_nil

theorem ack (a : Byte) : Statement (.ack a) :=
  fun h _ => ⟨[a], rfl, bang_not_mem_command (Bool.and_eq_true_iff.1 h).1 (by decide)⟩

theorem wildcardQuery : Statement .wildcardQuery :=
  fun _ _ => ⟨[chWild], rfl, by decide⟩

theorem identify (a : Byte) : Statement (.identify a) :=
  fun h _ => ⟨[a, chI], rfl, bang_not_mem_command h (by decide)⟩

theorem metadata (a : Byte) (ext : Bytes) : Statement (.metadata a ext) :=
  fun h _ => by
    simp only [Instr.wellFormed, legalPayload, Bool.and_eq_true] at h
    exact ⟨a :: chI :: chX :: ext, rfl,
      bang_not_mem_command h.1.1 (bang_not_mem_cons (by decide) (bang_not_mem_cons (by decide) (bang_not_mem_of_all h.1.2.1)))⟩

theorem changeAddress (a b : Byte) : Statement (.changeAddress a b) :=
  fun h _ => by
    simp only [Instr.wellFormed, Bool.and_eq_true] at h
    exact ⟨[a, chA, b], rfl, bang_not_mem_command h.1 (bang_not_mem_cons (by decide)
      (bang_not_mem_cons (ne_bang_of_isAlnum h.2).symm List.not_mem_nil))⟩

theorem measure (a : Byte) : Statement (.measure a) :=
  fun h _ => ⟨[a, chM], rfl, bang_not_mem_command h (by decide)⟩

theorem measureIdx (a : Byte) (d : Fin 10) : Statement (.measureIdx a d) :=
  fun h _ => ⟨[a, chM, digitByte d.val], rfl,
    bang_not_mem_command (Bool.and_eq_true_iff.1 h).1 (bang_not_mem_cons (by decide) (bang_not_mem_digit d.val))⟩

theorem measureCrc (a : Byte) : Statement (.measureCrc a) :=
  fun h _ => ⟨[a, chM, chC], rfl, bang_not_mem_command h (by decide)⟩

theorem concurrent (a : Byte) : Statement (.concurrent a) :=
  fun h _ => ⟨[a, chC], rfl, bang_not_mem_command h (by decide)⟩

theorem concurrentIdx (a : Byte) (d : Fin 10) : Statement (.concurrentIdx a d) :=
  fun h _ => ⟨[a, chC, digitByte d.val], rfl,
    bang_not_mem_command (Bool.and_eq_true_iff.1 h).1 (bang_not_mem_cons (by decide) (bang_not_mem_digit d.val))⟩

theorem verify (a : Byte) : Statement (.verify a) :=
  fun h _ => ⟨[a, chV], rfl, bang_not_mem_command h (by decide)⟩

theorem data (a : Byte) (d : Fin 10) : Statement (.data a d) :=
  fun h _ => ⟨[a, chD, digitByte d.val], rfl,
    bang_not_mem_command h (bang_not_mem_cons (by decide) (bang_not_mem_digit d.val))⟩

theorem byteData (a : Byte) (d : Fin 10) : Statement (.byteData a d) :=
  fun h _ => ⟨[a, chD, chB, digitByte d.val], rfl,
    bang_not_mem_command h (bang_not_mem_cons (by decide) (bang_not_mem_cons (by decide) (bang_not_mem_digit d.val)))⟩

theorem continuous (a : Byte) (d : Fin 10) : Statement (.continuous a d) :=
  fun h _ => ⟨[a, chR, digitByte d.val], rfl,
    bang_not_mem_command h (bang_not_mem_cons (by decide) (bang_not_mem_digit d.val))⟩

theorem highVolumeA (a : Byte) : Statement (.highVolumeA a) :=
  fun h _ => ⟨[a, chH, chA], rfl, bang_not_mem_command h (by decide)⟩

theorem highVolumeB (a : Byte) : Statement (.highVolumeB a) :=
  fun h _ => ⟨[a, chH, chB], rfl, bang_not_mem_command h (by decide)⟩

theorem extM (a : Byte) (ext : Bytes) : Statement (.extM a ext) :=
  fun h _ => by
    simp only [Instr.wellFormed, Bool.and_eq_true] at h
    exact ⟨a :: chX :: chM :: ext, rfl,
      bang_not_mem_command h.1.1 (bang_not_mem_cons (by decide) (bang_not_mem_cons (by decide) (bang_not_mem_digits h.1.2)))⟩

theorem extU (a : Byte) (ext : Bytes) : Statement (.extU a ext) :=
  fun h _ => by
    simp only [Instr.wellFormed, legalPayload, Bool.and_eq_true] at h
    exact ⟨a :: chX :: chU :: ext, rfl,
      bang_not_mem_command h.1 (bang_not_mem_cons (by decide) (bang_not_mem_cons (by decide) (bang_not_mem_of_all h.2.1)))⟩

theorem passEnter (a : Byte) : Statement (.passEnter a) :=
  fun h _ => ⟨[a, chX, chP, chA, chS], rfl, bang_not_mem_command h (by decide)⟩

theorem exitToken : Statement .exitToken :=
  fun _ h => by cases h

theorem unknown (text : Bytes) (ovf : Bool) : Statement (.unknown text ovf) :=
  fun h _ => by
    simp only [Instr.wellFormed, Bool.and_eq_true] at h
    refine ⟨text ++ (if ovf then [0x00#8] else []), rfl, ?_⟩
    have := bang_not_mem_of_all h.1
    cases ovf
    · simpa using this
    · rw [if_pos rfl, List.mem_append, not_or]
      exact ⟨this, by decide⟩

theorem onEdge (ts : Timestamp) (lvl : Level) : Statement (.onEdge ts lvl) :=
  fun _ h => by cases h

theorem breakDetected : Statement .breakDetected :=
  fun _ h => by cases h

theorem markDetected : Statement .markDetected :=
  fun _ h => by cases h

theorem resetDetectionFlags : Statement .resetDetectionFlags :=
  fun _ h => by cases h

end Sys2Proof.Laws.Framing
end

