-- ==== Sys2Proof/Tests/Slice0.lean ====
section
/-! SUPPORT. The model's own tests, with expected results from the spec (T<n>, S<n> and P<n> are vectors of
95_test_vectors.md), the smoke tests of WellFormed, and a witness for the hypotheses of each statement. -/

namespace Sys2Proof.Tests

open Sys2Proof Sys2Proof.Machine Sys2Proof.Statements

/-! ## Helpers -/

/-- The bytes of printable characters. -/
def txt (cs : List Char) : Bytes := cs.map fun c => BitVec.ofNat 8 c.toNat

/-- The characters of an identity string, for characters from `"` on. -/
def printable (cs : List Char) : List PrintChar := cs.map fun c => Fin.ofNat 94 (c.toNat - 0x21)

/-- The configuration of the vectors: T43's identity strings, T47's metadata text, the illustrative
entries of section 2.4. -/
def testCfg : Params where
  identity :=
    { version := printable ['1', '4'], vendor := printable ['H', 'Y', 'D', 'R', 'O', 'G', 'E', 'O']
      model := printable ['L', 'U', 'M', 'N', 'O', 'X'], fw := printable ['1', '0', '0']
      info := printable ['S', 'N', '0', '0', '0', '1'] }
  reqM := ⟨0⟩
  measTable :=
    [⟨.c, none, ⟨1, 4, ⟨1⟩⟩⟩, ⟨.m, some 1, ⟨1, 0, ⟨2⟩⟩⟩, ⟨.v, none, ⟨0, 0, ⟨3⟩⟩⟩,
     ⟨.ha, none, ⟨2, 4, ⟨4⟩⟩⟩, ⟨.r, some 0, ⟨0, 1, ⟨5⟩⟩⟩]
  ixTable := [⟨0, 3, txt [',', 'O', '2']⟩]
  dbEncode := .lineBytes
  debugEcho := false
  pReq := 6
  rxqCap := 8

/-- "Rest" of the vectors: the state after reset with address `0`, and a known `prevEdge`. -/
def rest : State := { State.resetWith 0x30#8 testCfg [] 0 with prevEdge := 777#32 }

/-- A command string in the buffer and its terminator in the queue. -/
def typed (body : Bytes) (s : State) : State :=
  { s with cmdBuf := bufferOf body, cmdLen := body.length, rxq := [chBang] }

/-- The next state, if there is one. -/
def after : Result → Option State
  | .next s => some s
  | .fault _ => none
  | .refused _ => none

/-- The transmit trace of the next state. -/
def sent (r : Result) : Option (List Frame) := (after r).map (·.trace)

/-- Session state, flags and count of the next state. -/
def session (r : Result) : Option (Session × Bool × Nat) := (after r).map fun t => (t.state, t.active, t.count)

/-- `prevEdge` and the two flags of the next state, as section 2.1 of the vectors writes them. -/
def timing (r : Result) : Option (Nat × Bool × Bool) :=
  (after r).map fun t => (t.prevEdge.toNat, t.waitBreak, t.waitMark)

/-- A line timing state. -/
def timed (p : Nat) (wb wm : Bool) : State :=
  { rest with prevEdge := BitVec.ofNat 32 p, waitBreak := wb, waitMark := wm }

/-- A frame of characters ended by `CRLF`. -/
def line (cs : List Char) : Frame := .ascii (txt cs ++ [0x0D#8, 0x0A#8])

/-- An acquisition in flight in a session state, with a committed count and an answer due. -/
def acquiring (m : Session) (n : Nat) (res : AcqResult) : State :=
  { rest with state := m, active := true, count := n, acq := some ⟨0⟩, inputs := [.answer res] }

/-- Pass-through with one byte queued on the bus and a window. -/
def passing (win : Bytes) (b : Byte) : State :=
  { rest with state := .serialPassthrough, active := true, ptWin := win, rxq := [b] }

/-! ## WellFormed: one ill-formed term for each check -/

theorem smoke_ack : (Instr.ack chBang).wellFormed = false ∧ (Instr.ack chWild).wellFormed = false := by decide
theorem smoke_identify : (Instr.identify chBang).wellFormed = false := by decide
theorem smoke_metadata_address : (Instr.metadata chBang []).wellFormed = false := by decide
theorem smoke_metadata_terminator : (Instr.metadata 0x30#8 [chBang]).wellFormed = false := by decide
theorem smoke_metadata_length :
    (Instr.metadata 0x30#8 (List.replicate 30 0x2C#8)).wellFormed = false := by decide
/-- T69: a run longer than `PARAM_DIGITS`. -/
theorem smoke_metadata_run :
    (Instr.metadata 0x30#8 (txt ['1', '2', '3', '4', '5'])).wellFormed = false := by decide
/-- T73: an illegal new address. -/
theorem smoke_changeAddress :
    (Instr.changeAddress chBang 0x35#8).wellFormed = false
    ∧ (Instr.changeAddress 0x30#8 chWild).wellFormed = false := by decide
/-- T76, T79: the index 0 is no index of M or C. -/
theorem smoke_index_zero :
    (Instr.measureIdx 0x30#8 0).wellFormed = false
    ∧ (Instr.concurrentIdx 0x30#8 0).wellFormed = false := by decide
theorem smoke_address_of_measurements :
    (Instr.measure chBang).wellFormed = false ∧ (Instr.measureIdx chBang 1).wellFormed = false
    ∧ (Instr.measureCrc chBang).wellFormed = false ∧ (Instr.concurrent chBang).wellFormed = false
    ∧ (Instr.concurrentIdx chBang 1).wellFormed = false ∧ (Instr.verify chBang).wellFormed = false
    ∧ (Instr.continuous chBang 0).wellFormed = false ∧ (Instr.highVolumeA chBang).wellFormed = false
    ∧ (Instr.highVolumeB chBang).wellFormed = false := by decide
theorem smoke_address_of_others :
    (Instr.data chBang 0).wellFormed = false ∧ (Instr.byteData chBang 0).wellFormed = false
    ∧ (Instr.extM chBang []).wellFormed = false ∧ (Instr.extU chBang []).wellFormed = false
    ∧ (Instr.passEnter chBang).wellFormed = false := by decide
/-- T91. -/
theorem smoke_extM :
    (Instr.extM 0x30#8 (txt ['1', 'x'])).wellFormed = false
    ∧ (Instr.extM 0x30#8 (txt ['1', '2', '3', '4', '5'])).wellFormed = false := by decide
theorem smoke_extU :
    (Instr.extU 0x30#8 [chBang]).wellFormed = false
    ∧ (Instr.extU 0x30#8 (List.replicate 30 0x61#8)).wellFormed = false := by decide
theorem smoke_unknown_terminator :
    (Instr.unknown [chBang] false).wellFormed = false := by decide
theorem smoke_unknown_known_form : (Instr.unknown (txt ['0', 'M']) false).wellFormed = false := by decide
theorem smoke_unknown_length :
    (Instr.unknown (List.replicate 33 0x5A#8) false).wellFormed = false
    ∧ (Instr.unknown (List.replicate 31 0x5A#8) true).wellFormed = false := by decide

/-! ## Decoding: the words of 30_encoding.md R82, byte by byte -/

theorem test_decode_ack :
    decode .command [0b00110000#8, 0b00100001#8] = .ok (.ack 0x30#8, []) := by decide
theorem test_decode_wildcardQuery :
    decode .command [0b00111111#8, 0b00100001#8] = .ok (.wildcardQuery, []) := by decide
/-- The bytes after the terminator are left. -/
theorem test_decode_identify :
    decode .command [0x7A#8, 0b01001001#8, 0b00100001#8, 0x30#8] = .ok (.identify 0x7A#8, [0x30#8]) := by decide
theorem test_decode_metadata :
    decode .command [0x30#8, 0x49#8, 0x58#8, 0x30#8, 0x2C#8, 0x33#8, 0x21#8]
      = .ok (.metadata 0x30#8 [0x30#8, 0x2C#8, 0x33#8], []) := by decide
theorem test_decode_changeAddress :
    decode .command [0x30#8, 0b01000001#8, 0x7A#8, 0x21#8] = .ok (.changeAddress 0x30#8 0x7A#8, []) := by decide
theorem test_decode_measure :
    decode .command [0x30#8, 0b01001101#8, 0x21#8] = .ok (.measure 0x30#8, []) := by decide
theorem test_decode_measureIdx :
    decode .command [0x30#8, 0x4D#8, 0b00111001#8, 0x21#8] = .ok (.measureIdx 0x30#8 9, []) := by decide
theorem test_decode_measureCrc :
    decode .command [0x30#8, 0x4D#8, 0b01000011#8, 0x21#8] = .ok (.measureCrc 0x30#8, []) := by decide
theorem test_decode_concurrent :
    decode .command [0x30#8, 0b01000011#8, 0x21#8] = .ok (.concurrent 0x30#8, []) := by decide
theorem test_decode_concurrentIdx :
    decode .command [0x30#8, 0x43#8, 0x31#8, 0x21#8] = .ok (.concurrentIdx 0x30#8 1, []) := by decide
theorem test_decode_verify :
    decode .command [0x30#8, 0b01010110#8, 0x21#8] = .ok (.verify 0x30#8, []) := by decide
theorem test_decode_data :
    decode .command [0x30#8, 0b01000100#8, 0x30#8, 0x21#8] = .ok (.data 0x30#8 0, []) := by decide
theorem test_decode_byteData :
    decode .command [0x30#8, 0x44#8, 0b01000010#8, 0x39#8, 0x21#8] = .ok (.byteData 0x30#8 9, []) := by decide
theorem test_decode_continuous :
    decode .command [0x30#8, 0b01010010#8, 0x30#8, 0x21#8] = .ok (.continuous 0x30#8 0, []) := by decide
theorem test_decode_highVolume :
    decode .command [0x30#8, 0b01001000#8, 0x41#8, 0x21#8] = .ok (.highVolumeA 0x30#8, [])
    ∧ decode .command [0x30#8, 0x48#8, 0x42#8, 0x21#8] = .ok (.highVolumeB 0x30#8, []) := by decide
theorem test_decode_extM :
    decode .command [0x30#8, 0b01011000#8, 0x4D#8, 0x34#8, 0x32#8, 0x21#8]
      = .ok (.extM 0x30#8 [0x34#8, 0x32#8], []) := by decide
theorem test_decode_extU :
    decode .command [0x30#8, 0x58#8, 0b01010101#8, 0x61#8, 0x21#8] = .ok (.extU 0x30#8 [0x61#8], []) := by decide
theorem test_decode_passEnter :
    decode .command [0x30#8, 0x58#8, 0b01010000#8, 0x41#8, 0x53#8, 0x21#8]
      = .ok (.passEnter 0x30#8, []) := by decide
/-- R90: `exit!` is the token in pass-through and an unknown command outside it (T95). -/
theorem test_decode_exit :
    decode .passthrough [0x65#8, 0x78#8, 0x69#8, 0x74#8, 0x21#8] = .ok (.exitToken, [])
    ∧ decode .command [0x65#8, 0x78#8, 0x69#8, 0x74#8, 0x21#8]
      = .ok (.unknown [0x65#8, 0x78#8, 0x69#8, 0x74#8] false, []) := by decide
/-- T63; and a stream without a terminator holds no command. -/
theorem test_decode_empty :
    decode .command [0x21#8] = .ok (.unknown [] false, [])
    ∧ decode .command [0x30#8, 0x4D#8] = .error .noTerminator
    ∧ decode .passthrough [0x30#8, 0x4D#8, 0x21#8] = .error .notExitToken := by decide
/-- T52b: 33 bytes overflow the buffer. -/
theorem test_decode_overflow :
    decode .command (txt ['0', 'X', 'U'] ++ List.replicate 30 0x61#8 ++ [0x21#8])
      = .ok (.unknown (txt ['0', 'X', 'U'] ++ List.replicate 29 0x61#8) true, []) := by decide
/-- T69, T70, T73, T76, T79, T80, T82, T84, T86. -/
theorem test_parse_unknown_short :
    ([txt ['0', 'I', 'X', '1', '2', '3', '4', '5'], txt ['0', 'I', 'Y'], txt ['0', 'I', '1'],
      txt ['0', 'A', '?'], txt ['0', 'A'], txt ['0', 'A', '1', '2'], txt ['0', 'M', '0'],
      txt ['0', 'M', '1', '2'], txt ['0', 'M', 'C', '1'], txt ['0', 'C', '0'], txt ['0', 'C', 'C'],
      txt ['0', 'V', '1'], txt ['0', 'D'], txt ['0', 'D', '1', '0'], txt ['0', 'D', 'B'],
      txt ['0', 'D', 'B', 'A'], txt ['0', 'R'], txt ['0', 'R', 'C', '0']]).all
      (fun s => (parse s false).primary == .unknown) = true := by decide
/-- T88, T91, T94, T95, T97, T98. -/
theorem test_parse_unknown_long :
    ([txt ['0', 'H'], txt ['0', 'H', 'C'], txt ['0', 'H', 'A', '1'],
      txt ['0', 'X', 'M', '1', '2', '3', '4', '5'], txt ['0', 'X', 'M', '1', 'x'],
      txt ['0', 'X', 'P', 'A'], txt ['0', 'X', 'P', 'A', 'S', 'S'], txt ['0', 'X'], txt ['0', 'X', 'Q'],
      txt ['0', 'm'], txt ['0', 'Z'], [0x0D#8, 0x0A#8, 0x30#8, 0x4D#8], [0x30#8, 0x4D#8, 0x0D#8]]).all
      (fun s => (parse s false).primary == .unknown) = true := by decide
/-- T66, T68, T90. -/
theorem test_parse_parameters :
    ((parse (txt ['0', 'I', 'X', '0', ',', '3']) false).param1,
      (parse (txt ['0', 'I', 'X', '0', ',', '3']) false).param2) = (0, 3)
    ∧ ((parse (txt ['0', 'I', 'X', '_', '0', '0', '1']) false).param1,
      (parse (txt ['0', 'I', 'X', '_', '0', '0', '1']) false).param2) = (1, -1)
    ∧ (parse (txt ['0', 'X', 'M', '0', '0', '4', '2']) false).param1 = 42
    ∧ (parse (txt ['0', 'X', 'M']) false).param1 = -1 := by decide
/-- The table's words, as it numbers them: `aM!` without address bits, with an address, and `exit!`. -/
theorem test_table_words :
    decodeTableWord 16 0x4D21 = some (.measure 0x00#8)
    ∧ decodeTableWord 24 0x304D21 = some (.measure 0x30#8)
    ∧ decodeTableWord 40 0x6578697421 = some .exitToken
    ∧ decodeTableWord 0 0 = none := by decide
theorem test_withFetchWord_runs_the_word :
    session (step (rest.withFetchWord 24 0x304D21)) = some (.measuring, true, 2)
    ∧ sent (step (rest.withFetchWord 40 0x6578697421)) = some [line ['0']] := by decide

/-! ## The Line Synchronizer -/

/-- T1, T2, T5: the threshold, one below it, and a wrapped counter. -/
theorem test_onEdge_break :
    timing (exec (.onEdge 13000#32 .low) (timed 1000 true true)) = some (13000, false, true)
    ∧ timing (exec (.onEdge 12999#32 .low) (timed 1000 true true)) = some (12999, true, true)
    ∧ timing (exec (.onEdge 0x2000#32 .low) (timed 0xFFFFF000 true true)) = some (0x2000, false, true) := by
  decide
/-- T3, T4, T10: the mark, one below it, and the detection that completes the pair. -/
theorem test_onEdge_mark :
    timing (exec (.onEdge 13333#32 .high) (timed 5000 true true)) = some (13333, true, false)
    ∧ timing (exec (.onEdge 13332#32 .high) (timed 5000 true true)) = some (13332, true, true)
    ∧ timing (exec (.onEdge 112500#32 .low) (timed 100000 true false)) = some (100000, false, false) := by
  decide
/-- P7, step 3. -/
theorem test_breakDetected :
    (after (exec .breakDetected (timed 4096 false true))).map (·.queries)
      = some [.breakDetected true] := by decide
theorem test_markDetected :
    (after (exec .markDetected (timed 4096 false true))).map (·.queries)
      = some [.markDetected false] := by decide
/-- T9. -/
theorem test_resetDetectionFlags :
    timing (exec .resetDetectionFlags (timed 13000 false false)) = some (13000, true, true) := by decide

/-! ## The immediate commands -/

/-- T37 through a step, and T40: another device's command is dropped but re-arms the detectors. -/
theorem test_ack :
    sent (step (typed (txt ['0']) rest)) = some [line ['0']]
    ∧ (after (step (typed (txt ['1', 'M']) (timed 5 false false)))).map
        (fun t => (t.trace, t.state, t.waitBreak, t.waitMark)) = some ([], .lowPower, true, true) := by decide
/-- T38. -/
theorem test_wildcardQuery :
    sent (exec .wildcardQuery { rest with addr := 0x37#8 }) = some [line ['7']] := by decide
/-- T43. -/
theorem test_identify :
    sent (exec (.identify 0x30#8) rest) = some [line ['0', '1', '4', 'H', 'Y', 'D', 'R', 'O', 'G', 'E', 'O',
      'L', 'U', 'M', 'N', 'O', 'X', '1', '0', '0', 'S', 'N', '0', '0', '0', '1']] := by decide
/-- T47: the keys (0, 3) and (1, 3) are one. -/
theorem test_metadata :
    sent (exec (.metadata 0x30#8 (txt ['0', ',', '3'])) rest) = some [line ['0', ',', 'O', '2']]
    ∧ sent (exec (.metadata 0x30#8 (txt ['1', ',', '3'])) rest) = some [line ['0', ',', 'O', '2']] := by decide
/-- T48. -/
theorem test_metadata_missing :
    sent (exec (.metadata 0x30#8 (txt ['7'])) rest) = some [line ['0']] := by decide
/-- T44. -/
theorem test_changeAddress :
    (after (exec (.changeAddress 0x30#8 0x35#8) rest)).map (fun t => (t.addr, t.nvm, t.nvmWrites, t.trace))
      = some (0x35#8, 0x35#8, [0x35#8], [line ['5']]) := by decide
/-- T45. -/
theorem test_changeAddress_same :
    (after (exec (.changeAddress 0x30#8 0x30#8) rest)).map (fun t => (t.addr, t.nvmWrites, t.trace))
      = some (0x30#8, [], [line ['0']]) := by decide
/-- T49. -/
theorem test_data :
    sent (exec (.data 0x30#8 0) { rest with lines := [txt ['+', '1', '.', '5']] })
      = some [line ['0', '+', '1', '.', '5']]
    ∧ sent (exec (.data 0x30#8 9) rest) = some [line ['0']] := by decide
/-- T50 with T33's checksum. -/
theorem test_data_checksum :
    sent (exec (.data 0x30#8 1) { rest with crcLatched := true }) = some [line ['0', 'A', 'P', '@']] := by
  decide +kernel
/-- T51. -/
theorem test_byteData_empty :
    sent (exec (.byteData 0x30#8 0) rest) = some [.binary [0x30#8, 0x00#8, 0x00#8, 0x00#8]] := by decide
/-- T52. -/
theorem test_byteData :
    sent (exec (.byteData 0x30#8 0)
      { rest with crcLatched := true, lines := [txt ['+', '1', '.', '0', '0', '0', '0', '0', '0']] })
      = some [.binary [0x30#8, 0x09#8, 0x00#8, 0x02#8, 0x2B#8, 0x31#8, 0x2E#8, 0x30#8, 0x30#8, 0x30#8,
          0x30#8, 0x30#8, 0x30#8, 0x44#8, 0xE2#8]] := by decide +kernel
/-- R192, R193: the session is at rest afterwards whatever the handler does. -/
theorem test_ext_returns_to_rest :
    (session (exec (.extM 0x30#8 []) rest)).map (·.1) = some .lowPower
    ∧ (session (exec (.extU 0x30#8 []) rest)).map (·.1) = some .lowPower := ⟨by rfl, by rfl⟩
/-- R194: a handler may send one frame and bytes to the sensor. -/
theorem test_ext_effect :
    (applyExt ⟨some (txt ['o', 'k']), [0x01#8]⟩ rest).trace = [line ['0', 'o', 'k']]
    ∧ (applyExt ⟨some (txt ['o', 'k']), [0x01#8]⟩ rest).ptOut = [0x01#8]
    ∧ (applyExt ⟨none, []⟩ rest).trace = [] := by decide
/-- T41, T39, T52b: silence. -/
theorem test_unknown :
    sent (step (typed (txt ['0', 'Z']) rest)) = some []
    ∧ sent (step (typed [] rest)) = some []
    ∧ (after (step { typed (List.replicate 32 0x30#8) rest with cmdOvf := true })).map
        (fun t => (t.trace, t.cmdLen, t.cmdOvf)) = some ([], 0, false) := by decide
/-- T52c: a receive overflow throws the command away. -/
theorem test_overflow_recovery :
    (after (step { typed (txt ['0', 'M']) rest with rxOvf := true })).map
      (fun t => (t.trace, t.rxq, t.cmdLen, t.rxOvf)) = some ([], [], 0, false) := by decide

/-- R66: at the capacity a received byte is lost, and `available()` says so. -/
theorem test_receive_at_capacity :
    (after (step { rest with inputs := [.rxByte 0x30#8], rxq := List.replicate 7 0x31#8 })).map
      (fun t => (t.rxq.length, t.rxOvf)) = some (8, false)
    ∧ (after (step { rest with inputs := [.rxByte 0x30#8], rxq := List.replicate 8 0x31#8 })).map
      (fun t => (t.rxq.length, t.rxOvf)) = some (8, true) := by decide
/-- R31: the characters of identity strings are the printable bytes but `!`. -/
theorem test_printable :
    printByte 0 = 0x20#8 ∧ printByte 1 = 0x22#8 ∧ printByte 93 = 0x7E#8 := by decide

/-! ## Pass-through (P6) -/

theorem test_passEnter :
    (after (exec (.passEnter 0x30#8) rest)).map (fun t => (t.state, t.active, t.trace, t.ptWin))
      = some (.serialPassthrough, true, [], [0x00#8, 0x00#8, 0x00#8, 0x00#8, 0x00#8]) := by decide
/-- A forwarded `!` that ends no token neither re-arms nor sends. -/
theorem test_forwarded_byte :
    (after (step { passing (txt ['O', 'x', 'x', '0', 'M']) chBang with waitBreak := false })).map
      (fun t => (t.state, t.ptOut, t.trace, t.waitBreak))
      = some (.serialPassthrough, [chBang], [], false) := by decide
theorem test_exitToken :
    (after (step { passing (txt ['!', 'e', 'x', 'i', 't']) chBang with waitBreak := false })).map
      (fun t => (t.state, t.ptOut, t.trace, t.waitBreak)) = some (.lowPower, [chBang], [line ['0']], true) := by
  decide
/-- R90: outside pass-through the token is an unknown command, here addressed to this device. -/
theorem test_exitToken_elsewhere :
    (after (exec .exitToken { rest with addr := 0x65#8 })).map (fun t => (t.state, t.trace))
      = some (.lowPower, []) := by decide
theorem test_sensor_byte :
    sent (step { passing [] 0x30#8 with inputs := [.sensorByte 0x2B#8] }) = some [.binary [0x2B#8]] := by decide

/-- R204: an overflow in pass-through empties the queue and keeps the window. -/
theorem test_overflow_in_passthrough :
    (after (step { passing (txt ['x', 'e', 'x', 'i', 't']) chBang with rxOvf := true })).map
      (fun t => (t.state, t.rxq, t.rxOvf, t.ptWin))
      = some (.serialPassthrough, [], false, txt ['x', 'e', 'x', 'i', 't']) := by decide

/-! ## Measurements -/

/-- T53: the acknowledgment. -/
theorem test_measure :
    (after (step (typed (txt ['0', 'M']) rest))).map (fun t => (t.trace, t.state, t.count, t.acqReqs))
      = some ([line ['0', '0', '0', '1', '2']], .measuring, 2, [⟨0⟩]) := by decide
/-- T57. -/
theorem test_measureIdx :
    (after (exec (.measureIdx 0x30#8 1) rest)).map (fun t => (t.trace, t.count, t.acqReqs))
      = some ([line ['0', '0', '0', '1', '1']], 1, [⟨2⟩]) := by decide
/-- T55: no entry. -/
theorem test_measureIdx_missing :
    (after (exec (.measureIdx 0x30#8 3) { rest with count := 1, lines := [txt ['+', '9']] })).map
      (fun t => (t.trace, t.count, t.acqReqs, t.lines.all (· == [])))
      = some ([line ['0', '0', '0', '0', '0']], 0, [], true) := by decide
/-- T60b: the latch is set. -/
theorem test_measureCrc :
    (after (exec (.measureCrc 0x30#8) rest)).map (fun t => (t.trace, t.crcLatched))
      = some ([line ['0', '0', '0', '1', '2']], true) := by decide
/-- T58. -/
theorem test_concurrent :
    (after (exec (.concurrent 0x30#8) rest)).map (fun t => (t.trace, t.state, t.count))
      = some ([line ['0', '0', '0', '1', '0', '5']], .concurrent, 5) := by decide
/-- T56. -/
theorem test_concurrentIdx :
    (after (exec (.concurrentIdx 0x30#8 2) rest)).map (fun t => (t.trace, t.state, t.acqReqs))
      = some ([line ['0', '0', '0', '0', '0', '0']], .lowPower, []) := by decide
/-- T59: the acknowledgment, and the delivery in spite of a break. -/
theorem test_verify :
    (after (exec (.verify 0x30#8) rest)).map (fun t => (t.trace, t.state))
      = some ([line ['0', '0', '0', '0', '1']], .verify)
    ∧ (after (step { acquiring .verify 1 (.ok [1000000]) with waitBreak := false })).map
        (fun t => (t.trace, t.lines.head?))
      = some ([line ['0']], some (txt ['+', '1', '.', '0', '0', '0', '0', '0', '0'])) := by decide +kernel
/-- T60a. -/
theorem test_continuous :
    (after (exec (.continuous 0x30#8 0) rest)).map (fun t => (t.trace, t.state))
      = some ([line ['0', '0', '0', '0', '0', '2']], .continuous) := by decide
/-- T60. -/
theorem test_highVolumeA :
    (after (exec (.highVolumeA 0x30#8) rest)).map (fun t => (t.trace, t.state))
      = some ([line ['0', '0', '0', '2', '0', '5']], .highVolume) := by decide
/-- R239, R223: HB has no entry here. -/
theorem test_highVolumeB :
    (after (exec (.highVolumeB 0x30#8) rest)).map (fun t => (t.trace, t.state))
      = some ([line ['0', '0', '0', '0', '0', '0']], .lowPower) := by decide
/-- P1, step 2. -/
theorem test_delivery :
    (after (step (acquiring .measuring 2 (.ok [20950000, 1013000000])))).map
      (fun t => (t.trace, t.values, t.lines.take 2, t.state))
      = some ([line ['0']], [20950000, 1013000000, 0, 0, 0],
          [txt ['+', '2', '0', '.', '9', '5', '0', '0', '0', '+', '1', '0', '1', '3', '.', '0', '0', '0'], []],
          .lowPower) := by decide +kernel
/-- P3, step 4: a break cancels. -/
theorem test_break_cancels :
    (after (step { acquiring .measuring 2 (.ok [20950000]) with waitBreak := false })).map
      (fun t => (t.trace, t.count, t.state)) = some ([], 0, .lowPower) := by decide
/-- R37, R224: a direct call that is due in the meantime does not erase the break. -/
theorem test_no_call_while_acquiring :
    (after (step { acquiring .measuring 2 (.ok []) with waitBreak := false, inputs := [.rearm] })).map
      (fun t => (t.waitBreak, t.state)) = some (false, .measuring) := by decide
/-- P4, step 4: reselection cancels, and the command found is run. -/
theorem test_reselection_cancels :
    (after (step { acquiring .concurrent 5 (.ok [1, 2, 3, 4, 5]) with
      rxq := txt ['1', 'D', '0', '!', '0', 'D', '0', '!'], lines := [txt ['+', '9']] })).map
      (fun t => (t.trace, t.count, t.state, t.rxq, t.waitBreak))
      = some ([line ['0']], 0, .lowPower, [], true) := by decide
/-- T58: with an empty queue the values are delivered without a service request. -/
theorem test_concurrent_delivers :
    (after (step (acquiring .concurrent 2 (.ok [0, 0])))).map (fun t => (t.trace, t.lines.head?, t.state))
      = some ([], some (txt ['+', '0', '.', '0', '0', '0', '0', '0', '0',
          '+', '0', '.', '0', '0', '0', '0', '0', '0']), .lowPower) := by decide +kernel
/-- T54, T54a, T54b. -/
theorem test_normalise :
    normalise .timeout 2 = [0, 0] ∧ normalise (.ok [-5250000]) 2 = [-5250000, 0]
    ∧ normalise (.ok [1, 2, 3]) 2 = [1, 2] := by decide

/-! ## The Response Encoder -/

/-- T15, T17, T18, T20, T21. -/
theorem test_formatValue_plain :
    formatValue 6 0 = some (txt ['+', '0', '.', '0', '0', '0', '0', '0', '0'])
    ∧ formatValue 6 (-5250000) = some (txt ['-', '5', '.', '2', '5', '0', '0', '0', '0'])
    ∧ formatValue 6 20950000 = some (txt ['+', '2', '0', '.', '9', '5', '0', '0', '0'])
    ∧ formatValue 6 1234567000000 = some (txt ['+', '1', '2', '3', '4', '5', '6', '7'])
    ∧ formatValue 6 123456780000 = some (txt ['+', '1', '2', '3', '4', '5', '6', '.', '8']) := by decide +kernel
/-- T22, T23, T24, T24a. -/
theorem test_formatValue_ties :
    formatValue 6 99999999 = some (txt ['+', '1', '0', '0', '.', '0', '0', '0', '0'])
    ∧ formatValue 6 99999994 = some (txt ['+', '9', '9', '.', '9', '9', '9', '9', '9'])
    ∧ formatValue 6 99999995 = some (txt ['+', '1', '0', '0', '.', '0', '0', '0', '0'])
    ∧ formatValue 6 (-12345675) = some (txt ['-', '1', '2', '.', '3', '4', '5', '6', '8']) := by decide +kernel
/-- T24b, T24c, T24d, T24e. -/
theorem test_formatValue_range :
    formatValue 6 999999950000 = some (txt ['+', '1', '0', '0', '0', '0', '0', '0'])
    ∧ formatValue 6 9999999499999 = some (txt ['+', '9', '9', '9', '9', '9', '9', '9'])
    ∧ formatValue 6 9999999500000 = none
    ∧ formatValue 6 (-1) = some (txt ['-', '0', '.', '0', '0', '0', '0', '0', '1']) := by decide +kernel
/-- T24g, T24h, T24i: `P_REQ` at work. -/
theorem test_formatValue_precision :
    formatValue 0 1000000 = some (txt ['+', '1']) ∧ formatValue 3 1000000 = some (txt ['+', '1', '.', '0', '0', '0'])
    ∧ formatValue 4 3141593 = some (txt ['+', '3', '.', '1', '4', '1', '6'])
    ∧ formatValue 0 (-400000) = some (txt ['-', '0']) := by decide +kernel
/-- T25, T27: the lengths of the lines. -/
theorem test_pack_splits :
    (pack 6 35 [20950000, 1013000000, 25300000, 209500000, 0]).map (List.map List.length)
      = some [27, 18, 0, 0, 0, 0, 0, 0, 0, 0]
    ∧ (pack 6 35 (List.replicate 5 1234567000000)).map (List.map List.length)
      = some [32, 8, 0, 0, 0, 0, 0, 0, 0, 0] := by decide +kernel
/-- T26, T29. -/
theorem test_pack_wide :
    (pack 6 75 [20950000, 1013000000, 25300000, 209500000, 0]).map (List.map List.length)
      = some [45, 0, 0, 0, 0, 0, 0, 0, 0, 0]
    ∧ pack 6 35 [] = some (List.replicate 10 []) := by decide +kernel
/-- T30, T31. -/
theorem test_crc :
    crc16 (txt ['0', '+', '3', '.', '1', '4']) = 0xFC5A#16
    ∧ crcAscii (txt ['0', '+', '1', '.', '0']) = txt ['I', 'l', 'E'] := by decide +kernel
/-- T36. -/
theorem test_crc_backquote :
    crcAscii (txt ['0', '+', '0', '.', '0', '0', '0', '0', '0', '0', '+', '0', '.', '0', '0', '0', '0', '0', '0'])
      = [0x43#8, 0x60#8, 0x78#8] := by decide +kernel

/-! ## Reset -/

/-- R321: a stored byte that is no legal address gives address `0`, and is kept. -/
theorem test_reset_address :
    (State.resetWith 0xFF#8 testCfg [] 0).addr = 0x30#8 ∧ (State.resetWith 0xFF#8 testCfg [] 0).nvm = 0xFF#8
    ∧ (State.resetWith 0x7A#8 testCfg [] 0).addr = 0x7A#8 := by decide
/-- R39: with nothing received the machine idles. -/
theorem test_reset_idles : step State.reset = .next State.reset := by rfl

/-! ## Witnesses: a state and operands that meet the hypotheses of each statement -/

/-- A foreground step is due, with a queue. -/
def polling (q : Bytes) : State := { rest with inputs := [.poll], rxq := q }

/-- A state with an input due. -/
def due (e : Input) : State := { rest with inputs := [e] }

/-- EdgeThresholdsAreInclusive, at the boundary of both clauses on both sides. -/
theorem witness_edge_thresholds :
    rest.waitBreak = true ∧ rest.waitMark = true
    ∧ timing (exec (.onEdge 12777#32 .low) rest) = some (12777, false, true)
    ∧ timing (exec (.onEdge 12776#32 .low) rest) = some (12776, true, true)
    ∧ timing (exec (.onEdge 9110#32 .high) rest) = some (9110, true, false)
    ∧ timing (exec (.onEdge 9109#32 .high) rest) = some (9109, true, true) := by decide

/-- DetectionIsExactFromAnArmedEdge. -/
theorem witness_armed_edge : rest.waitBreak = true ∧ rest.waitMark = true := by decide

/-- DetectionsStandUntilRearmed: by a call, by a reset, by a terminator, by `exit!` and by reselection. -/
theorem witness_rearmed :
    (∃ t, step { due .rearm with waitBreak := false } = .next t ∧ t.waitBreak = true)
    ∧ (∃ t, step { due .reset with waitMark := false } = .next t ∧ t.waitMark = true)
    ∧ (∃ t, step { polling [chBang] with waitBreak := false, waitMark := false } = .next t
        ∧ t.waitBreak = true ∧ t.waitMark = true)
    ∧ (∃ t, step { passing (txt ['!', 'e', 'x', 'i', 't']) chBang with waitBreak := false } = .next t
        ∧ t.waitBreak = true)
    ∧ ∃ t, step { acquiring .concurrent 2 .timeout with rxq := txt ['1', '!', '0'], waitBreak := false } = .next t
        ∧ t.waitBreak = true :=
  ⟨⟨_, rfl, rfl⟩, ⟨_, rfl, rfl⟩, ⟨_, rfl, rfl, rfl⟩, ⟨_, rfl, rfl⟩, ⟨_, rfl, rfl⟩⟩

/-- ForegroundNeverObservesPrevEdge. -/
theorem witness_foreground :
    (∀ ts lvl, (due .poll).inputs.head? ≠ some (.edge ts lvl))
    ∧ (due .poll).inputs.head? ≠ some .reset :=
  ⟨fun _ _ h => (by cases h), by decide⟩

/-- DecodeOfEncode, StepRunsTheHeldCommand. -/
theorem witness_command :
    (Instr.extM 0x7A#8 (txt ['9', '9', '9', '9'])).wellFormed = true
    ∧ (Instr.extM 0x7A#8 (txt ['9', '9', '9', '9'])).isCommand = true
    ∧ (Instr.unknown (List.replicate 32 0x30#8) true).wellFormed = true := by decide

/-- EncodeOfDecode, at the capacity of the buffer. -/
theorem witness_string : chBang ∉ List.replicate 32 0x30#8 ∧ (List.replicate 32 (0x30#8 : Byte)).length ≤ 32 := by
  decide

/-- UnknownExactlyOutsideTheGrammar: strings on both sides. -/
theorem witness_grammar :
    isKnownForm (txt ['0', 'M', '9']) = true ∧ isKnownForm (txt ['0', 'M', '0']) = false := by decide

/-- ParserGuarantees: its inner premises. -/
theorem witness_parser :
    (parse (txt ['0', 'A', 'z']) false).primary = .changeAddress
    ∧ (parse (txt ['0', 'M', 'C']) false).crcRequested = true := by decide

/-- StepRunsTheHeldCommand: both ways to poll, and the bytes of a command held. -/
theorem witness_held_command :
    (∃ (t : State) (i : Instr), t.inputs = [] ∧ t.state = .lowPower ∧ t.rxOvf = false ∧ t.rxq = chBang :: []
      ∧ i.wellFormed = true ∧ i.isCommand = true ∧ t.cmdLen ≤ 32 ∧ t.cmdOvf = false
      ∧ t.cmdBuf.take t.cmdLen ++ [chBang] = encode i)
    ∧ ∃ (t : State) (i : Instr), t.inputs = .poll :: [] ∧ t.state = .lowPower ∧ t.rxOvf = false
      ∧ t.rxq = chBang :: [] ∧ i.wellFormed = true ∧ i.isCommand = true ∧ t.cmdLen ≤ 32 ∧ t.cmdOvf = false
      ∧ t.cmdBuf.take t.cmdLen ++ [chBang] = encode i :=
  ⟨⟨typed (txt ['0', 'M']) rest, .measure 0x30#8, by decide⟩,
   ⟨{ typed (List.replicate 32 0x30#8) rest with inputs := [.poll] }, .unknown (List.replicate 32 0x30#8) false,
    by decide⟩⟩

/-- StepForwardsBusBytesAndRunsTheToken: with and without the token. -/
theorem witness_forwarding :
    (passing (txt ['!', 'e', 'x', 'i', 't']) chBang).inputs = []
    ∧ (passing (txt ['!', 'e', 'x', 'i', 't']) chBang).state = .serialPassthrough
    ∧ (passing (txt ['!', 'e', 'x', 'i', 't']) chBang).rxOvf = false
    ∧ (passing (txt ['!', 'e', 'x', 'i', 't']) chBang).rxq = chBang :: []
    ∧ (passing (txt ['!', 'e', 'x', 'i', 't']) chBang).ptWin.drop 1 ++ [chBang] = exitBytes
    ∧ (passing (txt ['!', 'e', 'x', 'i', 'u']) chBang).ptWin.drop 1 ++ [chBang] ≠ exitBytes := by decide

/-- FormsParse: its inner premises, at the ends of their ranges. -/
theorem witness_forms :
    (0x59#8 : Byte) ≠ 0x58#8
    ∧ 0x31 ≤ (0x31#8 : Byte).toNat ∧ (0x31#8 : Byte).toNat ≤ 0x39 ∧ (0x39#8 : Byte).toNat ≤ 0x39
    ∧ 0x30 ≤ (0x30#8 : Byte).toNat ∧ (0x30#8 : Byte).toNat ≤ 0x39 := by decide

/-- StepRunsLineSynchronizerCalls: each call at rest, and in a state where it does not happen. -/
theorem witness_calls :
    (due (.edge 5#32 .low)).inputs = .edge 5#32 .low :: []
    ∧ (∀ e, (due e).inputs = e :: [] ∧ (due e).state = .lowPower)
    ∧ (∀ e, ({ passing [] chBang with inputs := [e] } : State).inputs = e :: []
      ∧ ({ passing [] chBang with inputs := [e] } : State).state ≠ .lowPower) :=
  ⟨rfl, fun _ => ⟨rfl, rfl⟩, fun _ => ⟨rfl, Session.noConfusion⟩⟩

/-- ReceptionOfBytesAndOverflow: the last byte with room, the first without, an overflow at rest and in
pass-through, the last byte below the capacity of the queue, the first at it, and a signalled overflow. -/
theorem witness_reception :
    (∃ t : State, t.inputs = .poll :: [] ∧ t.state = .lowPower ∧ t.rxOvf = false ∧ t.rxq = 0x30#8 :: []
      ∧ (0x30#8 : Byte) ≠ chBang ∧ t.cmdLen = 31)
    ∧ (∃ t : State, t.inputs = .poll :: [] ∧ t.state = .lowPower ∧ t.rxOvf = false ∧ t.rxq = 0x30#8 :: []
      ∧ (0x30#8 : Byte) ≠ chBang ∧ t.cmdLen = 32)
    ∧ (∃ t : State, t.inputs = .poll :: [] ∧ t.state = .lowPower ∧ t.rxOvf = true)
    ∧ (∃ t : State, t.inputs = .poll :: [] ∧ t.state = .serialPassthrough ∧ t.rxOvf = true)
    ∧ (∃ t : State, t.inputs = .rxByte 0x30#8 :: [] ∧ t.rxq.length + 1 = t.cfg.rxqCap)
    ∧ (∃ t : State, t.inputs = .rxByte 0x30#8 :: [] ∧ t.rxq.length = t.cfg.rxqCap)
    ∧ ∃ t : State, t.inputs = .rxOverflow :: [] :=
  ⟨⟨{ polling [0x30#8] with cmdLen := 31 }, by decide⟩, ⟨{ polling [0x30#8] with cmdLen := 32 }, by decide⟩,
   ⟨{ polling [0x30#8] with rxOvf := true }, by decide⟩,
   ⟨{ passing [] chBang with inputs := [.poll], rxOvf := true }, by decide⟩,
   ⟨{ due (.rxByte 0x30#8) with rxq := List.replicate 7 0x31#8 }, by decide⟩,
   ⟨{ due (.rxByte 0x30#8) with rxq := List.replicate 8 0x31#8 }, by decide⟩, ⟨due .rxOverflow, by decide⟩⟩

/-- UnaddressedCommandIsDiscarded. -/
theorem witness_unaddressed :
    ∃ t : State, (Instr.measure 0x31#8).isCommand = true ∧ (Instr.measure 0x31#8).address? = some 0x31#8
      ∧ 0x31#8 ≠ rest.addr ∧ (0x31#8 : Byte) ≠ chWild
      ∧ t.inputs = .poll :: [] ∧ t.state = .lowPower ∧ t.rxOvf = false ∧ t.rxq = chBang :: []
      ∧ t.addr = rest.addr ∧ decodeCommand (t.cmdBuf.take t.cmdLen) t.cmdOvf = .measure 0x31#8 :=
  ⟨{ typed (txt ['1', 'M']) rest with inputs := [.poll] }, by decide⟩

/-- AcknowledgeReply, IdentifyReply, ChangeAddressEffect, DataReply, ByteDataReply,
ExtendedCommandsKeepTheBounds, PassEnterEffect, PlainMeasureAnswersOneSecondTwoValues, CancelEffect: the own
address and the wildcard. -/
theorem witness_addressed : (0x30#8 = rest.addr ∨ (0x30#8 : Byte) = 0x3F#8)
    ∧ (0x3F#8 = rest.addr ∨ (0x3F#8 : Byte) = 0x3F#8) := by decide

/-- ByteDataPayload. -/
theorem witness_payload :
    rest.lines.getD 10 [] = [] ∧ rest.lines.getD 0 [] = []
    ∧ ({ rest with lines := [txt ['+', '1']] } : State).lines.getD 0 [] ≠ []
    ∧ rest.cfg.dbEncode = .lineBytes := by decide

/-- MetadataReply. -/
theorem witness_metadata : digitRuns (txt ['1', ',', '3']) = some (1, 3) ∧ digitRuns [] = some (-1, -1) := by
  decide

/-- ExtendedCommandsKeepTheBounds: its two inner premises. -/
theorem witness_handler :
    (∃ e, e = Config.extHandler .extM (if ([] : Bytes) = [] then -1 else (decimalValue [] : Int)) [])
    ∧ ∃ e, e = Config.extHandler .extU (-1) [] := ⟨⟨_, rfl⟩, ⟨_, rfl⟩⟩

/-- UnknownCommandEffect, with debug echo off and on. -/
theorem witness_unknown :
    (∃ s : State, (txt ['0', 'Z']).headD 0x00#8 = s.addr ∧ s.cfg.debugEcho = false)
    ∧ ∃ s : State, (txt ['?', 'Z']).headD 0x00#8 = 0x3F#8 ∧ s.cfg.debugEcho = true :=
  ⟨⟨rest, by decide⟩, ⟨{ rest with cfg := { testCfg with debugEcho := true } }, by decide⟩⟩

/-- ExitTokenEffect, SensorByteEffect: in pass-through and out of it. -/
theorem witness_passthrough :
    (∃ s : State, s.inputs = .sensorByte 0x2B#8 :: [] ∧ s.state = .serialPassthrough)
    ∧ ∃ s : State, s.inputs = .sensorByte 0x2B#8 :: [] ∧ s.state ≠ .serialPassthrough :=
  ⟨⟨{ passing [] chBang with inputs := [.sensorByte 0x2B#8] }, by decide⟩, ⟨due (.sensorByte 0x2B#8), by decide⟩⟩

/-- PassThroughEndsOnlyByExit: by the token and by a reset. -/
theorem witness_pass_exit :
    (∃ t, step (passing (txt ['!', 'e', 'x', 'i', 't']) chBang) = .next t
      ∧ (passing (txt ['!', 'e', 'x', 'i', 't']) chBang).state = .serialPassthrough
      ∧ t.state ≠ .serialPassthrough)
    ∧ ∃ t, step { passing [] chBang with inputs := [.reset] } = .next t ∧ t.state ≠ .serialPassthrough :=
  ⟨⟨_, rfl, rfl, by decide⟩, ⟨_, rfl, by decide⟩⟩

/-- MeasurementIsAcknowledged: a form of each class that has an entry. -/
theorem witness_entry :
    measurementForm (.measureCrc 0x30#8) = some (0x30#8, .m, none, true)
    ∧ (measTable rest.cfg .m none).isSome = true
    ∧ measurementForm (.concurrent 0x30#8) = some (0x30#8, .c, none, false)
    ∧ (measTable rest.cfg .c none).isSome = true
    ∧ measurementForm (.continuous 0x30#8 0) = some (0x30#8, .r, some 0, false)
    ∧ (measTable rest.cfg .r (some 0)).isSome = true
    ∧ measurementForm (.highVolumeA 0x30#8) = some (0x30#8, .ha, none, false)
    ∧ (measTable rest.cfg .ha none).isSome = true
    ∧ measurementForm (.verify 0x3F#8) = some (0x3F#8, .v, none, false)
    ∧ (measTable rest.cfg .v none).isSome = true
    ∧ measurementForm (.highVolumeB 0x30#8) = some (0x30#8, .hb, none, false)
    ∧ (measTable { testCfg with measTable := [⟨.hb, none, ⟨2, 4, ⟨4⟩⟩⟩] } .hb none).isSome = true :=
  ⟨rfl, rfl, rfl, rfl, rfl, rfl, rfl, rfl, rfl, rfl, rfl, rfl⟩

/-- MissingEntryIsZeroCount. -/
theorem witness_no_entry :
    measurementForm (.highVolumeB 0x30#8) = some (0x30#8, .hb, none, false)
    ∧ measTable rest.cfg .hb none = none
    ∧ measurementForm (.measureIdx 0x30#8 9) = some (0x30#8, .m, some 9, false)
    ∧ measTable rest.cfg .m (some 9) = none := by decide

/-- AcquisitionBlocksTheForeground. -/
theorem witness_blocked :
    isAcquiring (acquiring .verify 1 .timeout).state = true
    ∧ ({ acquiring .verify 1 .timeout with inputs := [.rearm] } : State).inputs = .rearm :: []
    ∧ ({ acquiring .verify 1 .timeout with inputs := [.rxByte 0x30#8] } : State).inputs
        = .rxByte 0x30#8 :: []
    ∧ (acquiring .verify 1 .timeout).rxq.length < (acquiring .verify 1 .timeout).cfg.rxqCap
    ∧ ∃ t, step { acquiring .measuring 1 .timeout with inputs := [.edge 12777#32 .low] } = .next t
        ∧ t.waitBreak = false := ⟨rfl, rfl, rfl, by decide, _, rfl, rfl⟩

/-- AcknowledgmentIsACommitment: a delivery in each kind of state. -/
theorem witness_commitment :
    (∃ t, step (acquiring .measuring 2 (.ok [7])) = .next t
      ∧ t.count = 2 ∧ (acquiring .measuring 2 (.ok [7])).waitBreak = true)
    ∧ (∃ t, step (acquiring .verify 5 .timeout) = .next t ∧ t.count = 5)
    ∧ (∃ t, step (acquiring .continuous 1 (.ok [7])) = .next t ∧ t.count = 1)
    ∧ (∃ t, step (acquiring .highVolume 1 (.ok [7, 8])) = .next t ∧ t.count = 1)
    ∧ (∃ (s t : State), isAcquiring s.state = true ∧ s.inputs.head? ≠ some .reset ∧ step s = .next t
        ∧ ∀ res, s.inputs.head? ≠ some (.answer res))
    ∧ ∃ t, step { acquiring .concurrent 1 (.ok [7]) with rxq := txt ['1', 'M', '!'] } = .next t ∧ t.count = 1
        ∧ (reselect { acquiring .concurrent 1 (.ok [7]) with rxq := txt ['1', 'M', '!'] }).1 = none :=
  ⟨⟨_, rfl, by rfl, by rfl⟩, ⟨_, rfl, by rfl⟩, ⟨_, rfl, by rfl⟩, ⟨_, rfl, by rfl⟩,
   ⟨{ acquiring .concurrent 1 .timeout with inputs := [.rearm] }, _, rfl, by decide, rfl, fun _ h => by cases h⟩, ⟨_, rfl, by rfl, by rfl⟩⟩

/-- BreakCancelsAMeasurement. -/
theorem witness_break :
    ({ acquiring .measuring 2 .timeout with waitBreak := false } : State).inputs = .answer .timeout :: []
    ∧ ({ acquiring .measuring 2 .timeout with waitBreak := false } : State).state = .measuring := by decide

/-- PlainMeasurementDelivers, at the largest legal magnitude. -/
theorem witness_plain :
    (∃ s : State, s.inputs = .answer (.ok [-9999999499999]) :: [] ∧ s.state = .measuring ∧ s.waitBreak = true
      ∧ ∀ m ∈ normalise (.ok [-9999999499999]) s.count, m.natAbs < 9999999500000)
    ∧ ∃ s : State, s.inputs = .answer .timeout :: [] ∧ s.state = .verify
      ∧ ∀ m ∈ normalise .timeout s.count, m.natAbs < 9999999500000 :=
  ⟨⟨acquiring .measuring 1 (.ok [-9999999499999]), by decide⟩, ⟨acquiring .verify 5 .timeout, by decide⟩⟩

/-- WideMeasurementDelivers. -/
theorem witness_wide :
    ∀ m : Session, m = .continuous ∨ m = .highVolume ∨ m = .concurrent →
      (acquiring m 2 (.ok [9999999499999])).inputs = .answer (.ok [9999999499999]) :: []
      ∧ (acquiring m 2 (.ok [9999999499999])).state = m ∧ (acquiring m 2 (.ok [9999999499999])).rxq = []
      ∧ (acquiring m 2 (.ok [9999999499999])).rxOvf = false
      ∧ ∀ v ∈ normalise (.ok [9999999499999]) (acquiring m 2 (.ok [9999999499999])).count,
          v.natAbs < 9999999500000 := by
  rintro m (rfl | rfl | rfl) <;> decide

/-- ConcurrentAnswerConsumesTheQueue: a byte, a command for another device, one for this device by either
address, and an overflow. -/
theorem witness_queue :
    (∃ s : State, s.inputs = .answer .timeout :: [] ∧ s.state = .concurrent ∧ s.rxOvf = false
      ∧ s.rxq = 0x30#8 :: [] ∧ (0x30#8 : Byte) ≠ chBang)
    ∧ (∃ s : State, s.inputs = .answer .timeout :: [] ∧ s.state = .concurrent ∧ s.rxOvf = false
      ∧ s.rxq = chBang :: []
      ∧ (decodeCommand (s.cmdBuf.take s.cmdLen) s.cmdOvf).address? = some 0x31#8
      ∧ 0x31#8 ≠ s.addr ∧ (0x31#8 : Byte) ≠ chWild)
    ∧ (∃ s : State, s.inputs = .answer .timeout :: [] ∧ s.state = .concurrent ∧ s.rxOvf = false
      ∧ s.rxq = chBang :: []
      ∧ (decodeCommand (s.cmdBuf.take s.cmdLen) s.cmdOvf).address? = some 0x30#8 ∧ 0x30#8 = s.addr)
    ∧ ∃ s : State, s.inputs = .answer .timeout :: [] ∧ s.state = .concurrent ∧ s.rxOvf = true :=
  ⟨⟨{ acquiring .concurrent 2 .timeout with rxq := [0x30#8] }, by decide⟩,
   ⟨typed (txt ['1', 'D', '0']) (acquiring .concurrent 2 .timeout), by decide⟩,
   ⟨typed (txt ['0', 'D', '0']) (acquiring .concurrent 2 .timeout), by decide⟩,
   ⟨{ acquiring .concurrent 2 .timeout with rxOvf := true }, by decide⟩⟩

/-- OutOfRangeDeliveryIsRefused, at the smallest magnitude that is out of range. -/
theorem witness_out_of_range :
    ∀ m : Session, m = .measuring ∨ m = .verify ∨ m = .continuous ∨ m = .highVolume ∨ m = .concurrent →
      (reselect (acquiring m 1 (.ok [9999999500000]))).1 = none
      ∧ (acquiring m 1 (.ok [9999999500000])).inputs = .answer (.ok [9999999500000]) :: []
      ∧ (acquiring m 1 (.ok [9999999500000])).state = m
      ∧ (acquiring m 1 (.ok [9999999500000])).waitBreak = true
      ∧ ∃ v ∈ normalise (.ok [9999999500000]) (acquiring m 1 (.ok [9999999500000])).count,
          9999999500000 ≤ v.natAbs := by
  rintro m (rfl | rfl | rfl | rfl | rfl) <;> decide

/-- OnlyAnUnrequestedAnswerFaults: a state that faults. -/
theorem witness_unrequested :
    step (due (.answer .timeout)) = .fault .answerWithoutRequest
    ∧ isAcquiring (due (.answer .timeout)).state = false := ⟨rfl, by decide⟩

/-- MeasurementStatesReturnToRest: a measurement that goes on, and one that ends. -/
theorem witness_measuring :
    (∃ t, step { acquiring .measuring 1 .timeout with inputs := [] } = .next t ∧ t.state = .measuring)
    ∧ (∃ t, step (acquiring .concurrent 1 .timeout) = .next t ∧ t.state = .lowPower)
    ∧ isAcquiring (acquiring .concurrent 1 .timeout).state = true
    ∧ (reselect (acquiring .concurrent 1 .timeout)).1 = none :=
  ⟨⟨_, rfl, rfl⟩, ⟨_, rfl, rfl⟩, by decide, by decide⟩

/-- RestIsLeftOnlyAtATerminator. -/
theorem witness_rest_left :
    ∃ t, step (typed (txt ['0', 'M']) rest) = .next t ∧ rest.state = .lowPower ∧ t.state ≠ .lowPower :=
  ⟨_, rfl, rfl, by decide⟩

/-- FormatValueIsNearestThatFits. -/
theorem witness_format : formatValue 6 9999999499999 = some (txt ['+', '9', '9', '9', '9', '9', '9', '9']) := by
  decide +kernel

/-- PackGuarantees, PackIsGreedy. -/
theorem witness_pack :
    9 < 35 ∧ [0, 1013000000].length ≤ 10 ∧ (pack 6 35 [0, 1013000000]).isSome = true
    ∧ (List.replicate 9 (txt ['+', '0'])).length < 10 := by decide +kernel

/-- ChecksumDetectsAnAlteredByte (T32). -/
theorem witness_altered : (0x30#8 : Byte) ≠ 0x31#8 := by decide

/-- StepKeepsTheInvariants, LegalStepsNeverStop: a state in the middle of a measurement. -/
theorem witness_invariants :
    (acquiring .measuring 2 (.ok [1, 2])).Inv ∧ (acquiring .measuring 2 (.ok [1, 2])).inputLegal = true
    ∧ ∃ t, step (acquiring .measuring 2 (.ok [1, 2])) = .next t :=
  ⟨⟨⟨by decide, by decide, by decide, by decide, by decide, by decide⟩,
    by decide, by decide, by decide, by decide, by decide, by decide, by decide, by decide⟩, by decide, ⟨_, rfl⟩⟩

/-- ResetInputEffect. -/
theorem witness_reset : (due .reset).inputs = .reset :: [] := by decide

/-- StoreWrittenOnlyByAChangeOfAddress: an instruction that writes the store, and a step. -/
theorem witness_store :
    isAlnum 0x7A#8 = true ∧ (∃ t, exec (.changeAddress 0x30#8 0x7A#8) rest = .next t ∧ t.nvm = 0x7A#8)
    ∧ ∃ t, step (typed (txt ['?', 'A', 'z']) rest) = .next t ∧ t.nvm ≠ rest.nvm :=
  ⟨by decide, ⟨_, rfl, rfl⟩, ⟨_, rfl, by decide⟩⟩

/-- FramesCarryTheOwnAddress, ChecksumLatchFollowsTheLastMeasurement: for this device, for another one, and
an instruction that is no measurement. -/
theorem witness_frames :
    rest.cfg.debugEcho = false
    ∧ measurementForm (.measure 0x31#8) = some (0x31#8, .m, none, false) ∧ 0x31#8 ≠ rest.addr
    ∧ measurementForm (.ack 0x30#8) = none
    ∧ ∃ t, exec (.measureCrc 0x30#8) rest = .next t ∧ t.crcLatched = true ∧ t.trace ≠ rest.trace :=
  ⟨by decide, rfl, by decide, rfl, _, rfl, rfl, by decide⟩

end Sys2Proof.Tests
end

