-- ==== Sys2Proof/Proofs/ParserForms.lean ====
section
/-! The records `parse` gives, form by form (41_parser.md R142 to R156). A string whose bytes after the
address are known evaluates through the arms of `parse`; a digit is read off its character class. -/

namespace Sys2Proof.Proofs.ParserForms

open Sys2Proof

/-! ### Digit classes by their bounds (R11) -/

theorem isDigit_iff {c : Byte} : isDigit c = true ↔ 0x30 ≤ c.toNat ∧ c.toNat ≤ 0x39 := by
  simp only [isDigit, Bool.and_eq_true, decide_eq_true_eq]

theorem isDigit19_iff {c : Byte} : isDigit19 c = true ↔ 0x31 ≤ c.toNat ∧ c.toNat ≤ 0x39 := by
  simp only [isDigit19, Bool.and_eq_true, decide_eq_true_eq]

/-- On a digit, `dv` takes no remainder. -/
theorem dv_val_of_isDigit {c : Byte} (h : isDigit c = true) : ((dv c).val : Int) = (c.toNat : Int) - 0x30 := by
  rw [isDigit_iff] at h
  simp only [dv, Fin.val_ofNat]
  omega

/-! ### The forms with a byte that varies

The second byte is fixed, so `simp +decide` settles every test on it; the test on the byte that varies is
the hypothesis. -/

/-- `aI` goes on only with `X` (R143, R160). -/
theorem parse_identify_other (a : Byte) {x : Byte} (e : Bytes) (h : x ≠ chX) :
    parse (a :: chI :: x :: e) false = Command.default a := by
  simp +decide [parse, h]

theorem parse_measureIdx (a : Byte) {x : Byte} (h : isDigit19 x = true) :
    parse [a, chM, x] false =
      { Command.default a with primary := .measure, param1 := (x.toNat : Int) - 0x30 } := by
  rw [← dv_val_of_isDigit (isDigit_of_isDigit19 h)]
  simp +decide [parse, h]

theorem parse_concurrentIdx (a : Byte) {x : Byte} (h : isDigit19 x = true) :
    parse [a, chC, x] false =
      { Command.default a with primary := .concurrent, param1 := (x.toNat : Int) - 0x30 } := by
  rw [← dv_val_of_isDigit (isDigit_of_isDigit19 h)]
  simp +decide [parse, h]

theorem parse_data (a : Byte) {x : Byte} (h : isDigit x = true) :
    parse [a, chD, x] false =
      { Command.default a with primary := .data, param1 := (x.toNat : Int) - 0x30 } := by
  rw [← dv_val_of_isDigit h]
  simp +decide [parse, h]

theorem parse_byteData (a : Byte) {x : Byte} (h : isDigit x = true) :
    parse [a, chD, chB, x] false =
      { Command.default a with primary := .data, secondary := chB, param1 := (x.toNat : Int) - 0x30 } := by
  rw [← dv_val_of_isDigit h]
  simp +decide [parse, h]

theorem parse_continuous (a : Byte) {x : Byte} (h : isDigit x = true) :
    parse [a, chR, x] false =
      { Command.default a with primary := .continuous, param1 := (x.toNat : Int) - 0x30 } := by
  rw [← dv_val_of_isDigit h]
  simp +decide [parse, h]

/-- Settles O60: a string of known bytes evaluates through the arms of `parse`; the six forms with a byte
that varies are the lemmas above. -/
theorem formsParse : Obligations.FormsParse := by
  unfold Obligations.FormsParse
  intro a x e
  exact
    ⟨rfl,                                                                             -- R142
     rfl, parse_identify_other a e,                                                   -- R143
     rfl, fun h1 h9 => parse_measureIdx a (isDigit19_iff.2 ⟨h1, h9⟩), rfl,            -- R146, R147
     rfl, fun h1 h9 => parse_concurrentIdx a (isDigit19_iff.2 ⟨h1, h9⟩), rfl, rfl,    -- R149, R150
     rfl, rfl,                                                                        -- R151
     fun h0 h9 => parse_data a (isDigit_iff.2 ⟨h0, h9⟩), rfl, rfl,                    -- R152
     fun h0 h9 => parse_byteData a (isDigit_iff.2 ⟨h0, h9⟩), rfl,                     -- R153
     fun h0 h9 => parse_continuous a (isDigit_iff.2 ⟨h0, h9⟩), rfl,                   -- R154
     rfl, rfl, rfl, rfl⟩                                                              -- R155, R156

end Sys2Proof.Proofs.ParserForms
end

