-- ==== Sys2Proof/Proofs/AddressReply.lean ====
section
/-! The address reply of `a!` and `?!` (42_session_basic.md R188): the gate lets both run, and what runs
sends the device's own address, whichever address byte the command carried. -/

namespace Sys2Proof.Proofs.AddressReply

open Sys2Proof Sys2Proof.Machine

/-- The handler reads the address from the state, and its return to rest overwrites the activation. -/
theorem doAck_activate (s : State) :
    doAck (activate s) = { s with
      trace := s.trace ++ [.ascii (s.addr :: crlf)], active := false, state := .lowPower } := rfl

theorem exec_ack_of_addressed {a : Byte} {s : State} (h : a = s.addr ∨ a = chWild) :
    exec (.ack a) s = .next (doAck (activate s)) :=
  congrArg Host.Outcome.next (gate_of_addressed doAck h)

theorem exec_wildcardQuery (s : State) : exec .wildcardQuery s = .next (doAck (activate s)) :=
  congrArg Host.Outcome.next (gate_of_addressed doAck (.inr rfl))

/-- Settles O18: both commands pass the gate, and the handler's effect is `doAck_activate`. -/
theorem acknowledgeReply : Obligations.AcknowledgeReply := by
  unfold Obligations.AcknowledgeReply
  intro a s
  rw [← doAck_activate s]
  exact ⟨exec_ack_of_addressed, exec_wildcardQuery s⟩

end Sys2Proof.Proofs.AddressReply
end

