-- ==== Sys2Proof/Proofs/Commitment.lean ====
section
/-! The acknowledged count as a commitment (43_session_measure.md R242): what an answer is normalised to, that
no instruction takes back a frame, that a step which is no answer leaves the acquisition alone, and that a
delivery keeps the count. -/

namespace Sys2Proof.Proofs.Commitment

open Sys2Proof Sys2Proof.Machine

/-! ### The values of an answer (R224) -/

/-- Below n the values of an answer stand, and zeros where there are none; the rest is cut. -/
theorem normalise_ok_getElem? (vs : List Int) {n i : Nat} (hi : i < n) :
    (normalise (.ok vs) n)[i]? = some (vs.getD i 0) := by
  rw [normalise, List.getElem?_take_of_lt hi, List.getD_eq_getElem?_getD]
  rcases Nat.lt_or_ge i vs.length with h | h
  · rw [List.getElem?_append_left h, List.getElem?_eq_getElem h, Option.getD_some]
  · rw [List.getElem?_append_right h, List.getElem?_eq_none h, Option.getD_none,
      List.getElem?_replicate_of_lt (by omega)]

/-! ### Sent frames stay sent (R13, R306)

Every handler appends at most one frame to the trace, and so does every instruction. -/

theorem gate_trace_prefix {a : Byte} {s t : State} (f : State → State)
    (hf : ∀ u, u.trace <+: (f u).trace) (h : Host.Outcome.next (gate a f s) = (.next t : Result)) :
    s.trace <+: t.trace := by
  cases h
  rcases gate_cases a f s with hg | hg
  · rw [hg]; exact hf (activate s)
  · rw [hg]

theorem startMeasurement_trace_prefix (cls : MeasClass) (idx : Option Nat) (crc : Bool) (s : State) :
    s.trace <+: (startMeasurement cls idx crc s).trace := by
  rcases startMeasurement_cases cls idx crc s with ⟨e, -, h⟩ | ⟨-, h⟩
  · rw [h, acknowledge_eq]; exact List.prefix_append _ _
  · rw [h, zeroCount_eq]; exact List.prefix_append _ _

theorem doChangeAddress_trace_prefix (b : Byte) (s : State) : s.trace <+: (doChangeAddress b s).trace := by
  unfold doChangeAddress
  split <;> exact List.prefix_append _ _

theorem applyExt_trace_prefix (e : ExtEffect) (s : State) : s.trace <+: (applyExt e s).trace := by
  unfold applyExt
  cases e.reply with
  | none => exact List.prefix_rfl
  | some text => exact List.prefix_append _ _

theorem doUnknown_trace_prefix (text : Bytes) (s : State) : s.trace <+: (doUnknown text s).trace := by
  unfold doUnknown
  split
  · exact List.prefix_append _ _
  · exact List.prefix_rfl

theorem execExitToken_trace_prefix {s t : State} (h : execExitToken s = .next t) : s.trace <+: t.trace := by
  unfold execExitToken at h
  split at h
  · cases h; exact List.prefix_append _ _
  · exact gate_trace_prefix _ (doUnknown_trace_prefix exitText) h

/-- No instruction takes back a frame. -/
theorem exec_trace_prefix {s t : State} : ∀ {i : Instr}, exec i s = .next t → s.trace <+: t.trace
  | .ack _, h | .wildcardQuery, h | .identify _, h | .metadata _ _, h | .data _ _, h | .byteData _ _, h =>
    gate_trace_prefix _ (fun _ => List.prefix_append _ _) h
  | .changeAddress _ b, h => gate_trace_prefix _ (doChangeAddress_trace_prefix b) h
  | .measure _, h | .measureIdx _ _, h | .measureCrc _, h | .concurrent _, h | .concurrentIdx _ _, h
  | .verify _, h | .continuous _ _, h | .highVolumeA _, h | .highVolumeB _, h =>
    gate_trace_prefix _ (startMeasurement_trace_prefix _ _ _) h
  | .extM _ _, h | .extU _ _, h =>
    gate_trace_prefix (fun t => finish (applyExt _ t)) (fun _ => applyExt_trace_prefix _ _) h
  | .passEnter _, h => gate_trace_prefix doPassEnter (fun _ => List.prefix_rfl) h
  | .exitToken, h => execExitToken_trace_prefix h
  | .unknown text _, h => gate_trace_prefix _ (doUnknown_trace_prefix text) h
  | .onEdge _ _, h | .breakDetected, h | .markDetected, h | .resetDetectionFlags, h => by
    cases h; exact List.prefix_rfl

/-! ### Reselection (R228) -/

/-- With or without an overflow, reselection writes the queue, the command buffer and the wait flags only. -/
theorem reselect_frame (s : State) :
    (reselect s).2 = { s with
      rxq := (reselect s).2.rxq, rxOvf := (reselect s).2.rxOvf, cmdBuf := (reselect s).2.cmdBuf
      cmdLen := (reselect s).2.cmdLen, cmdOvf := (reselect s).2.cmdOvf
      waitBreak := (reselect s).2.waitBreak, waitMark := (reselect s).2.waitMark } := by
  unfold reselect
  split
  · rfl
  · rw [drain_frame]

theorem reselect_trace (s : State) : (reselect s).2.trace = s.trace := by rw [reselect_frame]

theorem reselect_count (s : State) : (reselect s).2.count = s.count := by rw [reselect_frame]

/-- What reselection finds does not depend on the acquisition that the answer has just ended. -/
theorem reselect_fst_endAcquisition (s : State) : (reselect (endAcquisition s)).1 = (reselect s).1 := by
  unfold reselect
  rw [endAcquisition_rxOvf, endAcquisition_rxq, drain_endAcquisition]
  split <;> rfl

/-- Nor on the inputs still to come. -/
theorem reselect_fst_inputs (s : State) (rest : List Input) :
    (reselect { s with inputs := rest }).1 = (reselect s).1 := by
  unfold reselect
  rw [drain_inputs]
  split <;> rfl

/-! ### An answer (R224, R230) -/

theorem deliver_trace_prefix {vals : List Int} {w : Nat} {sr : Bool} {t : State} (s : State)
    (h : deliver vals w sr s = .next t) : s.trace <+: t.trace := by
  obtain ⟨ls, -, rfl⟩ := deliver_next h
  cases sr
  · exact List.prefix_rfl
  · exact List.prefix_append _ _

/-- A delivery of an answer keeps n and stores n values. -/
theorem deliver_normalise_commits {res : AcqResult} {w n : Nat} {sr : Bool} {s t : State}
    (hn : s.count = n) (h : deliver (normalise res n) w sr s = .next t) :
    t.count = n ∧ t.values.take n = normalise res n := by
  subst hn
  obtain ⟨ls, -, rfl⟩ := deliver_next h
  exact ⟨rfl, storeValues_take (normalise_length res s.count)⟩

/-- No answer takes back a frame: a cancellation sends nothing, and a command run by reselection and a
delivery only append. -/
theorem fAcq_trace_prefix {res : AcqResult} {t : State} (s : State) (h : fAcq res s = .next t) :
    s.trace <+: t.trace := by
  rcases fAcq_cases res s with ⟨-, hf⟩ | ⟨-, -, hc⟩ | ⟨-, hd⟩ | ⟨-, hd⟩ | ⟨-, i, -, hx⟩ | ⟨-, -, hd⟩
  · rw [hf] at h; cases h
  · rw [hc] at h; cases h; exact List.prefix_rfl
  · exact deliver_trace_prefix (endAcquisition s) (hd.symm.trans h)
  · exact deliver_trace_prefix (endAcquisition s) (hd.symm.trans h)
  · have hp := exec_trace_prefix (hx.symm.trans h)
    rwa [cancel_trace, reselect_trace] at hp
  · have hp := deliver_trace_prefix _ (hd.symm.trans h)
    rwa [reselect_trace] at hp

/-- When an answer delivers, and neither cancels nor runs a command of the queue: in every class but M and C
always, in M without a break, in C when reselection finds no command for this device (R227 to R229). -/
def Delivers (s : State) : Prop :=
  (s.state = .measuring ∧ s.waitBreak = true) ∨ s.state = .verify ∨ s.state = .continuous
    ∨ s.state = .highVolume ∨ (s.state = .concurrent ∧ (reselect s).1 = none)

theorem Delivers.isAcquiring {s : State} (hd : Delivers s) : isAcquiring s.state = true := by
  rcases hd with ⟨hs, -⟩ | hs | hs | hs | ⟨hs, -⟩ <;> rw [hs] <;> rfl

theorem Delivers.withInputs {s : State} (hd : Delivers s) (rest : List Input) :
    Delivers { s with inputs := rest } := by
  unfold Delivers
  rw [reselect_fst_inputs]
  exact hd

/-- Where an answer delivers, F-ACQ is `deliver` from a state with the same count. -/
theorem fAcq_of_delivers (res : AcqResult) {s : State} (hd : Delivers s) :
    ∃ w sr u, fAcq res s = deliver (normalise res s.count) w sr u ∧ u.count = s.count := by
  rcases fAcq_cases res s with
    ⟨ha, -⟩ | ⟨hm, hb, -⟩ | ⟨-, h⟩ | ⟨-, h⟩ | ⟨hc, i, hi, -⟩ | ⟨-, -, h⟩
  · -- no acquisition in flight
    cases ha.symm.trans hd.isAcquiring
  · -- cancelled by a break
    simp [Delivers, hm, hb] at hd
  · exact ⟨_, _, _, h, rfl⟩
  · exact ⟨_, _, _, h, rfl⟩
  · -- cancelled by reselection
    rw [reselect_fst_endAcquisition] at hi
    simp [Delivers, hc, hi] at hd
  · exact ⟨_, _, _, h, reselect_count _⟩

/-! ### Every other step (R180, R224) -/

theorem foreground_of_acquiring {s : State} (ha : isAcquiring s.state = true) : foreground s = .next s := by
  rcases foreground_cases s with h | ⟨hs, -⟩ | ⟨hs, -⟩
  · exact h
  · rw [hs] at ha; cases ha
  · rw [hs] at ha; cases ha

theorem directCall_of_acquiring (i : Instr) {s : State} (ha : isAcquiring s.state = true) :
    directCall i s = .next s := by
  rcases directCall_cases i s with ⟨hs, -⟩ | ⟨-, h⟩
  · rw [hs] at ha; cases ha
  · exact h

theorem fPtSens_of_acquiring (b : Byte) {s : State} (ha : isAcquiring s.state = true) : fPtSens b s = s :=
  if_neg fun hs => by rw [hs] at ha; cases ha

/-- What an acknowledgment has committed to is as it was: the frames sent, the count, the session state and
the acquisition in flight. -/
def SameSession (s t : State) : Prop :=
  t.trace = s.trace ∧ t.count = s.count ∧ t.state = s.state ∧ t.acq = s.acq

theorem SameSession.refl (s : State) : SameSession s s := ⟨rfl, rfl, rfl, rfl⟩

theorem takeInput_of_acquiring {e : Input} {t : State} (s : State) (ha : isAcquiring s.state = true)
    (hr : e ≠ .reset) (hn : ∀ res, e ≠ .answer res) (h : takeInput e s = .next t) : SameSession s t := by
  cases e with
  | poll => cases (foreground_of_acquiring ha).symm.trans h; exact .refl _
  | queryBreak | queryMark | rearm => cases (directCall_of_acquiring _ ha).symm.trans h; exact .refl _
  | edge _ _ | rxOverflow => cases h; exact ⟨rfl, rfl, rfl, rfl⟩
  | rxByte b =>
    cases h
    exact ⟨rxAppend_trace b s, rxAppend_count b s, rxAppend_state b s, rxAppend_acq b s⟩
  | sensorByte b => cases h; rw [fPtSens_of_acquiring b ha]; exact .refl _
  | answer res => exact absurd rfl (hn res)
  | reset => exact absurd rfl hr

/-! ### The step -/

theorem step_of_inputs_cons {s : State} {e : Input} {rest : List Input} (h : s.inputs = e :: rest) :
    step s = takeInput e { s with inputs := rest } := by
  simp only [step, stepInputs, h]

/-- While an acquisition is in flight no step but an answer or a reset touches the session. -/
theorem step_keeps_session {s t : State} (ha : isAcquiring s.state = true)
    (hr : s.inputs.head? ≠ some .reset) (hn : ∀ res, s.inputs.head? ≠ some (.answer res))
    (h : step s = .next t) : SameSession s t := by
  rcases step_cases s with ⟨-, hf⟩ | ⟨e, rest, hin, he⟩
  · cases (hf.trans (foreground_of_acquiring ha)).symm.trans h
    exact .refl _
  · simp only [hin, List.head?_cons, ne_eq, Option.some.injEq] at hr hn
    exact takeInput_of_acquiring { s with inputs := rest } ha hr hn (he.symm.trans h)

/-- While an acquisition is in flight no step but a reset takes back a frame. -/
theorem step_trace_prefix {s t : State} (ha : isAcquiring s.state = true)
    (hr : s.inputs.head? ≠ some .reset) (h : step s = .next t) : s.trace <+: t.trace := by
  by_cases hn : ∃ res, s.inputs.head? = some (.answer res)
  · obtain ⟨res, hres⟩ := hn
    obtain ⟨rest, hin⟩ := List.head?_eq_some_iff.1 hres
    exact fAcq_trace_prefix { s with inputs := rest } ((step_of_inputs_cons hin).symm.trans h)
  · obtain ⟨htr, -⟩ := step_keeps_session ha hr (not_exists.1 hn) h
    rw [htr]

/-- A delivery keeps the committed n and stores exactly n values. -/
theorem step_delivery_commits {s t : State} {res : AcqResult} {rest : List Input}
    (hin : s.inputs = .answer res :: rest) (h : step s = .next t) (hd : Delivers s) :
    t.count = s.count ∧ t.values.take s.count = normalise res s.count := by
  obtain ⟨w, sr, u, hf, hu⟩ := fAcq_of_delivers res (hd.withInputs rest)
  exact deliver_normalise_commits hu (hf.symm.trans ((step_of_inputs_cons hin).symm.trans h))

/-- Settles O35: the values of an answer are `normalise`'s lemmas, and each clause on steps is the lemma
above that says it. -/
theorem acknowledgmentIsACommitment : Obligations.AcknowledgmentIsACommitment := by
  unfold Obligations.AcknowledgmentIsACommitment
  refine ⟨fun _ => rfl, fun vs n => ⟨normalise_length _ n, fun _ hi => normalise_ok_getElem? vs hi⟩, ?_,
    fun _ _ _ _ hin h hd => step_delivery_commits hin h hd⟩
  intro s t ha hr h
  refine ⟨?_, fun hn => (step_keeps_session ha hr hn h).2⟩
  obtain ⟨fs, hfs⟩ := step_trace_prefix ha hr h
  exact ⟨fs, hfs.symm⟩

end Sys2Proof.Proofs.Commitment
end

