-- ==== Sys2Proof/Proofs/Codec.lean ====
section
/-! The encodings (30_encoding.md section 1) and the decoder against `Parse` (41_parser.md R164): what the
decoder gives for each named form, that the grammar of `isKnownForm` is what `decodeNamed` takes, and the two
directions of the round trip. -/

namespace Sys2Proof.Proofs.Codec

open Sys2Proof

/-! ### Digits as operands -/

theorem isDigit19_digitByte {d : Fin 10} (h : d.val ≠ 0) : isDigit19 (digitByte d.val) = true := by
  have := d.isLt
  simp only [isDigit19, digitByte_toNat, Bool.and_eq_true, decide_eq_true_eq]
  omega

theorem dv_digitByte_val (d : Fin 10) : dv (digitByte d.val) = d :=
  Fin.ext ((dv_digitByte d.val).trans (Nat.mod_eq_of_lt d.isLt))

theorem dv_val_ne_zero {c : Byte} (h : isDigit19 c = true) : (dv c).val ≠ 0 := by
  have h' := ParserForms.dv_val_of_isDigit (isDigit_of_isDigit19 h)
  have := ParserForms.isDigit19_iff.1 h
  omega

/-! ### What the decoder reads, form by form (R143 to R159)

The second byte of a form is fixed, so the selection by it evaluates. -/

theorem decodeCommand_named {a k : Byte} {r : Bytes} {i : Instr} (h : decodeNamed a k r = some i) :
    decodeCommand (a :: k :: r) false = i := by
  simp [decodeCommand, h]

theorem decodeCommand_of_none {a k : Byte} {r : Bytes} (h : decodeNamed a k r = none) :
    decodeCommand (a :: k :: r) false = .unknown (a :: k :: r) false := by
  simp [decodeCommand, h]

theorem decodeNamed_I (a : Byte) (r : Bytes) : decodeNamed a chI r = decodeI a r := rfl
theorem decodeNamed_A (a : Byte) (r : Bytes) : decodeNamed a chA r = decodeA a r := rfl
theorem decodeNamed_M (a : Byte) (r : Bytes) : decodeNamed a chM r = decodeM a r := rfl
theorem decodeNamed_C (a : Byte) (r : Bytes) : decodeNamed a chC r = decodeC a r := rfl
theorem decodeNamed_D (a : Byte) (r : Bytes) : decodeNamed a chD r = decodeD a r := rfl
theorem decodeNamed_R (a : Byte) (r : Bytes) : decodeNamed a chR r = decodeR a r := rfl
theorem decodeNamed_X (a : Byte) (r : Bytes) : decodeNamed a chX r = decodeX a r := rfl

/-- The letters that can follow the address byte (R84). -/
def letters : Bytes := [chI, chA, chM, chC, chV, chD, chR, chH, chX]

theorem decodeNamed_other {k : Byte} (a : Byte) (r : Bytes) (h : k ∉ letters) : decodeNamed a k r = none := by
  simp only [letters, List.mem_cons, List.not_mem_nil, or_false, not_or] at h
  simp [decodeNamed, h]

theorem parse_other {k : Byte} (a : Byte) (r : Bytes) (h : k ∉ letters) :
    parse (a :: k :: r) false = Command.default a := by
  simp only [letters, List.mem_cons, List.not_mem_nil, or_false, not_or] at h
  simp [parse, h]

theorem isKnownForm_other {k : Byte} (a : Byte) (r : Bytes) (h : k ∉ letters) :
    isKnownForm (a :: k :: r) = false := by
  simp only [letters, List.mem_cons, List.not_mem_nil, or_false, not_or] at h
  cases r <;> simp [isKnownForm, h]

/-! ### The grammar, letter by letter (R87)

With the letter fixed `simp +decide` drops the arms of the other letters; what is left compares the tests of one
arm, on a string of each length that the arm tells apart. -/

theorem isKnownForm_I (a : Byte) : ∀ r, isKnownForm (a :: chI :: r) = (decodeI a r).isSome
  | [] => rfl
  | x :: e => by rw [Bool.eq_iff_iff]; simp +decide [isKnownForm, decodeI]

theorem isKnownForm_A (a : Byte) : ∀ r, isKnownForm (a :: chA :: r) = (decodeA a r).isSome
  | [] => rfl
  | [b] | _ :: _ :: _ => by rw [Bool.eq_iff_iff]; simp +decide [isKnownForm, decodeA]

theorem isKnownForm_M (a : Byte) : ∀ r, isKnownForm (a :: chM :: r) = (decodeM a r).isSome
  | [] => rfl
  | [x] => by
    rw [Bool.eq_iff_iff]
    cases h : isDigit19 x <;> simp +decide [isKnownForm, decodeM, h]
  | _ :: _ :: _ => by rw [Bool.eq_iff_iff]; simp +decide [isKnownForm, decodeM]

theorem isKnownForm_C (a : Byte) : ∀ r, isKnownForm (a :: chC :: r) = (decodeC a r).isSome
  | [] => rfl
  | [_] | _ :: _ :: _ => by rw [Bool.eq_iff_iff]; simp +decide [isKnownForm, decodeC]

theorem isKnownForm_V (a : Byte) : ∀ r, isKnownForm (a :: chV :: r) = (decodeV a r).isSome
  | [] => rfl
  | x :: e => by rw [Bool.eq_iff_iff]; simp +decide [isKnownForm, decodeV]

theorem isKnownForm_D (a : Byte) : ∀ r, isKnownForm (a :: chD :: r) = (decodeD a r).isSome
  | [] => rfl
  | [_] | [_, _] | _ :: _ :: _ :: _ => by rw [Bool.eq_iff_iff]; simp +decide [isKnownForm, decodeD]

theorem isKnownForm_R (a : Byte) : ∀ r, isKnownForm (a :: chR :: r) = (decodeR a r).isSome
  | [] => rfl
  | [_] | _ :: _ :: _ => by rw [Bool.eq_iff_iff]; simp +decide [isKnownForm, decodeR]

theorem isKnownForm_H (a : Byte) : ∀ r, isKnownForm (a :: chH :: r) = (decodeH a r).isSome
  | [] => rfl
  | [x] => by
    rw [Bool.eq_iff_iff]
    by_cases h : x = chA <;> simp +decide [isKnownForm, decodeH, h]
  | _ :: _ :: _ => by rw [Bool.eq_iff_iff]; simp +decide [isKnownForm, decodeH]

theorem isKnownForm_X (a : Byte) : ∀ r, isKnownForm (a :: chX :: r) = (decodeX a r).isSome
  | [] => rfl
  | x :: e => by
    rw [Bool.eq_iff_iff]
    by_cases hm : x = chM
    · simp +decide [isKnownForm, decodeX, hm]
    · by_cases hu : x = chU <;> simp +decide [isKnownForm, decodeX, hm, hu]

/-- The grammar of R87, form by form, is what the decoder's table of forms takes. -/
theorem isKnownForm_eq (a k : Byte) (r : Bytes) : isKnownForm (a :: k :: r) = (decodeNamed a k r).isSome := by
  by_cases hk : k ∈ letters
  · simp only [letters, List.mem_cons, List.not_mem_nil, or_false] at hk
    rcases hk with rfl | rfl | rfl | rfl | rfl | rfl | rfl | rfl | rfl
    exacts [isKnownForm_I a r, isKnownForm_A a r, isKnownForm_M a r, isKnownForm_C a r, isKnownForm_V a r,
      isKnownForm_D a r, isKnownForm_R a r, isKnownForm_H a r, isKnownForm_X a r]
  · rw [isKnownForm_other a r hk, decodeNamed_other a r hk]; rfl

/-! ### The records, letter by letter (R164) -/

/-- The record of what the decoder reads from a string when the table of forms gives `o` (R160). -/
def recordOf (s : Bytes) (o : Option Instr) : Option Command := (o.getD (.unknown s false)).command?

@[simp] theorem recordOf_none (s : Bytes) : recordOf s none = some (Command.default (s.headD 0x00#8)) := rfl
@[simp] theorem recordOf_some (s : Bytes) (i : Instr) : recordOf s (some i) = i.command? := rfl

theorem parse_I (a : Byte) : ∀ r, recordOf (a :: chI :: r) (decodeI a r) = some (parse (a :: chI :: r) false)
  | [] => rfl
  | x :: e => by
    by_cases hx : x = chX
    · cases h : digitRuns e <;> simp +decide [decodeI, parse, hx, h, Instr.command?]
    · simp +decide [decodeI, parse, hx]

theorem parse_A (a : Byte) : ∀ r, recordOf (a :: chA :: r) (decodeA a r) = some (parse (a :: chA :: r) false)
  | [] => rfl
  | [b] => by cases h : isAlnum b <;> simp +decide [decodeA, parse, h, Instr.command?]
  | _ :: _ :: _ => by simp +decide [decodeA, parse]

theorem parse_M (a : Byte) : ∀ r, recordOf (a :: chM :: r) (decodeM a r) = some (parse (a :: chM :: r) false)
  | [] => rfl
  | [x] => by
    cases h : isDigit19 x
    · by_cases hc : x = chC <;> simp +decide [decodeM, parse, h, hc, Instr.command?]
    · simp +decide [decodeM, parse, h, Instr.command?]
  | _ :: _ :: _ => by simp +decide [decodeM, parse]

theorem parse_C (a : Byte) : ∀ r, recordOf (a :: chC :: r) (decodeC a r) = some (parse (a :: chC :: r) false)
  | [] => rfl
  | [x] => by cases h : isDigit19 x <;> simp +decide [decodeC, parse, h, Instr.command?]
  | _ :: _ :: _ => by simp +decide [decodeC, parse]

theorem parse_V (a : Byte) : ∀ r, recordOf (a :: chV :: r) (decodeV a r) = some (parse (a :: chV :: r) false)
  | [] => rfl
  | _ :: _ => by simp +decide [decodeV, parse]

theorem parse_D (a : Byte) : ∀ r, recordOf (a :: chD :: r) (decodeD a r) = some (parse (a :: chD :: r) false)
  | [] => rfl
  | [x] => by cases h : isDigit x <;> simp +decide [decodeD, parse, h, Instr.command?]
  | [x, y] => by
    by_cases h : x = chB ∧ isDigit y = true <;> simp +decide [decodeD, parse, h, Instr.command?]
  | _ :: _ :: _ :: _ => by simp +decide [decodeD, parse]

theorem parse_R (a : Byte) : ∀ r, recordOf (a :: chR :: r) (decodeR a r) = some (parse (a :: chR :: r) false)
  | [] => rfl
  | [x] => by cases h : isDigit x <;> simp +decide [decodeR, parse, h, Instr.command?]
  | _ :: _ :: _ => by simp +decide [decodeR, parse]

theorem parse_H (a : Byte) : ∀ r, recordOf (a :: chH :: r) (decodeH a r) = some (parse (a :: chH :: r) false)
  | [] => rfl
  | [x] => by
    by_cases hA : x = chA
    · simp +decide [decodeH, parse, hA, Instr.command?]
    · by_cases hB : x = chB <;> simp +decide [decodeH, parse, hA, hB, Instr.command?]
  | _ :: _ :: _ => by simp +decide [decodeH, parse]

/-- The test of `parse` on the five bytes of `aXPAS`, as one on what follows the letter. -/
theorem passEnter_bytes (x : Byte) : ∀ e : Bytes,
    (e.length = 2 ∧ x = chP ∧ e[0]?.getD 0x00#8 = chA ∧ e[1]?.getD 0x00#8 = chS) ↔ x = chP ∧ e = [chA, chS]
  | [] | [_] | _ :: _ :: _ :: _ => by simp
  | [y, z] => by simp

theorem parse_X (a : Byte) : ∀ r, recordOf (a :: chX :: r) (decodeX a r) = some (parse (a :: chX :: r) false)
  | [] => rfl
  | x :: e => by
    by_cases hM : x = chM ∧ e.all isDigit = true ∧ e.length ≤ Config.paramDigits
    · simp +decide [-List.all_eq_true, decodeX, parse, hM, Instr.command?]
    · by_cases hU : x = chU
      · simp +decide [decodeX, parse, hU, Instr.command?]
      · by_cases hP : x = chP ∧ e = [chA, chS]
        · simp +decide [decodeX, parse, hP, Instr.command?]
        · simp +decide [-List.all_eq_true, decodeX, parse, hM, hU, hP, passEnter_bytes]

/-- The record of a form that the decoder reads is the one `Parse` returns (R164). -/
theorem recordOf_decodeNamed (a k : Byte) (r : Bytes) :
    recordOf (a :: k :: r) (decodeNamed a k r) = some (parse (a :: k :: r) false) := by
  by_cases hk : k ∈ letters
  · simp only [letters, List.mem_cons, List.not_mem_nil, or_false] at hk
    rcases hk with rfl | rfl | rfl | rfl | rfl | rfl | rfl | rfl | rfl
    exacts [parse_I a r, parse_A a r, parse_M a r, parse_C a r, parse_V a r, parse_D a r, parse_R a r,
      parse_H a r, parse_X a r]
  · rw [parse_other a r hk, decodeNamed_other a r hk]; rfl

/-- Settles O9: an overflowed, an empty and a one-byte string evaluate; the longer ones are
`recordOf_decodeNamed`. -/
theorem decoderAgreesWithParse : Obligations.DecoderAgreesWithParse := by
  unfold Obligations.DecoderAgreesWithParse
  intro s ovf
  cases ovf with
  | true => simp [decodeCommand, parse, Instr.command?]
  | false =>
    match s with
    | [] => rfl
    | [a] => by_cases ha : a = chWild <;> simp [decodeCommand, parse, ha, Instr.command?]
    | a :: k :: r => exact recordOf_decodeNamed a k r

theorem decodeNamed_ne_unknown {a k : Byte} {r : Bytes} {i : Instr} (h : decodeNamed a k r = some i)
    (text : Bytes) (ovf : Bool) : i ≠ .unknown text ovf := by
  rintro rfl
  simpa using decodeNamed_some h

/-- Settles O10: on two bytes or more the grammar is `isKnownForm_eq`, and no named form is an `Unknown`. -/
theorem unknownExactlyOutsideTheGrammar : Obligations.UnknownExactlyOutsideTheGrammar := by
  unfold Obligations.UnknownExactlyOutsideTheGrammar
  intro s
  match s with
  | [] => simp [decodeCommand, isKnownForm]
  | [a] => by_cases ha : a = chWild <;> simp [decodeCommand, isKnownForm, ha]
  | a :: k :: r =>
    rw [isKnownForm_eq]
    cases h : decodeNamed a k r with
    | none => simp [decodeCommand_of_none h]
    | some i => simpa [decodeCommand_named h] using decodeNamed_ne_unknown h

/-! ### The round trip (R80, R82, R103) -/

/-- The bytes of a well-formed command are a body without a terminator, then the terminator. -/
theorem framed : ∀ i : Instr, Laws.Framing.Statement i
  | .ack a => Laws.Framing.ack a
  | .wildcardQuery => Laws.Framing.wildcardQuery
  | .identify a => Laws.Framing.identify a
  | .metadata a e => Laws.Framing.metadata a e
  | .changeAddress a b => Laws.Framing.changeAddress a b
  | .measure a => Laws.Framing.measure a
  | .measureIdx a d => Laws.Framing.measureIdx a d
  | .measureCrc a => Laws.Framing.measureCrc a
  | .concurrent a => Laws.Framing.concurrent a
  | .concurrentIdx a d => Laws.Framing.concurrentIdx a d
  | .verify a => Laws.Framing.verify a
  | .data a d => Laws.Framing.data a d
  | .byteData a d => Laws.Framing.byteData a d
  | .continuous a d => Laws.Framing.continuous a d
  | .highVolumeA a => Laws.Framing.highVolumeA a
  | .highVolumeB a => Laws.Framing.highVolumeB a
  | .extM a e => Laws.Framing.extM a e
  | .extU a e => Laws.Framing.extU a e
  | .passEnter a => Laws.Framing.passEnter a
  | .exitToken => Laws.Framing.exitToken
  | .unknown t o => Laws.Framing.unknown t o
  | .onEdge ts l => Laws.Framing.onEdge ts l
  | .breakDetected => Laws.Framing.breakDetected
  | .markDetected => Laws.Framing.markDetected
  | .resetDetectionFlags => Laws.Framing.resetDetectionFlags

/-- What the framing decodes of a command string: the 32 bytes that are kept, and whether some were dropped
(R61, R141). -/
def decodeBody (body : Bytes) : Instr :=
  decodeCommand (body.take Config.cmdMax) (decide (Config.cmdMax < body.length))

theorem decodeBody_of_fits {body : Bytes} (h : body.length ≤ Config.cmdMax) :
    decodeBody body = decodeCommand body false := by
  simp [decodeBody, List.take_of_length_le h, Nat.not_lt.2 h]

theorem decodeBody_named {a k : Byte} {r : Bytes} {i : Instr} (hl : r.length ≤ 30)
    (h : decodeNamed a k r = some i) : decodeBody (a :: k :: r) = i :=
  (decodeBody_of_fits (body := a :: k :: r) (Nat.add_le_add_right hl 2)).trans (decodeCommand_named h)

/-- A string that no form takes, or of which bytes were dropped, decodes to itself. -/
theorem decodeBody_unknown {text : Bytes} {ovf : Bool} (h : (Instr.unknown text ovf).wellFormed = true) :
    decodeBody (text ++ if ovf then [0x00#8] else []) = .unknown text ovf := by
  simp only [Instr.wellFormed, Bool.and_eq_true] at h
  obtain ⟨-, h⟩ := h
  cases ovf with
  | true =>
    have hl : text.length = Config.cmdMax := by simpa using h
    have ht : (text ++ [0x00#8]).take Config.cmdMax = text := by rw [← hl, List.take_left]
    simp [decodeBody, decodeCommand, ht, hl]
  | false =>
    simp only [Bool.false_eq_true, if_false, Bool.and_eq_true, decide_eq_true_eq, Bool.not_eq_true'] at h
    obtain ⟨hl, hk⟩ := h
    rw [if_neg (by simp), List.append_nil, decodeBody_of_fits hl]
    match text, hk with
    | [], _ => rfl
    | a :: k :: r, hk =>
      rw [isKnownForm_eq] at hk
      exact decodeCommand_of_none (by simpa using hk)

/-- Decoding the body of a well-formed command gives the command. -/
theorem decodeBody_encode : ∀ i : Instr, i.wellFormed = true → i.isCommand = true →
    decodeBody (encode i).dropLast = i
  | .ack a, h, _ => by
    have ha : a ≠ chWild := by simpa [Instr.wellFormed] using (Bool.and_eq_true_iff.1 h).2
    simp [encode, decodeBody, decodeCommand, ha]
  | .wildcardQuery, _, _ => rfl
  | .identify a, _, _ => rfl
  | .metadata a e, h, _ => by
    simp only [Instr.wellFormed, legalPayload, Bool.and_eq_true, decide_eq_true_eq] at h
    obtain ⟨⟨-, -, hl⟩, hd⟩ := h
    simp only [encode, ← List.cons_append, List.dropLast_concat]
    exact decodeBody_named (Nat.le_of_succ_le_succ (Nat.le_of_succ_le_succ hl))
      (by simp [decodeNamed_I, decodeI, hd])
  | .changeAddress a b, h, _ => by
    have hb : isAlnum b = true := (Bool.and_eq_true_iff.1 h).2
    exact decodeBody_named (r := [b]) (by simp) (by simp [decodeNamed_A, decodeA, hb])
  | .measure a, _, _ => rfl
  | .measureIdx a d, h, _ => by
    have hd : d.val ≠ 0 := by simpa [Instr.wellFormed] using (Bool.and_eq_true_iff.1 h).2
    exact decodeBody_named (r := [digitByte d.val]) (by simp)
      (by simp [decodeNamed_M, decodeM, isDigit19_digitByte hd, dv_digitByte_val])
  | .measureCrc a, _, _ => rfl
  | .concurrent a, _, _ => rfl
  | .concurrentIdx a d, h, _ => by
    have hd : d.val ≠ 0 := by simpa [Instr.wellFormed] using (Bool.and_eq_true_iff.1 h).2
    exact decodeBody_named (r := [digitByte d.val]) (by simp)
      (by simp [decodeNamed_C, decodeC, isDigit19_digitByte hd, dv_digitByte_val])
  | .verify a, _, _ => rfl
  | .data a d, _, _ =>
    decodeBody_named (r := [digitByte d.val]) (by simp) (by simp [decodeNamed_D, decodeD, dv_digitByte_val])
  | .byteData a d, _, _ =>
    decodeBody_named (r := [chB, digitByte d.val]) (by simp)
      (by simp [decodeNamed_D, decodeD, dv_digitByte_val])
  | .continuous a d, _, _ =>
    decodeBody_named (r := [digitByte d.val]) (by simp) (by simp [decodeNamed_R, decodeR, dv_digitByte_val])
  | .highVolumeA a, _, _ => rfl
  | .highVolumeB a, _, _ => rfl
  | .extM a e, h, _ => by
    simp only [Instr.wellFormed, Bool.and_eq_true, decide_eq_true_eq] at h
    obtain ⟨⟨-, hd⟩, hl⟩ := h
    simp only [encode, ← List.cons_append, List.dropLast_concat]
    exact decodeBody_named (Nat.le_trans (Nat.succ_le_succ hl) (by decide))
      (by simp [-List.all_eq_true, decodeNamed_X, decodeX, hd, hl])
  | .extU a e, h, _ => by
    simp only [Instr.wellFormed, legalPayload, Bool.and_eq_true, decide_eq_true_eq] at h
    obtain ⟨-, -, hl⟩ := h
    simp only [encode, ← List.cons_append, List.dropLast_concat]
    exact decodeBody_named (Nat.le_of_succ_le_succ (Nat.le_of_succ_le_succ hl))
      (by simp +decide [decodeNamed_X, decodeX])
  | .passEnter a, _, _ => rfl
  | .unknown text ovf, h, _ => by
    simp only [encode, List.dropLast_concat]
    exact decodeBody_unknown h

/-- Settles O7: the framing splits the body off, and the body decodes to the command. -/
theorem decodeOfEncode : Obligations.DecodeOfEncode := by
  unfold Obligations.DecodeOfEncode
  refine ⟨fun i rest hw hc => ?_, fun rest => rfl⟩
  obtain ⟨body, he, hb⟩ := framed i hw hc
  have hd := decodeBody_encode i hw hc
  rw [he, List.dropLast_concat] at hd
  rw [he, List.append_assoc, List.singleton_append, decode_framed rest hb]
  exact congrArg (fun j => Except.ok (j, rest)) hd

/-- Settles O12: each word is the encoding of a well-formed instruction. -/
theorem tableWordsDecode : Obligations.TableWordsDecode := by
  unfold Obligations.TableWordsDecode
  have h := fun i => decodeOfEncode.1 i []
  exact ⟨h (.ack 0x30#8) rfl rfl, h .wildcardQuery rfl rfl, h (.changeAddress 0x30#8 0x35#8) rfl rfl,
    h (.measureIdx 0x30#8 3) rfl rfl, h (.measureCrc 0x30#8) rfl rfl, h (.byteData 0x30#8 1) rfl rfl,
    h (.passEnter 0x30#8) rfl rfl, decodeOfEncode.2 []⟩


/-! ### From the string (R80, R165) -/

/-- A string that fits and holds no terminator decodes to a well-formed command with those bytes: the form
that takes it, or `Unknown`. -/
theorem encode_decodeNamed {a k : Byte} {r : Bytes} {i : Instr} (hb : chBang ∉ a :: k :: r)
    (hl : (a :: k :: r).length ≤ 32) (h : decodeNamed a k r = some i) :
    i.wellFormed = true ∧ i.isCommand = true ∧ encode i = a :: k :: r ++ [chBang] := by
  have ha : legalAddressByte a = true := by
    simp only [legalAddressByte, bne_iff_ne, ne_eq]
    rintro rfl
    exact hb List.mem_cons_self
  have hp : ∀ {x : Byte} {e : Bytes}, r = x :: e → legalPayload e = true := by
    rintro x e rfl
    simp only [legalPayload, Bool.and_eq_true, decide_eq_true_eq, List.all_eq_true, bne_iff_ne, ne_eq]
    refine ⟨fun b hbm hbe => hb (by simp [← hbe, hbm]), hl⟩
  rcases decodeNamed_some h with ⟨rfl, rfl, rfl⟩ | ⟨e, rfl, hr, hd, rfl⟩ | ⟨b, rfl, rfl, hx, rfl⟩
    | ⟨rfl, rfl, rfl⟩ | ⟨x, rfl, rfl, hx, rfl⟩ | ⟨rfl, rfl, rfl⟩ | ⟨rfl, rfl, rfl⟩ | ⟨x, rfl, rfl, hx, rfl⟩
    | ⟨rfl, rfl, rfl⟩ | ⟨x, rfl, rfl, hx, rfl⟩ | ⟨x, rfl, rfl, hx, rfl⟩ | ⟨x, rfl, rfl, hx, rfl⟩
    | ⟨rfl, rfl, rfl⟩ | ⟨rfl, rfl, rfl⟩ | ⟨e, rfl, rfl, hd, hn, rfl⟩ | ⟨e, rfl, hr, rfl⟩ | ⟨rfl, rfl, rfl⟩
  · exact ⟨ha, rfl, rfl⟩
  · simp [Instr.wellFormed, Instr.isCommand, encode, ha, hp hr, hd, hr]
  · exact ⟨Bool.and_eq_true_iff.2 ⟨ha, hx⟩, rfl, rfl⟩
  · exact ⟨ha, rfl, rfl⟩
  · exact ⟨by simp [Instr.wellFormed, ha, dv_val_ne_zero hx], rfl,
      by simp [encode, digitByte_dv (isDigit_of_isDigit19 hx)]⟩
  · exact ⟨ha, rfl, rfl⟩
  · exact ⟨ha, rfl, rfl⟩
  · exact ⟨by simp [Instr.wellFormed, ha, dv_val_ne_zero hx], rfl,
      by simp [encode, digitByte_dv (isDigit_of_isDigit19 hx)]⟩
  · exact ⟨ha, rfl, rfl⟩
  · exact ⟨ha, rfl, by simp [encode, digitByte_dv hx]⟩
  · exact ⟨ha, rfl, by simp [encode, digitByte_dv hx]⟩
  · exact ⟨ha, rfl, by simp [encode, digitByte_dv hx]⟩
  · exact ⟨ha, rfl, rfl⟩
  · exact ⟨ha, rfl, rfl⟩
  · exact ⟨by simp [-List.all_eq_true, Instr.wellFormed, ha, hd, hn], rfl, rfl⟩
  · exact ⟨Bool.and_eq_true_iff.2 ⟨ha, hp hr⟩, rfl, by rw [hr]; rfl⟩
  · exact ⟨ha, rfl, rfl⟩

/-- Settles O8: a string that a form takes is `encode_decodeNamed`, and an `Unknown` is written as it was
read. -/
theorem encodeOfDecode : Obligations.EncodeOfDecode := by
  unfold Obligations.EncodeOfDecode
  intro s hb hl
  match s with
  | [] => exact ⟨rfl, rfl, rfl⟩
  | [a] =>
    have ha : a ≠ chBang := fun h => hb (by simp [h])
    by_cases hw : a = chWild <;>
      simp [decodeCommand, Instr.wellFormed, Instr.isCommand, legalAddressByte, encode, ha, hw]
  | a :: k :: r =>
    cases h : decodeNamed a k r with
    | some i => rw [decodeCommand_named h]; exact encode_decodeNamed hb hl h
    | none =>
      have hk : isKnownForm (a :: k :: r) = false := by rw [isKnownForm_eq, h]; rfl
      have hall : (a :: k :: r).all (· != chBang) = true :=
        List.all_eq_true.2 fun b hm => bne_iff_ne.2 fun he => hb (he ▸ hm)
      rw [decodeCommand_of_none h]
      refine ⟨?_, rfl, by simp [encode]⟩
      simp only [Instr.wellFormed, hall, hk, decide_eq_true hl]
      rfl

/-! ### What `Parse` guarantees (R165)

By O9 every record is that of a decoded instruction, so the guarantees are read off the forms. -/

/-- A digit run that fits `PARAM_DIGITS` is at most 9999 (R163). -/
theorem runValue_bounds {r : Bytes} {p : Int} (h : runValue r = some p) : -1 ≤ p ∧ p ≤ 9999 := by
  unfold runValue at h
  split at h
  · rename_i hl
    cases h
    have h1 := decimalValue_lt r
    have h2 : 10 ^ r.length ≤ 10 ^ 4 := Nat.pow_le_pow_right (by omega) hl
    omega
  · cases h

theorem digitRuns_bounds {e : Bytes} {p : Int × Int} (h : digitRuns e = some p) :
    (-1 ≤ p.1 ∧ p.1 ≤ 9999) ∧ -1 ≤ p.2 ∧ p.2 ≤ 9999 := by
  unfold digitRuns at h
  split at h
  · cases h; decide
  · obtain ⟨p1, hp, rfl⟩ := Option.map_eq_some_iff.1 h
    exact ⟨runValue_bounds hp, le_rfl, by omega⟩
  · split at h
    · rename_i p1 p2 h1 h2
      cases h
      exact ⟨runValue_bounds h1, runValue_bounds h2⟩
    · cases h

/-- The pairs of a primary and a secondary opcode (R85). -/
abbrev LegalPair (p : Primary) (s : Byte) : Prop :=
  (s = 0x00#8 ∧ p ≠ .highVolume ∧ p ≠ .extended)
    ∨ (p, s) ∈ [(Primary.data, chB), (.highVolume, chA), (.highVolume, chB), (.identify, chX),
        (.extended, chM), (.extended, chU), (.extended, chP)]

/-- R165 (a), (b) and (c), of one record. -/
structure Guaranteed (c : Command) : Prop where
  opcodes : LegalPair c.primary c.secondary
  param1 : -1 ≤ c.param1 ∧ c.param1 ≤ 9999
  param2 : -1 ≤ c.param2 ∧ c.param2 ≤ 9999
  newAddress : c.primary = .changeAddress → ∃ b : Byte, isAlnum b = true ∧ c.param1 = (b.toNat : Int)
  checksum : c.crcRequested = true → c.primary = .measure ∧ c.param1 = -1

theorem digit_bounds (d : Fin 10) : -1 ≤ (d.val : Int) ∧ (d.val : Int) ≤ 9999 := by
  have := d.isLt
  omega

theorem absent_bounds : -1 ≤ (-1 : Int) ∧ (-1 : Int) ≤ 9999 := by decide

/-- The records without a checksum request and of no change of address: the pair and the ranges are all. -/
theorem guaranteed_of_bounds {c : Command}
    (ho : LegalPair c.primary c.secondary) (h1 : -1 ≤ c.param1 ∧ c.param1 ≤ 9999)
    (h2 : -1 ≤ c.param2 ∧ c.param2 ≤ 9999) (hn : c.primary ≠ .changeAddress) (hc : c.crcRequested = false) :
    Guaranteed c :=
  ⟨ho, h1, h2, fun h => absurd h hn, fun h => by rw [hc] at h; cases h⟩

/-- A record whose parameters are absent, but for a first one in range. -/
theorem guaranteed_form (a s : Byte) (p : Primary) (x : Int) (ext : Bytes)
    (ho : LegalPair p s) (hn : p ≠ .changeAddress) (hx : -1 ≤ x ∧ x ≤ 9999 := by exact absent_bounds) :
    Guaranteed { Command.default a with primary := p, secondary := s, param1 := x, ext := ext } :=
  guaranteed_of_bounds ho hx absent_bounds hn rfl

/-- The record of every form that the decoder reads keeps the guarantees. -/
theorem guaranteed_named {a k : Byte} {r : Bytes} {i : Instr} (h : decodeNamed a k r = some i) :
    ∃ c, i.command? = some c ∧ Guaranteed c := by
  rcases decodeNamed_some h with ⟨-, -, rfl⟩ | ⟨e, -, -, hd, rfl⟩ | ⟨b, -, -, hb, rfl⟩
    | ⟨-, -, rfl⟩ | ⟨x, -, -, -, rfl⟩ | ⟨-, -, rfl⟩ | ⟨-, -, rfl⟩ | ⟨x, -, -, -, rfl⟩
    | ⟨-, -, rfl⟩ | ⟨x, -, -, -, rfl⟩ | ⟨x, -, -, -, rfl⟩ | ⟨x, -, -, -, rfl⟩
    | ⟨-, -, rfl⟩ | ⟨-, -, rfl⟩ | ⟨e, -, -, -, hn, rfl⟩ | ⟨e, -, -, rfl⟩ | ⟨-, -, rfl⟩
  · exact ⟨_, rfl, guaranteed_form a 0 .identify (-1) [] (by decide) (by decide)⟩
  · obtain ⟨p, hp⟩ := Option.isSome_iff_exists.1 hd
    obtain ⟨h1, h2⟩ := digitRuns_bounds hp
    simp only [Instr.command?, hp, Option.getD_some]
    exact ⟨_, rfl, guaranteed_of_bounds (.inr (by simp)) h1 h2 (by simp) rfl⟩
  · refine ⟨_, rfl, .inl ⟨rfl, by simp, by simp⟩, ?_, absent_bounds, fun _ => ⟨b, hb, rfl⟩, nofun⟩
    have := b.isLt
    simp only
    omega
  · exact ⟨_, rfl, guaranteed_form a 0 .measure (-1) [] (by decide) (by decide)⟩
  · exact ⟨_, rfl, guaranteed_form a 0 .measure _ [] (by decide) (by decide) (digit_bounds _)⟩
  · exact ⟨_, rfl, .inl ⟨rfl, by simp, by simp⟩, absent_bounds, absent_bounds, nofun, fun _ => ⟨rfl, rfl⟩⟩
  · exact ⟨_, rfl, guaranteed_form a 0 .concurrent (-1) [] (by decide) (by decide)⟩
  · exact ⟨_, rfl, guaranteed_form a 0 .concurrent _ [] (by decide) (by decide) (digit_bounds _)⟩
  · exact ⟨_, rfl, guaranteed_form a 0 .verify (-1) [] (by decide) (by decide)⟩
  · exact ⟨_, rfl, guaranteed_form a 0 .data _ [] (by decide) (by decide) (digit_bounds _)⟩
  · exact ⟨_, rfl, guaranteed_form a chB .data _ [] (by decide) (by decide) (digit_bounds _)⟩
  · exact ⟨_, rfl, guaranteed_form a 0 .continuous _ [] (by decide) (by decide) (digit_bounds _)⟩
  · exact ⟨_, rfl, guaranteed_form a chA .highVolume (-1) [] (by decide) (by decide)⟩
  · exact ⟨_, rfl, guaranteed_form a chB .highVolume (-1) [] (by decide) (by decide)⟩
  · refine ⟨_, rfl, guaranteed_form a chM .extended _ e (by decide) (by decide) ?_⟩
    split
    · exact absent_bounds
    · exact runValue_bounds (r := e) (by simp only [runValue, if_pos hn])
  · exact ⟨_, rfl, guaranteed_form a chU .extended (-1) e (by decide) (by decide)⟩
  · exact ⟨_, rfl, guaranteed_form a chP .extended (-1) [] (by decide) (by decide)⟩

theorem guaranteed_parse (s : Bytes) (ovf : Bool) : Guaranteed (parse s ovf) := by
  have hp := decoderAgreesWithParse s ovf
  suffices ∃ c, (decodeCommand s ovf).command? = some c ∧ Guaranteed c by
    obtain ⟨c, hc, hg⟩ := this
    rwa [Option.some.inj (hp.symm.trans hc)]
  match ovf, s with
  | true, s => exact ⟨_, rfl, guaranteed_form _ 0 .unknown (-1) [] (by decide) (by decide)⟩
  | false, [] => exact ⟨_, rfl, guaranteed_form _ 0 .unknown (-1) [] (by decide) (by decide)⟩
  | false, [a] =>
    by_cases ha : a = chWild
    · rw [ha]; exact ⟨_, rfl, guaranteed_form _ 0 .ack (-1) [] (by decide) (by decide)⟩
    · exact ⟨_, by simp [decodeCommand, ha]; rfl, guaranteed_form a 0 .ack (-1) [] (by decide) (by decide)⟩
  | false, a :: k :: r =>
    cases h : decodeNamed a k r with
    | some i => rw [decodeCommand_named h]; exact guaranteed_named h
    | none =>
      rw [decodeCommand_of_none h]
      exact ⟨_, rfl, guaranteed_form a 0 .unknown (-1) [] (by decide) (by decide)⟩

/-- Settles O11: the guarantees of the record, taken apart. -/
theorem parserGuarantees : Obligations.ParserGuarantees := by
  unfold Obligations.ParserGuarantees
  intro s ovf
  obtain ⟨ho, ⟨h1, h1'⟩, ⟨h2, h2'⟩, hn, hc⟩ := guaranteed_parse s ovf
  exact ⟨ho, h1, h1', h2, h2', hn, hc⟩

end Sys2Proof.Proofs.Codec
end

