-- ==== Sys2Proof/Proofs/Format.lean ====
section
/-! `FormatValue` (44_encoder.md R261 to R265): the number of places it takes, the characters it writes, and
the number they spell. -/

namespace Sys2Proof.Proofs.Format

open Sys2Proof Sys2Proof.Machine

/-! ### Decimal spellings -/

theorem decimalWith_ne_nil (fuel n : Nat) : decimalWith fuel n ≠ [] := by
  cases fuel <;> unfold decimalWith
  · simp
  · split <;> simp

/-- A spelling begins with `0` only when its number is 0 (R262). -/
theorem decimalWith_head_zero {fuel n : Nat} (h : n ≤ fuel) (hz : (decimalWith fuel n).head? = some chZero) :
    n = 0 := by
  have hd : ∀ k : Nat, digitByte k = chZero → k % 10 = 0 := fun k hk => by
    have := digitByte_toNat k
    rw [hk] at this
    simpa using this
  induction fuel generalizing n with
  | zero => omega
  | succ f ih =>
    unfold decimalWith at hz
    split at hz
    · have := hd n (Option.some.inj hz)
      omega
    · rw [List.head?_append_of_ne_nil _ (decimalWith_ne_nil f (n / 10))] at hz
      have := ih (by omega) hz
      omega

theorem decimal_head_zero {n : Nat} (h : (decimal n).head? = some chZero) : n = 0 :=
  decimalWith_head_zero le_rfl h

theorem decimalValue_cons_zero (ds : Bytes) : decimalValue (chZero :: ds) = decimalValue ds := rfl

theorem padLeft_value (w : Nat) (ds : Bytes) : decimalValue (padLeft w ds) = decimalValue ds := by
  unfold padLeft
  induction w - ds.length with
  | zero => rfl
  | succ k ih => rw [List.replicate_succ, List.cons_append, decimalValue_cons_zero, ih]

/-! ### The digits of an attempt (R262) -/

theorem roundedDigits_value (a d : Nat) : decimalValue (roundedDigits a d) = roundedTo a d :=
  (padLeft_value _ _).trans (decimal_value _)

theorem roundedDigits_all_digits {a d : Nat} {c : Byte} (h : c ∈ roundedDigits a d) : isDigit c = true := by
  rcases List.mem_append.1 h with h | h
  · rw [(List.mem_replicate.1 h).2]; rfl
  · exact decimal_all_digits _ c h

theorem lt_roundedDigits_length (a d : Nat) : d < (roundedDigits a d).length := by
  rw [roundedDigits, padLeft_length]; omega

/-- The integer part of an attempt: what stands before the last d digits. -/
def intPart (a d : Nat) : Bytes := (roundedDigits a d).take ((roundedDigits a d).length - d)

theorem intPart_ne_nil (a d : Nat) : intPart a d ≠ [] := by
  have := lt_roundedDigits_length a d
  refine List.ne_nil_of_length_pos ?_
  rw [intPart, List.length_take]
  omega

/-- The integer part has no leading zero: where the spelling is short, its one digit is the zero of the
padding; where it is not, it begins as the spelling does (R262). -/
theorem intPart_no_leading_zero {a d : Nat} (h : (intPart a d).head? = some chZero) :
    intPart a d = [chZero] := by
  by_cases hl : (decimal (roundedTo a d)).length ≤ d
  · have hr : roundedDigits a d = chZero ::
        (List.replicate (d - (decimal (roundedTo a d)).length) chZero ++ decimal (roundedTo a d)) := by
      rw [roundedDigits, padLeft, Nat.succ_sub hl]; rfl
    have hn : (roundedDigits a d).length - d = 1 := by rw [roundedDigits, padLeft_length]; omega
    rw [intPart, hn, hr]; rfl
  · have hr : roundedDigits a d = decimal (roundedTo a d) := by
      rw [roundedDigits, padLeft, Nat.sub_eq_zero_of_le (by omega)]; rfl
    have hz : roundedTo a d = 0 := by
      refine decimal_head_zero ?_
      rw [← h, intPart, hr, List.head?_take, if_neg (by omega)]
    rw [hz] at hl hr
    have hd : d = 0 := Nat.lt_one_iff.1 (Nat.lt_of_not_le hl)
    rw [intPart, hr, hd]; rfl

/-- The rounded number is the nearest one, a tie going away from zero (R264). -/
theorem roundedTo_nearest (a : Nat) {d : Nat} (hd : d ≤ 6) :
    if d = 6 then roundedTo a d = a else
      2 * (roundedTo a d * 10 ^ (6 - d)) ≤ 2 * a + 10 ^ (6 - d)
      ∧ 2 * a < 2 * (roundedTo a d * 10 ^ (6 - d)) + 10 ^ (6 - d) := by
  unfold roundedTo
  split
  · rfl
  · have hp : 10 ^ (6 - d) = 2 * (5 * 10 ^ (5 - d)) := by
      rw [show 6 - d = 5 - d + 1 by omega, Nat.pow_succ]; omega
    have hq := Nat.div_add_mod' (a + 5 * 10 ^ (5 - d)) (10 ^ (6 - d))
    have hm := Nat.mod_lt (a + 5 * 10 ^ (5 - d)) (Nat.pow_pos (n := 6 - d) (Nat.succ_pos 9))
    omega

/-! ### FormatValue -/

/-- What `FormatValue` gives: the attempt with the most places at which the rounded number fits (R262). -/
theorem formatValue_some {p : Nat} {m : Int} {f : Bytes} (h : formatValue p m = some f) :
    ∃ d, d ≤ min p 6 ∧ roundedTo m.natAbs d < 10 ^ 7
      ∧ f = renderDigits (signChar m) d (roundedDigits m.natAbs d)
      ∧ ∀ d', d < d' → d' ≤ min p 6 → 10 ^ 7 ≤ roundedTo m.natAbs d' := by
  obtain ⟨d, hd, hl, hf, hm⟩ := formatFrom_some h
  have h6 : ∀ {k}, k ≤ min p Config.fracMax → k ≤ 6 := fun hk => hk.trans (Nat.min_le_right _ _)
  exact ⟨d, hd, (roundedDigits_fit (h6 hd)).1 hl, hf,
    fun d' h1 h2 => Nat.le_of_not_lt fun hlt => hm d' h1 h2 ((roundedDigits_fit (h6 h2)).2 hlt)⟩

/-- Dropping places never makes a number outgrow the digits. -/
theorem roundedTo_zero_fits {a d : Nat} (hd : d ≤ 6) (h : roundedTo a d < 10 ^ 7) :
    roundedTo a 0 < 10 ^ 7 := by
  unfold roundedTo at *
  interval_cases d <;> simp at * <;> omega

theorem roundedTo_zero_fits_iff (a : Nat) : roundedTo a 0 < 10 ^ 7 ↔ a < 9999999500000 := by
  rw [show roundedTo a 0 = (a + 500000) / 1000000 by simp [roundedTo]]
  omega

/-- Settles O45: some number of places fits exactly when none at all does. -/
theorem formatValueDefinedExactlyInRange : Obligations.FormatValueDefinedExactlyInRange := by
  unfold Obligations.FormatValueDefinedExactlyInRange
  intro p m
  rw [← roundedTo_zero_fits_iff]
  constructor
  · intro h
    obtain ⟨f, hf⟩ := Option.isSome_iff_exists.1 h
    obtain ⟨d, hd, hr, -⟩ := formatValue_some hf
    exact roundedTo_zero_fits (hd.trans (Nat.min_le_right _ _)) hr
  · intro h
    rw [Option.isSome_iff_ne_none]
    exact fun hn => formatFrom_none.1 hn 0 (Nat.zero_le _) ((roundedDigits_fit (Nat.zero_le _)).2 h)

/-- What follows the sign: the integer part, and the point with the last d digits when there are any. -/
theorem renderDigits_tail (sign : Byte) (a d : Nat) :
    renderDigits sign d (roundedDigits a d)
      = sign :: (intPart a d ++ if d = 0 then [] else
          chDot :: (roundedDigits a d).drop ((roundedDigits a d).length - d)) := by
  unfold renderDigits intPart
  split
  · rename_i h; rw [h, Nat.sub_zero, List.take_length, List.append_nil]
  · rfl

theorem mem_intPart {a d : Nat} {c : Byte} (h : c ∈ intPart a d) : isDigit c = true :=
  roundedDigits_all_digits (List.mem_of_mem_take h)

theorem renderDigits_takeWhile (sign : Byte) (a d : Nat) :
    (renderDigits sign d (roundedDigits a d)).tail.takeWhile isDigit = intPart a d := by
  rw [renderDigits_tail, List.tail_cons, List.takeWhile_append_of_pos fun _ => mem_intPart]
  split
  · rw [List.takeWhile_nil, List.append_nil]
  · rw [List.takeWhile_cons_of_neg (by decide), List.append_nil]

theorem intPart_append (a d : Nat) :
    intPart a d ++ (roundedDigits a d).drop ((roundedDigits a d).length - d) = roundedDigits a d :=
  List.take_append_drop _ _

theorem renderDigits_filter (sign : Byte) (a d : Nat) :
    (renderDigits sign d (roundedDigits a d)).tail.filter isDigit = roundedDigits a d := by
  have hf : ∀ {l : Bytes}, (∀ c ∈ l, c ∈ roundedDigits a d) → l.filter isDigit = l := fun h =>
    List.filter_eq_self.2 fun c hc => roundedDigits_all_digits (h c hc)
  have hi : (intPart a d).filter isDigit = intPart a d := hf fun _ => List.mem_of_mem_take
  conv_rhs => rw [← intPart_append a d]
  rw [renderDigits_tail, List.tail_cons, List.filter_append, hi]
  split
  · rename_i h
    rw [h, Nat.sub_zero, List.drop_length, List.filter_nil]
  · rw [List.filter_cons_of_neg (by decide), hf fun _ => List.mem_of_mem_drop]

theorem renderDigits_point (sign : Byte) {a d : Nat} (hd : d ≠ 0) :
    (renderDigits sign d (roundedDigits a d))[(renderDigits sign d (roundedDigits a d)).length - d - 1]?
      = some chDot := by
  have hl := lt_roundedDigits_length a d
  rw [renderDigits_length, if_neg hd,
    show 1 + (roundedDigits a d).length + 1 - d - 1 = (intPart a d).length + 1 by
      rw [intPart, List.length_take]; omega,
    renderDigits_tail, if_neg hd, List.getElem?_cons_succ, List.getElem?_append_right le_rfl, Nat.sub_self]
  rfl

/-- A formatted value has one character at least and nine at most (R261). -/
theorem formatValue_length {p : Nat} {m : Int} {f : Bytes} (h : formatValue p m = some f) :
    0 < f.length ∧ f.length ≤ 9 := by
  obtain ⟨d, hd, hr, rfl, -⟩ := formatValue_some h
  have hl := (roundedDigits_fit (hd.trans (Nat.min_le_right _ _))).2 hr
  rw [renderDigits_length]
  simp only [Config.digitsMax] at hl
  constructor
  · omega
  · split <;> omega

/-- Settles O46: an attempt's integer part, digits and point, and `roundedTo_nearest` for the number. -/
theorem formatValueIsNearestThatFits : Obligations.FormatValueIsNearestThatFits := by
  unfold Obligations.FormatValueIsNearestThatFits
  intro p m f h
  have hlen := (formatValue_length h).2
  obtain ⟨d, hd, hr, rfl, hmost⟩ := formatValue_some h
  have hd6 : d ≤ 6 := hd.trans (Nat.min_le_right _ _)
  rw [renderDigits_takeWhile, renderDigits_filter]
  refine ⟨hlen, ?_, intPart_ne_nil _ _, intPart_no_leading_zero, d, roundedTo m.natAbs d, hd, hr, ?_,
    roundedDigits_value _ _, renderDigits_point _, ?_, hmost⟩
  · rw [renderDigits_tail]; rfl
  · rw [List.length_tail, renderDigits_length]; split <;> omega
  · exact roundedTo_nearest m.natAbs hd6

end Sys2Proof.Proofs.Format
end

