-- ==== Sys2Proof/Proofs/Pack.lean ====
section
/-! `Pack` (44_encoder.md R265 to R267): its loop fills the slots with the greedy lines, and what the greedy
lines keep. -/

namespace Sys2Proof.Proofs.Pack

open Sys2Proof Sys2Proof.Machine Sys2Proof.Statements Sys2Proof.Proofs.Format

/-! ### The loop against the greedy recursion (R266) -/

theorem greedyLines_length_pos (w : Nat) (cur : Bytes) (fs : List Bytes) :
    0 < (greedyLines w cur fs).length := by
  induction fs generalizing cur with
  | nil => simp [greedyLines]
  | cons f fs ih =>
    unfold greedyLines
    split
    · exact ih _
    · simp

theorem greedyLines_length_le (w : Nat) (cur : Bytes) (fs : List Bytes) :
    (greedyLines w cur fs).length ≤ fs.length + 1 := by
  induction fs generalizing cur with
  | nil => simp [greedyLines]
  | cons f fs ih =>
    unfold greedyLines
    split
    · exact (ih _).trans (by simp)
    · simpa using ih f

/-- A turn that fits extends the current line. -/
theorem packOne_fits {w : Nat} {cur v : Bytes} (h : cur.length + v.length < w) (pre post : List Bytes) :
    packOne w (pre.length, pre ++ cur :: post) v = (pre.length, pre ++ (cur ++ v) :: post) := by
  simp [packOne, h]

/-- A turn that does not fit begins the next line. -/
theorem packOne_next {w : Nat} {cur v : Bytes} (h : ¬ cur.length + v.length < w) (pre post : List Bytes)
    (l : Bytes) :
    packOne w (pre.length, pre ++ cur :: l :: post) v
      = ((pre ++ [cur]).length, (pre ++ [cur]) ++ v :: post) := by
  simp [packOne, h]

/-- The loop, begun at a line `cur` with n empty slots after it, writes the greedy lines into the slots when
there are slots enough. -/
theorem foldl_packOne (w : Nat) : ∀ (fs : List Bytes) (pre : List Bytes) (cur : Bytes) (n : Nat),
    (greedyLines w cur fs).length ≤ n + 1 →
    (fs.foldl (packOne w) (pre.length, pre ++ cur :: List.replicate n [])).2
      = pre ++ (greedyLines w cur fs ++ List.replicate (n + 1 - (greedyLines w cur fs).length) [])
  | [], pre, cur, n, _ => by simp [greedyLines]
  | v :: fs, pre, cur, n, h => by
    unfold greedyLines at h ⊢
    rw [List.foldl_cons]
    split at h <;> rename_i hv
    · rw [if_pos hv, packOne_fits hv, foldl_packOne w fs pre (cur ++ v) n h]
    · rw [if_neg hv]
      have hp := greedyLines_length_pos w v fs
      rw [List.length_cons] at h
      obtain ⟨n, rfl⟩ : ∃ k, n = k + 1 := ⟨n - 1, by omega⟩
      rw [List.replicate_succ, packOne_next hv, foldl_packOne w fs (pre ++ [cur]) v n (by omega)]
      simp

theorem packLines_eq {w : Nat} {fs : List Bytes} (h : (greedyLines w [] fs).length ≤ 10) :
    packLines w fs = greedyLines w [] fs ++ List.replicate (10 - (greedyLines w [] fs).length) [] :=
  foldl_packOne w fs [] [] 9 h

/-- Settles O48: nine values make at most ten lines. -/
theorem packIsGreedy : Obligations.PackIsGreedy := by
  unfold Obligations.PackIsGreedy
  intro w fs h
  exact packLines_eq ((greedyLines_length_le w [] fs).trans h)

/-! ### What the greedy lines keep (R267) -/

theorem greedyLines_flatten (w : Nat) (cur : Bytes) (fs : List Bytes) :
    (greedyLines w cur fs).flatten = cur ++ fs.flatten := by
  induction fs generalizing cur with
  | nil => simp [greedyLines]
  | cons f fs ih =>
    unfold greedyLines
    split
    · rw [ih, List.flatten_cons, List.append_assoc]
    · rw [List.flatten_cons, ih, List.flatten_cons]

theorem greedyLines_width {w : Nat} {cur : Bytes} {fs : List Bytes} (hc : cur.length < w)
    (hf : ∀ f ∈ fs, f.length < w) : ∀ l ∈ greedyLines w cur fs, l.length < w := by
  induction fs generalizing cur with
  | nil => simpa [greedyLines] using hc
  | cons f fs ih =>
    rw [List.forall_mem_cons] at hf
    unfold greedyLines
    split
    · rename_i h
      exact ih (by rwa [List.length_append]) hf.2
    · exact List.forall_mem_cons.2 ⟨hc, ih hf.1 hf.2⟩

/-- From a line that is not empty on, values that are not empty make no empty line. -/
theorem greedyLines_ne_nil {w : Nat} {cur : Bytes} {fs : List Bytes} (hc : cur ≠ [])
    (hf : ∀ f ∈ fs, f ≠ []) : ∀ l ∈ greedyLines w cur fs, l ≠ [] := by
  induction fs generalizing cur with
  | nil => simpa [greedyLines] using hc
  | cons f fs ih =>
    rw [List.forall_mem_cons] at hf
    unfold greedyLines
    split
    · exact ih (by simp [hc]) hf.2
    · exact List.forall_mem_cons.2 ⟨hc, ih hf.1 hf.2⟩

theorem populatedPrefix_append_empty {ls : List Bytes} (n : Nat) (h : ∀ l ∈ ls, l ≠ []) :
    populatedPrefix (ls ++ List.replicate n []) = true := by
  induction ls with
  | nil => cases n <;> simp [populatedPrefix, List.replicate_succ]
  | cons l ls ih =>
    rw [List.forall_mem_cons] at h
    simp only [List.cons_append, populatedPrefix, if_neg h.1]
    exact ih h.2

/-- The first value joins the empty line. -/
theorem greedyLines_cons_of_lt {w : Nat} {f : Bytes} (fs : List Bytes) (h : f.length < w) :
    greedyLines w [] (f :: fs) = greedyLines w f fs := by
  simp [greedyLines, h]

/-- What `Pack` guarantees of any strings that are not empty and shorter than a line, ten at most (R267). -/
theorem packLines_guarantees {w : Nat} {fs : List Bytes} (hn : fs.length ≤ 10)
    (hf : ∀ f ∈ fs, f ≠ [] ∧ f.length < w) (hw : 0 < w) :
    (packLines w fs).length = 10 ∧ (∀ l ∈ packLines w fs, l.length < w)
    ∧ populatedPrefix (packLines w fs) = true ∧ (packLines w fs).flatten = fs.flatten := by
  have hg : (greedyLines w [] fs).length ≤ 10 ∧
      ∀ n, populatedPrefix (greedyLines w [] fs ++ List.replicate n []) = true := by
    cases fs with
    | nil => exact ⟨by simp [greedyLines], fun n => by simp [greedyLines, populatedPrefix]⟩
    | cons f fs =>
      rw [List.forall_mem_cons] at hf
      rw [greedyLines_cons_of_lt fs hf.1.2]
      exact ⟨(greedyLines_length_le w f fs).trans hn,
        fun n => populatedPrefix_append_empty n (greedyLines_ne_nil hf.1.1 fun g hg => (hf.2 g hg).1)⟩
  rw [packLines_eq hg.1]
  refine ⟨?_, fun l hl => ?_, hg.2 _, ?_⟩
  · rw [List.length_append, List.length_replicate]; omega
  · rcases List.mem_append.1 hl with hl | hl
    · exact greedyLines_width hw (fun f hm => (hf f hm).2) l hl
    · rw [(List.mem_replicate.1 hl).2]; exact hw
  · rw [List.flatten_append, greedyLines_flatten]; simp

/-! ### Pack over values -/

theorem formatAll_eq_map {p : Nat} : ∀ {vs : List Int} {fs : List Bytes}, formatAll p vs = some fs →
    fs = vs.map fun m => (formatValue p m).getD []
  | [], fs, h => by cases h; rfl
  | m :: ms, fs, h => by
    unfold formatAll at h
    split at h
    · rename_i f fs' h1 h2
      cases h
      rw [List.map_cons, h1, Option.getD_some, ← formatAll_eq_map h2]
    · cases h

theorem mem_formatAll {p : Nat} {vs : List Int} {fs : List Bytes} (h : formatAll p vs = some fs) {f : Bytes}
    (hf : f ∈ fs) : f ≠ [] ∧ f.length ≤ 9 := by
  obtain ⟨m, -, hm⟩ := (formatAll_some h).2 f hf
  exact ⟨List.ne_nil_of_length_pos (formatValue_length hm).1, (formatValue_length hm).2⟩

/-- Settles O47: formatted values are not empty and at most nine characters long. -/
theorem packGuarantees : Obligations.PackGuarantees := by
  unfold Obligations.PackGuarantees
  intro p w vs ls hw hn hp
  obtain ⟨fs, hfs, rfl⟩ := Option.map_eq_some_iff.1 hp
  obtain ⟨h1, h2, h3, h4⟩ := packLines_guarantees (w := w) ((formatAll_some hfs).1.trans_le hn)
    (fun f hf => ⟨(mem_formatAll hfs hf).1, (mem_formatAll hfs hf).2.trans_lt hw⟩) (by omega)
  rw [← formatAll_eq_map hfs]
  exact ⟨h1, h2, h3, hfs, h4⟩

/-- Packing succeeds exactly on values in range (R265). -/
theorem pack_isSome_iff_range {p w : Nat} {vs : List Int} :
    (pack p w vs).isSome = true ↔ ∀ m ∈ vs, m.natAbs < 9999999500000 := by
  rw [pack_isSome]
  exact forall₂_congr fun m _ => formatValueDefinedExactlyInRange p m

end Sys2Proof.Proofs.Pack
end

