-- ==== Sys2Proof/Proofs/Checksum.lean ====
section
/-! The checksum (44_encoder.md R270 to R273): its three characters by arithmetic, and that a turn of either
loop loses nothing. -/

namespace Sys2Proof.Proofs.Checksum

open Sys2Proof Sys2Proof.Machine

/-! ### The characters (R271) -/

/-- `0x40 or` a six-bit number is their sum. -/
theorem or_0x40_toNat {x : Byte} (h : x.toNat < 64) : (0x40#8 ||| x).toNat = 0x40 + x.toNat := by
  rw [BitVec.toNat_or]
  exact (Nat.two_pow_add_eq_or_of_lt (i := 6) h 1).symm

/-- The lowest six bits of a number, as `and` writes them. -/
theorem and_0x3F_toNat (c : BitVec 16) : ((c &&& 0x3F#16).setWidth 8).toNat = c.toNat % 64 := by
  rw [BitVec.toNat_setWidth, BitVec.toNat_and]
  have h : c.toNat &&& 63 = c.toNat % 64 := Nat.and_two_pow_sub_one_eq_mod c.toNat 6
  rw [show (0x3F#16).toNat = 63 from rfl, h]
  omega

/-- The top four, the middle six and the low six bits of a checksum, each a character (R271). -/
theorem crcRender_toNat (c : BitVec 16) : ∃ x y z : Byte, crcRender c = [x, y, z]
    ∧ x.toNat = 0x40 + c.toNat / 4096 ∧ y.toNat = 0x40 + c.toNat / 64 % 64
    ∧ z.toNat = 0x40 + c.toNat % 64 := by
  have hc := c.isLt
  have hx : ((c >>> 12).setWidth 8).toNat = c.toNat / 4096 := by
    rw [BitVec.toNat_setWidth, BitVec.toNat_ushiftRight, Nat.shiftRight_eq_div_pow]
    omega
  have hy : (((c >>> 6) &&& 0x3F#16).setWidth 8).toNat = c.toNat / 64 % 64 := by
    rw [and_0x3F_toNat, BitVec.toNat_ushiftRight, Nat.shiftRight_eq_div_pow]
  have hz := and_0x3F_toNat c
  exact ⟨_, _, _, rfl, hx ▸ or_0x40_toNat (by omega), hy ▸ or_0x40_toNat (by omega),
    hz ▸ or_0x40_toNat (by omega)⟩

/-- Settles O50: by `crcRender_toNat`, of any checksum. -/
theorem checksumCharacters : Obligations.ChecksumCharacters := fun bs => crcRender_toNat (crc16 bs)

/-- The three characters determine the checksum. -/
theorem crcRender_injective : Function.Injective crcRender := by
  intro c d h
  obtain ⟨x, y, z, hc, hx, hy, hz⟩ := crcRender_toNat c
  obtain ⟨x', y', z', hd, hx', hy', hz'⟩ := crcRender_toNat d
  rw [hc, hd] at h
  cases h
  apply BitVec.eq_of_toNat_eq
  omega

/-! ### An altered byte (R273) -/

/-- The highest bit of a turn is the lowest bit that it shifts out: the polynomial has it set. -/
theorem crcBit_getLsbD_15 (c : BitVec 16) : (crcBit c).getLsbD 15 = c.getLsbD 0 := by
  unfold crcBit
  split <;> rename_i h
  · simp [h]
  · simp at h ⊢; simp [h]

/-- A turn of the inner loop loses nothing (R270). -/
theorem crcBit_injective : Function.Injective crcBit := by
  intro c d h
  have h0 : c.getLsbD 0 = d.getLsbD 0 := by rw [← crcBit_getLsbD_15, h, crcBit_getLsbD_15]
  have hs : c >>> 1 = d >>> 1 := by
    unfold crcBit at h
    rw [h0] at h
    split at h
    · exact (BitVec.xor_left_inj _).1 h
    · exact h
  apply BitVec.eq_of_getLsbD_eq
  intro i hi
  cases i with
  | zero => exact h0
  | succ i => simpa [BitVec.getLsbD_ushiftRight, Nat.add_comm] using congrArg (·.getLsbD i) hs

/-- Nor do eight turns: a byte's step tells apart what goes into them. -/
theorem crcByte_eq_iff {c d : BitVec 16} {a b : Byte} :
    crcByte c a = crcByte d b ↔ c ^^^ a.setWidth 16 = d ^^^ b.setWidth 16 := by
  simp only [crcByte, crcBit_injective.eq_iff]

theorem crcByte_left_injective (b : Byte) : Function.Injective (crcByte · b) :=
  fun _ _ h => (BitVec.xor_left_inj _).1 (crcByte_eq_iff.1 h)

theorem crcByte_right_injective (c : BitVec 16) : Function.Injective (crcByte c) := by
  intro a b h
  have hw : a.setWidth 16 = b.setWidth 16 := (BitVec.xor_right_inj _).1 (crcByte_eq_iff.1 h)
  simpa using congrArg (BitVec.setWidth 8) hw

theorem foldl_crcByte_injective (bs : Bytes) : Function.Injective (bs.foldl crcByte) := by
  induction bs with
  | nil => exact fun _ _ h => h
  | cons b bs ih => exact ih.comp (crcByte_left_injective b)

/-- Settles O49: the bytes before leave the same checksum, the altered byte a different one, and the bytes
after keep the two apart. -/
theorem checksumDetectsAnAlteredByte : Obligations.ChecksumDetectsAnAlteredByte := by
  unfold Obligations.ChecksumDetectsAnAlteredByte
  intro pre post a b hab
  have hcrc : crc16 (pre ++ a :: post) ≠ crc16 (pre ++ b :: post) := by
    rw [crc16_append, crc16_append]
    exact fun h => hab (crcByte_right_injective _ (foldl_crcByte_injective post h))
  exact ⟨hcrc, fun h => hcrc (crcRender_injective h)⟩

/-- Settles O51: the checksum by evaluation, its characters from it. -/
theorem checksumExample : Obligations.ChecksumExample := by
  unfold Obligations.ChecksumExample
  have h : crc16 [0x30#8, 0x2B#8, 0x33#8, 0x2E#8, 0x31#8, 0x34#8] = 0xFC5A#16 := by decide +kernel
  exact ⟨h, by rw [crcAscii, h]; decide⟩

end Sys2Proof.Proofs.Checksum
end

