-- ==== Sys2Proof/Proofs/LineSync.lean ====
section
/-! The Line Synchronizer (40_line_sync.md): what an edge does to the two detectors, and how two edges
measure the interval between them. -/

namespace Sys2Proof.Proofs.LineSync

open Sys2Proof Sys2Proof.Machine

theorem exec_onEdge (ts : Timestamp) (lvl : Level) (s : State) :
    exec (.onEdge ts lvl) s = .next (edgeUpdate ts lvl s) := rfl

/-! ### One edge (R121) -/

theorem breakSatisfied_eq (ts : Timestamp) (lvl : Level) (s : State) :
    breakSatisfied ts lvl s
      = (s.waitBreak && decide (lvl = .low) && decide (12000 ≤ (ts - s.prevEdge).toNat)) := rfl

theorem markSatisfied_eq (ts : Timestamp) (lvl : Level) (s : State) :
    markSatisfied ts lvl s
      = (s.waitMark && decide (lvl = .high) && decide (8333 ≤ (ts - s.prevEdge).toNat)) := rfl

theorem edgeUpdate_waitBreak (ts : Timestamp) (lvl : Level) (s : State) :
    (edgeUpdate ts lvl s).waitBreak
      = (s.waitBreak && !(decide (lvl = .low) && decide (12000 ≤ (ts - s.prevEdge).toNat))) := by
  cases h : s.waitBreak <;> simp [edgeUpdate, breakSatisfied_eq, h]

theorem edgeUpdate_waitMark (ts : Timestamp) (lvl : Level) (s : State) :
    (edgeUpdate ts lvl s).waitMark
      = (s.waitMark && !(decide (lvl = .high) && decide (8333 ≤ (ts - s.prevEdge).toNat))) := by
  cases h : s.waitMark <;> simp [edgeUpdate, markSatisfied_eq, h]

/-- The reference edge moves while a detector is outstanding after the two tests. -/
theorem edgeUpdate_prevEdge (ts : Timestamp) (lvl : Level) (s : State) :
    (edgeUpdate ts lvl s).prevEdge
      = if (edgeUpdate ts lvl s).waitBreak = true ∨ (edgeUpdate ts lvl s).waitMark = true then ts
        else s.prevEdge := by
  simp [edgeUpdate]

/-- Settles O1: the three equations above, and no other field. -/
theorem onEdgeEffect : Obligations.OnEdgeEffect := by
  unfold Obligations.OnEdgeEffect
  exact fun ts lvl s => ⟨_, exec_onEdge ts lvl s, edgeUpdate_waitBreak ts lvl s, edgeUpdate_waitMark ts lvl s,
    edgeUpdate_prevEdge ts lvl s, rfl⟩

/-! ### An armed detector (R122, R123, R127) -/

/-- An armed break detector is satisfied by the low that reaches the threshold. -/
theorem isBreakDetected_edge {s : State} (h : s.waitBreak = true) (ts : Timestamp) :
    isBreakDetected (edgeUpdate ts .low s) = decide (12000 ≤ (ts - s.prevEdge).toNat) := by
  simp [isBreakDetected, edgeUpdate_waitBreak, h]

theorem isMarkDetected_edge {s : State} (h : s.waitMark = true) (ts : Timestamp) :
    isMarkDetected (edgeUpdate ts .high s) = decide (8333 ≤ (ts - s.prevEdge).toNat) := by
  simp [isMarkDetected, edgeUpdate_waitMark, h]

theorem waitBreak_false_iff (s : State) : s.waitBreak = false ↔ isBreakDetected s = true := by
  simp [isBreakDetected]

theorem waitMark_false_iff (s : State) : s.waitMark = false ↔ isMarkDetected s = true := by
  simp [isMarkDetected]

theorem edge_low_breaks_iff {s : State} (h : s.waitBreak = true) (ts : Timestamp) :
    (edgeUpdate ts .low s).waitBreak = false ↔ 12000 ≤ (ts - s.prevEdge).toNat := by
  rw [waitBreak_false_iff, isBreakDetected_edge h, decide_eq_true_eq]

theorem edge_high_marks_iff {s : State} (h : s.waitMark = true) (ts : Timestamp) :
    (edgeUpdate ts .high s).waitMark = false ↔ 8333 ≤ (ts - s.prevEdge).toNat := by
  rw [waitMark_false_iff, isMarkDetected_edge h, decide_eq_true_eq]

theorem exec_breakDetected (s : State) :
    exec .breakDetected s
      = .next { s with queries := s.queries ++ [.breakDetected (isBreakDetected s)] } := rfl

theorem exec_markDetected (s : State) :
    exec .markDetected s
      = .next { s with queries := s.queries ++ [.markDetected (isMarkDetected s)] } := rfl

theorem exec_resetDetectionFlags (s : State) : exec .resetDetectionFlags s = .next (rearmFlags s) := rfl

/-- Settles O2: an armed detector is satisfied by the edge that reaches the threshold, and the query reads
the flag. -/
theorem edgeThresholdsAreInclusive : Obligations.EdgeThresholdsAreInclusive := by
  unfold Obligations.EdgeThresholdsAreInclusive
  refine fun ts s => ⟨fun h => ⟨_, exec_onEdge ts .low s, edge_low_breaks_iff h ts, ?_⟩,
    fun h => ⟨_, exec_onEdge ts .high s, edge_high_marks_iff h ts, ?_⟩⟩
  · rw [exec_breakDetected, isBreakDetected_edge h]; rfl
  · rw [exec_markDetected, isMarkDetected_edge h]; rfl

/-- Settles O3: the three calls evaluate. -/
theorem queriesAndRearmEffect : Obligations.QueriesAndRearmEffect := by
  unfold Obligations.QueriesAndRearmEffect
  exact fun s => ⟨exec_breakDetected s, exec_markDetected s, exec_resetDetectionFlags s⟩

/-! ### Two edges (R131) -/

/-- An edge that ends a high leaves an armed break detector armed, and is its reference from then on. -/
theorem edge_high_keeps_break {s : State} (h : s.waitBreak = true) (ts : Timestamp) :
    (edgeUpdate ts .high s).waitBreak = true ∧ (edgeUpdate ts .high s).prevEdge = ts := by
  have hw : (edgeUpdate ts .high s).waitBreak = true := by simp [edgeUpdate_waitBreak, h]
  exact ⟨hw, by rw [edgeUpdate_prevEdge, if_pos (.inl hw)]⟩

theorem edge_low_keeps_mark {s : State} (h : s.waitMark = true) (ts : Timestamp) :
    (edgeUpdate ts .low s).waitMark = true ∧ (edgeUpdate ts .low s).prevEdge = ts := by
  have hw : (edgeUpdate ts .low s).waitMark = true := by simp [edgeUpdate_waitMark, h]
  exact ⟨hw, by rw [edgeUpdate_prevEdge, if_pos (.inr hw)]⟩

/-- Settles O4: the first edge is the reference of the second. -/
theorem detectionIsExactFromAnArmedEdge : Obligations.DetectionIsExactFromAnArmedEdge := by
  unfold Obligations.DetectionIsExactFromAnArmedEdge
  refine fun t0 t1 s => ⟨fun h => ?_, fun h => ?_⟩
  · obtain ⟨hw, hp⟩ := edge_high_keeps_break h t0
    have hb := edge_low_breaks_iff hw t1
    rw [hp] at hb
    exact ⟨_, _, exec_onEdge t0 .high s, exec_onEdge t1 .low _, hb⟩
  · obtain ⟨hw, hp⟩ := edge_low_keeps_mark h t0
    have hm := edge_high_marks_iff hw t1
    rw [hp] at hm
    exact ⟨_, _, exec_onEdge t0 .low s, exec_onEdge t1 .high _, hm⟩

end Sys2Proof.Proofs.LineSync
end

