-- ==== Sys2Proof/Proofs/Instructions.lean ====
section
/-! The instructions: a command is its handler behind the gate (42_session_basic.md R181, R183), and what each
handler writes. -/

namespace Sys2Proof.Proofs.Instructions

open Sys2Proof Sys2Proof.Machine Sys2Proof.Statements

/-- What a command does once the gate has let it through (R183). The rows that are no command have none. -/
def handler : Instr → State → State
  | .ack _ | .wildcardQuery => doAck
  | .identify _ => fun t => finish (sendAscii (t.addr :: (identityText t.cfg.identity ++ crlf)) t)
  | .metadata _ ext => fun t => finish (sendAscii (t.addr :: (metaText t.cfg (metaParams ext) ++ crlf)) t)
  | .changeAddress _ b => doChangeAddress b
  | .measure _ => startMeasurement .m none false
  | .measureIdx _ d => startMeasurement .m (some d.val) false
  | .measureCrc _ => startMeasurement .m none true
  | .concurrent _ => startMeasurement .c none false
  | .concurrentIdx _ d => startMeasurement .c (some d.val) false
  | .verify _ => startMeasurement .v none false
  | .data _ d => fun t => finish (sendAscii (dataFrame t d.val) t)
  | .byteData _ d => fun t => finish (sendBinary (byteDataFrame t d.val) t)
  | .continuous _ d => startMeasurement .r (some d.val) false
  | .highVolumeA _ => startMeasurement .ha none false
  | .highVolumeB _ => startMeasurement .hb none false
  | .extM _ ext => fun t => finish (applyExt (Config.extHandler .extM (extParam ext) ext) t)
  | .extU _ ext => fun t => finish (applyExt (Config.extHandler .extU (-1) ext) t)
  | .passEnter _ => doPassEnter
  | .unknown text _ => doUnknown text
  | .exitToken | .onEdge _ _ | .breakDetected | .markDetected | .resetDetectionFlags => id

/-- A command is its handler behind the gate. -/
theorem exec_command {i : Instr} {a : Byte} (ha : i.address? = some a) (s : State) :
    exec i s = .next (gate a (handler i) s) := by
  cases i <;> cases ha <;> rfl

theorem exec_of_addressed {i : Instr} {a : Byte} {s : State} (ha : i.address? = some a)
    (h : a = s.addr ∨ a = chWild) : exec i s = .next (handler i (activate s)) := by
  rw [exec_command ha, gate_of_addressed _ h]

theorem exec_of_not_addressed {i : Instr} {a : Byte} {s : State} (ha : i.address? = some a) (h1 : a ≠ s.addr)
    (h2 : a ≠ chWild) : exec i s = .next s := by
  rw [exec_command ha, gate_of_not_addressed _ h1 h2]

/-- The three kinds of instruction: a command, the token of pass-through, and a call. -/
theorem instr_cases (i : Instr) :
    (∃ a, i.address? = some a) ∨ i = .exitToken ∨ (∃ ts lvl, i = .onEdge ts lvl)
      ∨ i ∈ [Instr.breakDetected, .markDetected, .resetDetectionFlags] := by
  cases i <;> simp [Instr.address?]

/-- The token leaves pass-through, and elsewhere is a command that no form takes (R206, R90, log 17). -/
theorem exec_exitToken_cases (s : State) :
    (s.state = .serialPassthrough ∧ exec .exitToken s = .next (passExit s))
    ∨ (s.state ≠ .serialPassthrough ∧ exec .exitToken s = exec (.unknown exitText false) s) := by
  by_cases h : s.state = .serialPassthrough
  · exact .inl ⟨h, if_pos h⟩
  · exact .inr ⟨h, if_neg h⟩

/-! ### What a handler writes -/

/-- The state after a reply: frames sent, bytes to the sensor, the session at rest. -/
def replied (fs : List Frame) (bs : Bytes) (s : State) : State :=
  { s with trace := s.trace ++ fs, ptOut := s.ptOut ++ bs, active := false, state := .lowPower }

theorem finish_sendAscii (bs : Bytes) (s : State) : finish (sendAscii bs s) = replied [.ascii bs] [] s := by
  simp [replied, finish, sendAscii]

theorem finish_sendBinary (bs : Bytes) (s : State) :
    finish (sendBinary bs s) = replied [.binary bs] [] s := by
  simp [replied, finish, sendBinary]

/-- The frames that the bounds of R194 allow. -/
def extFrames (addr : Byte) (e : ExtEffect) : List Frame :=
  match e.reply with
  | none => []
  | some text => [.ascii (addr :: (text ++ crlf))]

theorem finish_applyExt (e : ExtEffect) (s : State) :
    finish (applyExt e s) = replied (extFrames s.addr e) e.toSensor s := by
  unfold applyExt extFrames
  cases e.reply <;> simp [replied, finish, sendAscii, toSensor]

/-- The frame of a debug echo, when it is on (R208). -/
def echoFrames (cfg : Params) (text : Bytes) : List Frame :=
  if cfg.debugEcho = true then [.ascii (Config.debugEchoText text)] else []

theorem doUnknown_eq (text : Bytes) (s : State) :
    doUnknown text s = replied (echoFrames s.cfg text) [] s := by
  unfold doUnknown echoFrames
  split
  · exact finish_sendAscii _ s
  · simp [replied, finish]

/-- The frames and the sensor bytes of a command that replies at once, from the state it runs in. -/
def replyOf : Instr → State → Option (List Frame × Bytes)
  | .ack _, s | .wildcardQuery, s => some ([.ascii (s.addr :: crlf)], [])
  | .identify _, s => some ([.ascii (s.addr :: (identityText s.cfg.identity ++ crlf))], [])
  | .metadata _ ext, s => some ([.ascii (s.addr :: (metaText s.cfg (metaParams ext) ++ crlf))], [])
  | .data _ d, s => some ([.ascii (dataFrame s d.val)], [])
  | .byteData _ d, s => some ([.binary (byteDataFrame s d.val)], [])
  | .extM _ ext, s =>
    some (extFrames s.addr (Config.extHandler .extM (extParam ext) ext),
      (Config.extHandler .extM (extParam ext) ext).toSensor)
  | .extU _ ext, s =>
    some (extFrames s.addr (Config.extHandler .extU (-1) ext), (Config.extHandler .extU (-1) ext).toSensor)
  | .unknown text _, s => some (echoFrames s.cfg text, [])
  | _, _ => none

/-- A reply from the activated state is one from the state itself: the return to rest overwrites the
activation, and the reply reads nothing of it. -/
theorem handler_reply {i : Instr} {s : State} {fs : List Frame} {bs : Bytes}
    (h : replyOf i s = some (fs, bs)) : handler i (activate s) = replied fs bs s := by
  cases i <;> cases h
  case ack | wildcardQuery | identify | metadata | data => exact finish_sendAscii _ (activate s)
  case byteData => exact finish_sendBinary _ (activate s)
  case extM | extU => exact finish_applyExt _ (activate s)
  case unknown => exact doUnknown_eq _ (activate s)

theorem exec_reply {i : Instr} {a : Byte} {s : State} {fs : List Frame} {bs : Bytes}
    (ha : i.address? = some a) (h : a = s.addr ∨ a = chWild) (hr : replyOf i s = some (fs, bs)) :
    exec i s = .next (replied fs bs s) := by
  rw [exec_of_addressed ha h, handler_reply hr]

/-- A reply that sends nothing to the sensor. -/
theorem replied_frames (fs : List Frame) (s : State) :
    replied fs [] s = { s with trace := s.trace ++ fs, active := false, state := .lowPower } := by
  simp [replied]

theorem exec_reply_frames {i : Instr} {a : Byte} {s : State} {fs : List Frame}
    (ha : i.address? = some a) (h : a = s.addr ∨ a = chWild) (hr : replyOf i s = some (fs, [])) :
    exec i s = .next { s with trace := s.trace ++ fs, active := false, state := .lowPower } := by
  rw [exec_reply ha h hr, replied_frames]

/-- Everything that a change of address writes (R186). -/
theorem doChangeAddress_eq (b : Byte) (s : State) :
    doChangeAddress b s = { s with
      addr := b, nvm := b, nvmWrites := if b = s.nvm then s.nvmWrites else s.nvmWrites ++ [b]
      trace := s.trace ++ [.ascii (b :: crlf)], active := false, state := .lowPower } := by
  unfold doChangeAddress
  split
  · rename_i h; simp [sendAddress, sendAscii, finish, h]
  · rfl

/-- A measurement form is a command that starts its measurement (R231 to R239). -/
theorem measurementForm_some {i : Instr} {a : Byte} {cls : MeasClass} {idx : Option Nat} {crc : Bool}
    (h : measurementForm i = some (a, cls, idx, crc)) :
    i.address? = some a ∧ handler i = startMeasurement cls idx crc := by
  cases i <;> cases h <;> exact ⟨rfl, rfl⟩

/-! ### The immediate commands (R185 to R194, R203, R208) -/

/-- Settles O19: the reply is `exec_reply_frames`, and identity strings are of printable characters by
their type. -/
theorem identifyReply : Obligations.IdentifyReply := by
  unfold Obligations.IdentifyReply
  refine fun a s h => ⟨identityText s.cfg.identity, rfl, fun b hb => ?_, exec_reply_frames rfl h rfl⟩
  simp only [identityText, ← printBytes_append] at hb
  exact printBytes_legal hb

/-- Settles O20: by `doChangeAddress_eq`, the activation overwritten. -/
theorem changeAddressEffect : Obligations.ChangeAddressEffect := by
  unfold Obligations.ChangeAddressEffect
  intro a b s h
  rw [exec_of_addressed rfl h]
  exact congrArg Host.Outcome.next (doChangeAddress_eq b (activate s))

/-- The frame of a data reply, the checksum split off (R187). -/
theorem dataFrame_eq (s : State) (n : Nat) :
    dataFrame s n = s.addr :: s.lines.getD n []
      ++ (if s.crcLatched = true then crcAscii (s.addr :: s.lines.getD n []) else []) ++ crlf := by
  unfold dataFrame lineSlot
  split <;> simp

/-- Settles O21: a reply with the frame `dataFrame_eq`. -/
theorem dataReply : Obligations.DataReply := by
  unfold Obligations.DataReply
  intro a d s h
  rw [← dataFrame_eq]
  exact exec_reply_frames rfl h rfl

/-- The frame of a byte-data reply, the checksum split off (R189). -/
theorem byteDataFrame_eq {s : State} {n : Nat} {f : Bytes}
    (hf : f = s.addr :: (le16 (dbEncode s n).2.length ++ (dbEncode s n).1 :: (dbEncode s n).2)) :
    byteDataFrame s n = f ++ if s.crcLatched = true then le16 (crc16 f).toNat else [] := by
  subst hf
  unfold byteDataFrame
  dsimp only
  split
  · rfl
  · rw [List.append_nil]

/-- Settles O22: a reply with the frame `byteDataFrame_eq`. -/
theorem byteDataReply : Obligations.ByteDataReply := by
  unfold Obligations.ByteDataReply
  intro a d s h f hf
  have hr := exec_reply_frames (i := .byteData a d) rfl h rfl
  rwa [byteDataFrame_eq hf] at hr

/-- Settles O23: the two tests of `dbEncode`. -/
theorem byteDataPayload : Obligations.ByteDataPayload := by
  unfold Obligations.ByteDataPayload
  refine fun s n => ⟨fun h => if_pos h, fun h hd => ?_⟩
  unfold dbEncode lineSlot
  rw [if_neg h, hd]

/-- Settles O24: a reply with the text of the normalised key. -/
theorem metadataReply : Obligations.MetadataReply := by
  unfold Obligations.MetadataReply
  intro a ext p1 p2 s h hd
  have hm : metaText s.cfg (metaParams ext) = (ixTable s.cfg (if p1 = 1 then 0 else p1, p2)).getD [] := by
    rw [metaParams, hd]; rfl
  rw [← hm]
  exact exec_reply_frames rfl h rfl

theorem extParam_eq (ext : Bytes) : extParam ext = if ext = [] then -1 else (decimalValue ext : Int) := by
  simp [extParam]

/-- Settles O25: both forms reply with what the handler gives. -/
theorem extendedCommandsKeepTheBounds : Obligations.ExtendedCommandsKeepTheBounds := by
  unfold Obligations.ExtendedCommandsKeepTheBounds
  refine fun a ext s h => ⟨fun e he => ?_, fun e he => ?_⟩
  · rw [← extParam_eq] at he
    subst he
    exact exec_reply (i := .extM a ext) rfl h rfl
  · subst he
    exact exec_reply (i := .extU a ext) rfl h rfl

/-- Settles O26: a reply whose frames are those of the echo. -/
theorem unknownCommandEffect : Obligations.UnknownCommandEffect := by
  unfold Obligations.UnknownCommandEffect
  intro text ovf s h
  have hr := exec_reply_frames (i := .unknown text ovf) rfl h rfl
  refine ⟨fun he => ?_, fun he => ?_⟩ <;> rw [hr]
  · simp [echoFrames, he]
  · simp [echoFrames, he]

/-- Settles O27: the handler runs from the activated state. -/
theorem passEnterEffect : Obligations.PassEnterEffect := by
  unfold Obligations.PassEnterEffect
  exact fun a s h => exec_of_addressed rfl h

/-- Settles O28: the two branches of the token. -/
theorem exitTokenEffect : Obligations.ExitTokenEffect := by
  unfold Obligations.ExitTokenEffect
  exact fun s => ⟨fun h => if_pos h, fun h => if_neg h⟩

/-! ### The measurement commands (R222, R223) -/

theorem dec_three (n : Nat) : dec n 3 = [digitByte (n / 100), digitByte (n / 10), digitByte n] := by
  simp [dec, Nat.div_div_eq_div_mul]

/-- The acknowledgment is written as R93 and R94 write it, in every class. -/
theorem ackFrame_eq (addr : Byte) (cls : MeasClass) (ttt n : Nat) :
    addr :: (ackContent cls ttt n ++ crlf) = ackFrame addr cls ttt n := by
  rw [ackContent, dec_three]
  cases cls <;> rfl

theorem exec_measurement {i : Instr} {a : Byte} {cls : MeasClass} {idx : Option Nat} {crc : Bool} {s : State}
    (hm : measurementForm i = some (a, cls, idx, crc)) (h : a = s.addr ∨ a = chWild) :
    exec i s = .next (startMeasurement cls idx crc (activate s)) := by
  obtain ⟨ha, hh⟩ := measurementForm_some hm
  rw [exec_of_addressed ha h, hh]

theorem classState_eq (cls : MeasClass) : classState cls = (classAttributes cls).1 := by cases cls <;> rfl

theorem startMeasurement_of_entry {cls : MeasClass} {idx : Option Nat} {e : MeasEntry} {s : State}
    (crc : Bool) (he : measTable s.cfg cls idx = some e) :
    startMeasurement cls idx crc (activate s) = { s with
      crcLatched := crc, count := e.n
      trace := s.trace ++ [.ascii (ackFrame s.addr cls e.ttt.val e.n)]
      state := (classAttributes cls).1, active := true
      acq := some e.req, acqReqs := s.acqReqs ++ [e.req] } := by
  rcases startMeasurement_cases cls idx crc (activate s) with ⟨e', he', h⟩ | ⟨he', -⟩ <;>
    rw [activate_cfg, he] at he' <;> cases he'
  rw [h, acknowledge_eq, ackFrame_eq, classState_eq]
  rfl

theorem startMeasurement_of_none {cls : MeasClass} {idx : Option Nat} {s : State} (crc : Bool)
    (he : measTable s.cfg cls idx = none) :
    startMeasurement cls idx crc (activate s) = { s with
      crcLatched := crc, count := 0
      values := [0, 0, 0, 0, 0], lines := [[], [], [], [], [], [], [], [], [], []]
      trace := s.trace ++ [.ascii (ackFrame s.addr cls 0 0)]
      state := .lowPower, active := false } := by
  rcases startMeasurement_cases cls idx crc (activate s) with ⟨e', he', -⟩ | ⟨-, h⟩
  · rw [activate_cfg, he] at he'; cases he'
  · rw [h, zeroCount_eq, ackFrame_eq]; rfl

/-- Settles O31: by `startMeasurement_of_entry`. -/
theorem measurementIsAcknowledged : Obligations.MeasurementIsAcknowledged := by
  unfold Obligations.MeasurementIsAcknowledged
  intro i a cls idx crc e s hm h he
  rw [exec_measurement hm h, startMeasurement_of_entry crc he]

/-- Settles O32: by `startMeasurement_of_none`. -/
theorem missingEntryIsZeroCount : Obligations.MissingEntryIsZeroCount := by
  unfold Obligations.MissingEntryIsZeroCount
  intro i a cls idx crc s hm h he
  rw [exec_measurement hm h, startMeasurement_of_none crc he]

/-- Settles O33: the entry that the source fixes is there in every configuration. -/
theorem plainMeasureAnswersOneSecondTwoValues : Obligations.PlainMeasureAnswersOneSecondTwoValues := by
  unfold Obligations.PlainMeasureAnswersOneSecondTwoValues
  intro a s h
  have he : measTable s.cfg .m none = some ⟨1, 1, s.cfg.reqM⟩ := rfl
  have hf : ackFrame s.addr .m 1 2 = [s.addr, 0x30#8, 0x30#8, 0x31#8, 0x32#8, 0x0D#8, 0x0A#8] := rfl
  exact ⟨_, _, measurementIsAcknowledged (.measure a) a .m none false _ s rfl h he,
    measurementIsAcknowledged (.measureCrc a) a .m none true _ s rfl h he, hf ▸ rfl, rfl, rfl, rfl, rfl, rfl⟩

/-! ### Cancel (R291) -/

theorem lines_empty_getD (d : Nat) : (List.replicate Config.lineSlots ([] : Bytes)).getD d [] = [] := by
  rw [List.getD_eq_getElem?_getD, List.getElem?_replicate]
  split <;> rfl

/-- Settles O37: after a cancellation every line slot is empty. -/
theorem cancelEffect : Obligations.CancelEffect := by
  unfold Obligations.CancelEffect
  refine fun s => ⟨rfl, fun a d h => ⟨_, exec_reply_frames (i := .data a d) (s := cancel s) rfl h rfl, ?_⟩⟩
  rw [dataFrame_eq, cancel_lines, lines_empty_getD]
  rfl

/-! ### What an instruction can do, said once -/

/-- At most one frame, which begins with the address; an ASCII one ends in `CRLF` (R91, R97). -/
def OwnFrame (addr : Byte) (fs : List Frame) : Prop :=
  fs = [] ∨ (∃ body, fs = [.ascii (addr :: (body ++ crlf))]) ∨ ∃ body, fs = [.binary (addr :: body)]

theorem ownFrame_ascii (addr : Byte) (body : Bytes) : OwnFrame addr [.ascii (addr :: (body ++ crlf))] :=
  .inr (.inl ⟨body, rfl⟩)

theorem ownFrame_extFrames (addr : Byte) (e : ExtEffect) : OwnFrame addr (extFrames addr e) := by
  unfold extFrames
  split
  · exact .inl rfl
  · exact ownFrame_ascii addr _

/-- With the echo off every reply carries the own address. -/
theorem ownFrame_replyOf {i : Instr} {s : State} {fs : List Frame} {bs : Bytes}
    (h : replyOf i s = some (fs, bs)) (he : s.cfg.debugEcho = false) : OwnFrame s.addr fs := by
  cases i <;> cases h
  case ack | wildcardQuery => exact ownFrame_ascii s.addr []
  case identify | metadata => exact ownFrame_ascii s.addr _
  case data d =>
    rw [dataFrame_eq, List.cons_append, List.cons_append]
    exact ownFrame_ascii s.addr _
  case byteData d =>
    rw [byteDataFrame_eq rfl, List.cons_append]
    exact .inr (.inr ⟨_, rfl⟩)
  case extM | extU => exact ownFrame_extFrames s.addr _
  case unknown => exact .inl (by simp [echoFrames, he])

/-- What an instruction can do to a state. -/
inductive Effect (i : Instr) (s : State) : State → Prop
  /-- a command for another device (R181) -/
  | discarded (h : ∀ a, i.address? = some a → a ≠ s.addr ∧ a ≠ chWild) : Effect i s s
  /-- a command that is answered at once -/
  | reply (fs : List Frame) (bs : Bytes) (hm : measurementForm i = none)
      (hf : s.cfg.debugEcho = false → OwnFrame s.addr fs) : Effect i s (replied fs bs s)
  /-- R186 -/
  | changedAddress (a b : Byte) (hi : i = .changeAddress a b) : Effect i s { s with
      addr := b, nvm := b, nvmWrites := if b = s.nvm then s.nvmWrites else s.nvmWrites ++ [b]
      trace := s.trace ++ [.ascii (b :: crlf)], active := false, state := .lowPower }
  /-- R222 -/
  | acknowledged (a : Byte) (cls : MeasClass) (idx : Option Nat) (crc : Bool) (e : MeasEntry)
      (hm : measurementForm i = some (a, cls, idx, crc)) : Effect i s { s with
      crcLatched := crc, count := e.n
      trace := s.trace ++ [.ascii (s.addr :: (ackContent cls e.ttt.val e.n ++ crlf))]
      state := classState cls, active := true
      acq := some e.req, acqReqs := s.acqReqs ++ [e.req] }
  /-- R223 -/
  | zeroCount (a : Byte) (cls : MeasClass) (idx : Option Nat) (crc : Bool)
      (hm : measurementForm i = some (a, cls, idx, crc)) : Effect i s { s with
      crcLatched := crc, count := 0
      values := List.replicate Config.valueMax 0, lines := List.replicate Config.lineSlots []
      trace := s.trace ++ [.ascii (s.addr :: (ackContent cls 0 0 ++ crlf))]
      active := false, state := .lowPower }
  /-- R203 -/
  | enteredPass (a : Byte) (hi : i = .passEnter a) : Effect i s { s with
      state := .serialPassthrough, active := true, ptWin := List.replicate 5 0x00#8 }
  /-- R206 -/
  | exitedPass (hi : i = .exitToken) (hs : s.state = .serialPassthrough) : Effect i s (passExit s)
  /-- R121 -/
  | edge (ts : Timestamp) (lvl : Level) (hi : i = .onEdge ts lvl) : Effect i s (edgeUpdate ts lvl s)
  /-- R122, R123 -/
  | query (q : QueryResult) (hi : i = .breakDetected ∨ i = .markDetected) : Effect i s (returnQuery q s)
  /-- R124 -/
  | rearmed (hi : i = .resetDetectionFlags) : Effect i s (rearmFlags s)

theorem effect_startMeasurement {i : Instr} {a : Byte} {cls : MeasClass} {idx : Option Nat} {crc : Bool}
    (s : State) (hm : measurementForm i = some (a, cls, idx, crc)) :
    Effect i s (startMeasurement cls idx crc (activate s)) := by
  rcases startMeasurement_cases cls idx crc (activate s) with ⟨e, -, h⟩ | ⟨-, h⟩ <;> rw [h]
  · exact .acknowledged a cls idx crc e hm
  · exact .zeroCount a cls idx crc hm

theorem effect_immediate {i : Instr} {a : Byte} (s : State) (ha : i.address? = some a)
    (hm : measurementForm i = none) : Effect i s (handler i (activate s)) := by
  have hr : ∀ {fs bs}, replyOf i s = some (fs, bs) → Effect i s (handler i (activate s)) := fun h =>
    handler_reply h ▸ .reply _ _ hm (ownFrame_replyOf h)
  cases i <;> cases ha
  case measure | measureIdx | measureCrc | concurrent | concurrentIdx | verify | continuous | highVolumeA
    | highVolumeB => cases hm
  case changeAddress b =>
    rw [handler, doChangeAddress_eq]
    exact .changedAddress a b rfl
  case passEnter => exact .enteredPass a rfl
  case ack | wildcardQuery | identify | metadata | data | byteData | extM | extU | unknown => exact hr rfl

/-- What a command that passes the gate does. -/
theorem effect_handler {i : Instr} {a : Byte} (s : State) (ha : i.address? = some a) :
    Effect i s (handler i (activate s)) := by
  cases hm : measurementForm i with
  | none => exact effect_immediate s ha hm
  | some p =>
    obtain ⟨a', cls, idx, crc⟩ := p
    rw [(measurementForm_some hm).2]
    exact effect_startMeasurement s hm

/-- Outside pass-through the token is silent but for the debug echo, addressed or not. -/
theorem effect_exitText (s : State) :
    ∃ t, exec (.unknown exitText false) s = .next t ∧ Effect .exitToken s t := by
  by_cases h : exitText.headD 0x00#8 = s.addr ∨ exitText.headD 0x00#8 = chWild
  · refine ⟨_, exec_reply (i := .unknown exitText false) rfl h rfl, .reply _ _ rfl fun he => ?_⟩
    exact ownFrame_replyOf (i := .unknown exitText false) rfl he
  · rw [not_or] at h
    exact ⟨s, exec_of_not_addressed (i := .unknown exitText false) rfl h.1 h.2, .discarded nofun⟩

/-- Every instruction completes in every state, with one of these effects. -/
theorem exec_effect (i : Instr) (s : State) : ∃ t, exec i s = .next t ∧ Effect i s t := by
  rcases instr_cases i with ⟨a, ha⟩ | rfl | ⟨ts, lvl, rfl⟩ | hi
  · by_cases h : a = s.addr ∨ a = chWild
    · exact ⟨_, exec_of_addressed ha h, effect_handler s ha⟩
    · rw [not_or] at h
      refine ⟨s, exec_of_not_addressed ha h.1 h.2, .discarded fun b hb => ?_⟩
      cases ha.symm.trans hb
      exact h
  · rcases exec_exitToken_cases s with ⟨hs, h⟩ | ⟨-, h⟩
    · exact ⟨_, h, .exitedPass rfl hs⟩
    · rw [h]
      exact effect_exitText s
  · exact ⟨_, rfl, .edge ts lvl rfl⟩
  · simp only [List.mem_cons, List.not_mem_nil, or_false] at hi
    rcases hi with rfl | rfl | rfl
    · exact ⟨_, rfl, .query _ (.inl rfl)⟩
    · exact ⟨_, rfl, .query _ (.inr rfl)⟩
    · exact ⟨_, rfl, .rearmed rfl⟩

theorem effect_of_exec {i : Instr} {s t : State} (h : exec i s = .next t) : Effect i s t := by
  obtain ⟨u, hu, he⟩ := exec_effect i s
  cases hu.symm.trans h
  exact he

/-! ### Consequences -/

/-- Settles O52: every effect leaves these fields alone. -/
theorem everyInstructionCompletes : Obligations.EveryInstructionCompletes := by
  unfold Obligations.EveryInstructionCompletes
  intro i s
  obtain ⟨t, ht, he⟩ := exec_effect i s
  refine ⟨t, ht, ?_⟩
  cases he <;> exact ⟨rfl, rfl, rfl, rfl, rfl, rfl, rfl, rfl⟩

/-- Settles O58: one frame or none in every effect, with the address that the device then has. -/
theorem framesCarryTheOwnAddress : Obligations.FramesCarryTheOwnAddress := by
  unfold Obligations.FramesCarryTheOwnAddress
  intro i s t he h
  cases effect_of_exec h with
  | discarded | enteredPass | edge | query | rearmed => exact .inl rfl
  | reply fs bs _ hf =>
    rcases hf he with rfl | ⟨body, rfl⟩ | ⟨body, rfl⟩
    · exact .inl (List.append_nil _)
    · exact .inr (.inl ⟨body, rfl⟩)
    · exact .inr (.inr ⟨body, rfl⟩)
  | changedAddress | exitedPass => exact .inr (.inl ⟨[], rfl⟩)
  | acknowledged | zeroCount => exact .inr (.inl ⟨_, rfl⟩)

/-- Only `aMC!` requests the checksum (R233). -/
theorem measurementForm_crc_iff {i : Instr} {a : Byte} {cls : MeasClass} {idx : Option Nat} {crc : Bool}
    (h : measurementForm i = some (a, cls, idx, crc)) : crc = true ↔ i = .measureCrc a := by
  cases i <;> cases h <;> simp

/-- Settles O59: a measurement writes the latch first; no other effect writes it. -/
theorem checksumLatchFollowsTheLastMeasurement : Obligations.ChecksumLatchFollowsTheLastMeasurement := by
  unfold Obligations.ChecksumLatchFollowsTheLastMeasurement
  intro i s t h
  refine ⟨fun a cls idx crc hm => ⟨measurementForm_crc_iff hm, fun ha => ?_, fun h1 h2 => ?_⟩, fun hm => ?_⟩
  · rw [exec_measurement hm ha] at h
    cases h
    rcases startMeasurement_cases cls idx crc (activate s) with ⟨e, -, h⟩ | ⟨-, h⟩ <;> rw [h] <;> rfl
  · rw [exec_of_not_addressed (measurementForm_some hm).1 h1 h2] at h
    cases h
    rfl
  · cases effect_of_exec h with
    | acknowledged _ _ _ _ _ hm' | zeroCount _ _ _ _ hm' => cases hm.symm.trans hm'
    | discarded | reply | changedAddress | enteredPass | exitedPass | edge | query | rearmed => rfl

/-- An instruction leaves the store alone, unless it is a change of address to another byte (R67, R186). -/
theorem exec_nvm {i : Instr} {s t : State} (h : exec i s = .next t) :
    (t.nvm = s.nvm ∧ t.nvmWrites = s.nvmWrites)
    ∨ ∃ a b, i = .changeAddress a b ∧ b ≠ s.nvm ∧ t.nvm = b ∧ t.addr = b
      ∧ t.nvmWrites = s.nvmWrites ++ [b] := by
  cases effect_of_exec h with
  | discarded | reply | acknowledged | zeroCount | enteredPass | exitedPass | edge | query | rearmed =>
    exact .inl ⟨rfl, rfl⟩
  | changedAddress a b hi =>
    by_cases hb : b = s.nvm
    · exact .inl ⟨hb, if_pos hb⟩
    · exact .inr ⟨a, b, hi, hb, rfl, rfl, if_neg hb⟩

end Sys2Proof.Proofs.Instructions
end

