-- ==== Sys2Proof/Proofs/Steps.lean ====
section
/-! The steps of the foreground agent and of the environment (42_session_basic.md R180 to R184, R204, R207):
what each input does, as an equation. -/

namespace Sys2Proof.Proofs.Steps

open Sys2Proof Sys2Proof.Machine Sys2Proof.Statements
open Sys2Proof.Proofs.Commitment Sys2Proof.Proofs.Instructions

/-! ### The foreground agent -/

/-- The foreground agent moves: its turn is due, or no input is left (log 5). -/
def Polls (s : State) (rest : List Input) : Prop := s.inputs = .poll :: rest ∨ (s.inputs = [] ∧ rest = [])

theorem step_of_inputs_nil {s : State} (h : s.inputs = []) : step s = foreground s := by
  rcases step_cases s with ⟨-, hf⟩ | ⟨e, rest, hin, -⟩
  · exact hf
  · rw [h] at hin; cases hin

theorem step_of_polls {s : State} {rest : List Input} (h : Polls s rest) :
    step s = foreground { s with inputs := rest } := by
  rcases h with h | ⟨h, rfl⟩
  · exact step_of_inputs_cons h
  · have hs : { s with inputs := [] } = s := by rw [← h]
    rw [hs]
    exact step_of_inputs_nil h

/-- At rest the foreground agent receives; with nothing there F-RX idles too. -/
theorem foreground_of_rest {s : State} (h : s.state = .lowPower) : foreground s = fRx s := by
  by_cases ha : available s = 0
  · have hn : ¬ (s.rxOvf = true ∨ s.rxq ≠ []) := fun hh => available_ne_zero.2 hh ha
    rw [not_or, not_not, Bool.not_eq_true] at hn
    simp [foreground, ha, fRx, hn]
  · simp [foreground, ha, h]

theorem foreground_of_pass {s : State} (h : s.state = .serialPassthrough) : foreground s = fPtBus s := by
  by_cases ha : available s = 0
  · have hn : ¬ (s.rxOvf = true ∨ s.rxq ≠ []) := fun hh => available_ne_zero.2 hh ha
    rw [not_or, not_not, Bool.not_eq_true] at hn
    simp [foreground, ha, fPtBus, hn]
  · simp [foreground, ha, h]

/-- A byte is stored where there is room for it, and dropped where there is none (R61). -/
theorem storeByte_of_room {s : State} {b : Byte} (h : s.cmdLen < Config.cmdMax) :
    storeByte b s = { s with cmdBuf := s.cmdBuf.set s.cmdLen b, cmdLen := s.cmdLen + 1 } := if_pos h

theorem storeByte_of_full {s : State} {b : Byte} (h : Config.cmdMax ≤ s.cmdLen) :
    storeByte b s = { s with cmdOvf := true } := if_neg (Nat.not_lt.2 h)

theorem fRx_of_overflow {s : State} (h : s.rxOvf = true) : fRx s = .next (overflowRecover s) := if_pos h

theorem fRx_of_byte {s : State} {b : Byte} {q : Bytes} (ho : s.rxOvf = false) (hq : s.rxq = b :: q)
    (hb : b ≠ chBang) : fRx s = .next (storeByte b (setQueue q s)) := by
  simp [fRx, ho, hq, hb]

theorem fRx_of_terminator {s : State} {q : Bytes} (ho : s.rxOvf = false) (hq : s.rxq = chBang :: q) :
    fRx s = exec (heldInstr s) (endCommand (setQueue q s)) := by
  simp [fRx, ho, hq]

theorem fPtBus_of_overflow {s : State} (h : s.rxOvf = true) : fPtBus s = .next (clearBuffer s) := if_pos h

theorem fPtBus_of_byte {s : State} {b : Byte} {q : Bytes} (ho : s.rxOvf = false) (hq : s.rxq = b :: q) :
    fPtBus s =
      if s.ptWin.drop 1 ++ [b] = exitBytes then exec .exitToken (shiftWindow b (toSensor [b] (setQueue q s)))
      else .next (shiftWindow b (toSensor [b] (setQueue q s))) := by
  simp [fPtBus, ho, hq]

/-- At a terminator the held command runs (R182). -/
theorem step_terminator {s : State} {rest : List Input} {q : Bytes} (hp : Polls s rest)
    (hs : s.state = .lowPower) (ho : s.rxOvf = false) (hq : s.rxq = chBang :: q) :
    step s = exec (decodeCommand (s.cmdBuf.take s.cmdLen) s.cmdOvf)
      { s with
        inputs := rest, rxq := q, waitBreak := true, waitMark := true, cmdLen := 0, cmdOvf := false } := by
  rw [step_of_polls hp, foreground_of_rest (s := { s with inputs := rest }) hs,
    fRx_of_terminator (s := { s with inputs := rest }) ho hq]
  rfl

/-- Settles O13: the bytes of a well-formed command in the buffer decode to it. -/
theorem stepRunsTheHeldCommand : Obligations.StepRunsTheHeldCommand := by
  unfold Obligations.StepRunsTheHeldCommand
  intro s rest q hp hs ho hq
  refine ⟨step_terminator hp hs ho hq, fun i hw hc hl hovf he => ?_⟩
  have hd := Codec.decodeBody_encode i hw hc
  rw [← he, List.dropLast_concat,
    Codec.decodeBody_of_fits ((List.length_take_le _ _).trans hl)] at hd
  rw [step_terminator hp hs ho hq, hovf, hd]

/-- Settles O14: by `fPtBus_of_byte`. -/
theorem stepForwardsBusBytesAndRunsTheToken : Obligations.StepForwardsBusBytesAndRunsTheToken := by
  unfold Obligations.StepForwardsBusBytesAndRunsTheToken
  intro s rest b q hp hs ho hq
  rw [step_of_polls hp, foreground_of_pass (s := { s with inputs := rest }) hs,
    fPtBus_of_byte (s := { s with inputs := rest }) ho hq]
  rfl

/-- Settles O15: an input runs its operation, and a direct call tests for rest. -/
theorem stepRunsLineSynchronizerCalls : Obligations.StepRunsLineSynchronizerCalls := by
  unfold Obligations.StepRunsLineSynchronizerCalls
  refine fun s rest => ⟨fun ts lvl h => step_of_inputs_cons h, fun hs => ⟨?_, ?_, ?_⟩, fun hs h => ?_⟩
  · exact fun h => (step_of_inputs_cons h).trans (if_pos hs)
  · exact fun h => (step_of_inputs_cons h).trans (if_pos hs)
  · exact fun h => (step_of_inputs_cons h).trans (if_pos hs)
  · rcases h with h | h | h <;> exact (step_of_inputs_cons h).trans (if_neg hs)

/-- Settles O16: the turns of F-RX and F-PT-BUS, and the two cases of the Transport. -/
theorem receptionOfBytesAndOverflow : Obligations.ReceptionOfBytesAndOverflow := by
  unfold Obligations.ReceptionOfBytesAndOverflow
  refine fun s rest => ⟨fun hp hs => ?_, fun hp hs ho => ?_, fun b hb => ?_, step_of_inputs_cons⟩
  · rw [step_of_polls (.inl hp), foreground_of_rest (s := { s with inputs := rest }) hs]
    refine ⟨fun b q ho hq hb hl => ?_, fun b q ho hq hb hl => ?_, fun ho => ?_⟩
    · rw [fRx_of_byte (s := { s with inputs := rest }) ho hq hb, storeByte_of_room (by exact hl)]
      rfl
    · rw [fRx_of_byte (s := { s with inputs := rest }) ho hq hb, storeByte_of_full (by exact hl)]
      rfl
    · rw [fRx_of_overflow (s := { s with inputs := rest }) ho]
      rfl
  · rw [step_of_polls (.inl hp), foreground_of_pass (s := { s with inputs := rest }) hs,
      fPtBus_of_overflow (s := { s with inputs := rest }) ho]
    rfl
  · rw [step_of_inputs_cons hb]
    rcases rxAppend_cases b { s with inputs := rest } with ⟨h, he⟩ | ⟨h, he⟩
    · exact (congrArg Host.Outcome.next he).trans (if_pos h).symm
    · exact (congrArg Host.Outcome.next he).trans (if_neg (Nat.not_lt.2 h)).symm

/-- Settles O17: the gate is closed, at the instruction and behind the terminator. -/
theorem unaddressedCommandIsDiscarded : Obligations.UnaddressedCommandIsDiscarded := by
  unfold Obligations.UnaddressedCommandIsDiscarded
  intro i a s _ ha h1 h2
  refine ⟨exec_of_not_addressed ha h1 h2, fun t q rest hp hs ho hq haddr hi => ?_⟩
  rw [step_terminator (.inl hp) hs ho hq, hi]
  exact exec_of_not_addressed ha (by rwa [haddr]) h2

/-- Settles O29: the two branches of F-PT-SENS. -/
theorem sensorByteEffect : Obligations.SensorByteEffect := by
  unfold Obligations.SensorByteEffect
  refine fun s b rest h => ⟨fun hs => ?_, fun hs => ?_⟩ <;> rw [step_of_inputs_cons h]
  · exact congrArg Host.Outcome.next (if_pos hs)
  · exact congrArg Host.Outcome.next (if_neg hs)

/-- Settles O56: a reset input is `State.resetWith` of the stored byte. -/
theorem resetInputEffect : Obligations.ResetInputEffect := by
  unfold Obligations.ResetInputEffect
  exact fun s rest h => step_of_inputs_cons h

end Sys2Proof.Proofs.Steps
end

