-- ==== Sys2Proof/Proofs/Answers.lean ====
section
/-! The answer of the Sensor Adapter (43_session_measure.md R224 to R230): the deliveries, the two
cancellations, and what reselection does with the queue. -/

namespace Sys2Proof.Proofs.Answers

open Sys2Proof Sys2Proof.Machine Sys2Proof.Statements
open Sys2Proof.Proofs.Commitment Sys2Proof.Proofs.Instructions

/-! ### Delivery (R230, R265) -/

/-- The values that `Pack` reads are those of the answer. -/
theorem storeValues_normalise (res : AcqResult) (s : State) :
    (storeValues (normalise res s.count) s).values.take s.count = normalise res s.count :=
  storeValues_take (normalise_length res s.count)

/-- Values in range are stored, packed and announced. -/
theorem deliver_in_range {res : AcqResult} {n w : Nat} {sr : Bool} {s : State} (hn : s.count = n)
    (h : ∀ m ∈ normalise res n, m.natAbs < 9999999500000) :
    ∃ ls, pack s.cfg.pReq w (normalise res n) = some ls
      ∧ deliver (normalise res n) w sr s = .next { s with
          values := normalise res n ++ s.values.drop n
          lines := ls
          trace := if sr then s.trace ++ [.ascii (s.addr :: crlf)] else s.trace
          active := false, state := .lowPower } := by
  subst hn
  obtain ⟨ls, hls⟩ := Option.isSome_iff_exists.1 (Pack.pack_isSome_iff_range.2 h)
  refine ⟨ls, hls, ?_⟩
  rw [← storeValues_normalise res s] at hls
  rw [deliver_of_pack hls, List.take_of_length_le (normalise_length res s.count).le]

/-- A value out of range refuses the delivery, whatever its width. -/
theorem deliver_out_of_range {res : AcqResult} {n w : Nat} {sr : Bool} {s : State} (hn : s.count = n)
    (h : ∃ m ∈ normalise res n, 9999999500000 ≤ m.natAbs) :
    deliver (normalise res n) w sr s = .refused .valueOutOfRange := by
  subst hn
  refine deliver_refused ?_
  rw [storeValues_normalise, ← Option.not_isSome_iff_eq_none, Pack.pack_isSome_iff_range]
  obtain ⟨m, hm, hr⟩ := h
  exact fun hall => Nat.not_lt.2 hr (hall m hm)

theorem fAcq_plain {s : State} (h : (s.state = .measuring ∧ s.waitBreak = true) ∨ s.state = .verify)
    (res : AcqResult) :
    fAcq res s = deliver (normalise res s.count) Config.wPlain true (endAcquisition s) := by
  rcases h with ⟨h, hb⟩ | h
  · simp [fAcq, h, acqMeasuring, isBreakDetected, hb]
  · simp [fAcq, h, acqVerify]

theorem fAcq_wide {s : State} (h : s.state = .continuous ∨ s.state = .highVolume) (res : AcqResult) :
    fAcq res s = deliver (normalise res s.count) Config.wWide false (endAcquisition s) := by
  rcases h with h | h <;> simp [fAcq, h, acqWide]

theorem fAcq_concurrent {s : State} (h : s.state = .concurrent) (res : AcqResult) :
    fAcq res s = acqConcurrent res (endAcquisition s) := by
  simp [fAcq, h]

theorem fAcq_break {s : State} (h : s.state = .measuring) (hb : s.waitBreak = false) (res : AcqResult) :
    fAcq res s = .next (cancel (endAcquisition s)) := by
  simp [fAcq, h, acqMeasuring, isBreakDetected, hb]

/-- Settles O36: by `fAcq_break`. -/
theorem breakCancelsAMeasurement : Obligations.BreakCancelsAMeasurement := by
  unfold Obligations.BreakCancelsAMeasurement
  intro s res rest hin hs hb
  exact (step_of_inputs_cons hin).trans (fAcq_break (s := { s with inputs := rest }) hs hb res)

/-- Settles O38: the answer delivers (`fAcq_plain`), and values in range can be packed. -/
theorem plainMeasurementDelivers : Obligations.PlainMeasurementDelivers := by
  unfold Obligations.PlainMeasurementDelivers
  intro s res rest hin hs hr
  obtain ⟨ls, hls, hd⟩ :=
    deliver_in_range (s := endAcquisition { s with inputs := rest }) (w := 35) (sr := true) rfl hr
  refine ⟨ls, hls, ?_⟩
  rw [step_of_inputs_cons hin]
  exact (fAcq_plain (s := { s with inputs := rest }) hs res).trans hd

/-! ### Reselection at the answer of a concurrent measurement (R228) -/

/-- The answer of a concurrent measurement depends on what reselection gives and on the committed count. -/
theorem acqConcurrent_congr {s u : State} (res : AcqResult) (hr : reselect s = reselect u)
    (hc : s.count = u.count) : acqConcurrent res s = acqConcurrent res u := by
  unfold acqConcurrent
  rw [hr, hc]

theorem step_concurrent {s : State} {res : AcqResult} {rest : List Input}
    (hin : s.inputs = .answer res :: rest) (hs : s.state = .concurrent) :
    step s = acqConcurrent res (endAcquisition { s with inputs := rest }) :=
  (step_of_inputs_cons hin).trans (fAcq_concurrent (s := { s with inputs := rest }) hs res)

theorem reselect_of_byte {s : State} {b : Byte} {q : Bytes} (ho : s.rxOvf = false) (hq : s.rxq = b :: q)
    (hb : b ≠ chBang) : reselect s = drain q (storeByte b s) := by
  simp [reselect, ho, hq, drain, hb]

theorem reselect_of_terminator {s : State} {q : Bytes} (ho : s.rxOvf = false) (hq : s.rxq = chBang :: q) :
    reselect s = if forThisDevice s (heldInstr s) = true then (some (heldInstr s), endCommand (setQueue q s))
      else drain q (endCommand s) := by
  simp [reselect, ho, hq, drain]

theorem reselect_of_overflow {s : State} (ho : s.rxOvf = true) : reselect s = (none, overflowRecover s) :=
  if_pos ho

theorem reselect_of_empty {s : State} (ho : s.rxOvf = false) (hq : s.rxq = []) : reselect s = (none, s) := by
  have hs : setQueue [] s = s := by rw [setQueue, ← hq]
  simp [reselect, ho, hq, drain, hs]

/-- Reselection on what is left of a queue. -/
theorem reselect_setQueue {s : State} (q : Bytes) (ho : s.rxOvf = false) :
    reselect (setQueue q s) = drain q s := by
  rw [reselect, setQueue_rxOvf, ho, if_neg (by decide), setQueue_rxq, drain_setQueue]

/-- Settles O39: with nothing received reselection leaves the state as it is. -/
theorem wideMeasurementDelivers : Obligations.WideMeasurementDelivers := by
  unfold Obligations.WideMeasurementDelivers
  intro s res rest hin hs hr
  obtain ⟨ls, hls, hd⟩ :=
    deliver_in_range (s := endAcquisition { s with inputs := rest }) (w := 75) (sr := false) rfl hr
  refine ⟨ls, hls, (step_of_inputs_cons hin).trans (Eq.trans ?_ hd)⟩
  rcases hs with hs | hs | ⟨hs, hq, ho⟩
  · exact fAcq_wide (s := { s with inputs := rest }) (.inl hs) res
  · exact fAcq_wide (s := { s with inputs := rest }) (.inr hs) res
  · refine (fAcq_concurrent (s := { s with inputs := rest }) hs res).trans ?_
    rw [acqConcurrent, reselect_of_empty (s := endAcquisition { s with inputs := rest }) ho hq]

theorem endAcquisition_storeByte (b : Byte) (q : Bytes) (rest : List Input) (s : State) :
    endAcquisition { storeByte b { s with rxq := q } with inputs := rest }
      = setQueue q (storeByte b (endAcquisition { s with inputs := rest })) := by
  unfold storeByte
  split
  · rename_i h; rw [if_pos (by exact h)]; rfl
  · rename_i h; rw [if_neg (by exact h)]; rfl

/-- Settles O40: each clause is one turn of reselection. -/
theorem concurrentAnswerConsumesTheQueue : Obligations.ConcurrentAnswerConsumesTheQueue := by
  unfold Obligations.ConcurrentAnswerConsumesTheQueue
  intro s res rest hin hs
  rw [step_concurrent hin hs]
  refine ⟨fun b q ho hq hb => ?_, fun q a ho hq ha h1 h2 => ?_, fun q a ho hq ha h => ?_, fun ho => ?_⟩
  · rw [step_concurrent (s := storeByte b { s with rxq := q }) (by rw [storeByte_inputs]; exact hin)
      (by rw [storeByte_state]; exact hs), endAcquisition_storeByte]
    refine acqConcurrent_congr res ?_ (by simp)
    rw [reselect_of_byte (s := endAcquisition { s with inputs := rest }) ho hq hb,
      reselect_setQueue q (by rw [storeByte_rxOvf]; exact ho)]
  · rw [step_concurrent (s := { s with
        rxq := q, waitBreak := true, waitMark := true, cmdLen := 0, cmdOvf := false }) hin hs]
    refine acqConcurrent_congr res ?_ rfl
    have hf : ¬ forThisDevice s (heldInstr s) = true := fun hf => by
      obtain ⟨b, hb, hab⟩ := forThisDevice_iff.1 hf
      cases ha.symm.trans hb
      exact hab.elim h1 h2
    rw [reselect_of_terminator (s := endAcquisition { s with inputs := rest }) ho hq, if_neg (by exact hf)]
    exact (reselect_setQueue q (s := endCommand (endAcquisition { s with inputs := rest })) ho).symm
  · have hf : forThisDevice s (heldInstr s) = true := forThisDevice_iff.2 ⟨a, ha, h⟩
    rw [acqConcurrent, reselect_of_terminator (s := endAcquisition { s with inputs := rest }) ho hq,
      if_pos (by exact hf)]
    rfl
  · rw [step_concurrent (s := { s with rxq := [], rxOvf := false, cmdLen := 0, cmdOvf := false }) hin hs]
    refine acqConcurrent_congr res ?_ rfl
    rw [reselect_of_overflow (s := endAcquisition { s with inputs := rest }) ho]
    exact (reselect_of_empty (s := overflowRecover (endAcquisition { s with inputs := rest })) rfl rfl).symm

/-! ### Refusals and faults (R265, R310) -/

/-- Settles O41: where an answer delivers, it delivers from a state with the same count. -/
theorem outOfRangeDeliveryIsRefused : Obligations.OutOfRangeDeliveryIsRefused := by
  unfold Obligations.OutOfRangeDeliveryIsRefused
  intro s res rest hin hd hr
  obtain ⟨w, sr, u, hf, hu⟩ := fAcq_of_delivers res (Delivers.withInputs hd rest)
  rw [step_of_inputs_cons hin]
  exact hf.trans (deliver_out_of_range hu hr)

/-- Reselection does not look at the acquisition, and leaves it alone. -/
theorem reselect_endAcquisition (s : State) :
    reselect (endAcquisition s) = ((reselect s).1, endAcquisition (reselect s).2) := by
  unfold reselect
  rw [endAcquisition_rxOvf, endAcquisition_rxq, drain_endAcquisition]
  split <;> rfl

/-- An answer that nothing asked for (log 7). -/
theorem fAcq_unrequested {s : State} (ha : isAcquiring s.state = false) (res : AcqResult) :
    fAcq res s = .fault .answerWithoutRequest := by
  unfold fAcq
  cases hs : s.state with
  | lowPower | ready | serialPassthrough => rfl
  | measuring | concurrent | continuous | highVolume | verify => rw [hs] at ha; cases ha

/-- An answer faults exactly when no acquisition is in flight. -/
theorem fAcq_fault_iff {res : AcqResult} {s : State} {r : Fault} :
    fAcq res s = .fault r ↔ isAcquiring s.state = false ∧ r = .answerWithoutRequest := by
  constructor
  · intro h
    rcases fAcq_cases res s with ⟨ha, hf⟩ | ⟨-, -, hc⟩ | ⟨-, hd⟩ | ⟨-, hd⟩ | ⟨-, i, -, hx⟩ | ⟨-, -, hd⟩
    · rw [hf] at h; cases h; exact ⟨ha, rfl⟩
    · rw [hc] at h; cases h
    · exact absurd (hd.symm.trans h) deliver_ne_fault
    · exact absurd (hd.symm.trans h) deliver_ne_fault
    · obtain ⟨t, ht, -⟩ := exec_effect i (cancel (reselect (endAcquisition s)).2)
      cases ht.symm.trans (hx.symm.trans h)
    · exact absurd (hd.symm.trans h) deliver_ne_fault
  · rintro ⟨ha, rfl⟩
    exact fAcq_unrequested ha res

/-! ### What an answer can do, said once -/

/-- A delivery of an answer from a state whose acquisition has ended (R230). -/
structure Delivered (res : AcqResult) (u t : State) : Prop where
  packs : ∃ w, 9 < w ∧ w ≤ Config.wWide ∧ pack u.cfg.pReq w (normalise res u.count) = some t.lines
  writes : ∃ fs, t = { u with
    acq := none, values := normalise res u.count ++ u.values.drop u.count, lines := t.lines
    trace := u.trace ++ fs, active := false, state := .lowPower }

theorem delivered_of_deliver {res : AcqResult} {n w : Nat} {sr : Bool} {u t : State} (hn : u.count = n)
    (hw : 9 < w) (hw' : w ≤ Config.wWide) (h : deliver (normalise res n) w sr (endAcquisition u) = .next t) :
    Delivered res u t := by
  subst hn
  obtain ⟨ls, hls, rfl⟩ := deliver_next h
  have hv := storeValues_normalise res (endAcquisition u)
  rw [endAcquisition_count] at hv hls
  rw [hv] at hls
  refine ⟨⟨w, hw, hw', hls⟩, if sr then [.ascii (u.addr :: crlf)] else [], ?_⟩
  rw [endAcquisition_count, List.take_of_length_le (normalise_length res u.count).le]
  cases sr <;> simp [endAcquisition]

/-- A delivery ends at rest. -/
theorem Delivered.rests {res : AcqResult} {u t : State} (h : Delivered res u t) : t.state = .lowPower := by
  obtain ⟨-, fs, ht⟩ := h
  rw [ht]

/-- Detectors, queue and store stay as they are. -/
theorem Delivered.keeps {res : AcqResult} {u t : State} (h : Delivered res u t) :
    t.waitBreak = u.waitBreak ∧ t.waitMark = u.waitMark ∧ t.rxq = u.rxq ∧ t.nvm = u.nvm
      ∧ t.nvmWrites = u.nvmWrites := by
  obtain ⟨-, fs, ht⟩ := h
  rw [ht]
  exact ⟨rfl, rfl, rfl, rfl, rfl⟩

/-- An answer that stops with neither a fault nor a refusal cancels at a break, delivers, with the queue
consumed in `Concurrent`, or runs the command that reselection found (R227 to R229). -/
theorem fAcq_next {res : AcqResult} {s t : State} (h : fAcq res s = .next t) :
    (s.state = .measuring ∧ s.waitBreak = false ∧ t = cancel (endAcquisition s))
    ∨ (isAcquiring s.state = true ∧ Delivered res s t)
    ∨ (s.state = .concurrent ∧ (reselect s).1 = none ∧ Delivered res (reselect s).2 t)
    ∨ (s.state = .concurrent ∧ ∃ i, (reselect s).1 = some i
        ∧ exec i (cancel (endAcquisition (reselect s).2)) = .next t) := by
  rcases fAcq_cases res s with ⟨-, hf⟩ | ⟨hs, hb, hc⟩ | ⟨hs, hd⟩ | ⟨hs, hd⟩ | ⟨hs, i, hi, hx⟩ | ⟨hs, hn, hd⟩
  · rw [hf] at h; cases h
  · rw [hc] at h; cases h; exact .inl ⟨hs, hb, rfl⟩
  · refine .inr (.inl ⟨?_, delivered_of_deliver rfl (by decide) (by decide) (hd.symm.trans h)⟩)
    rcases hs with ⟨hs, -⟩ | hs <;> rw [hs] <;> rfl
  · refine .inr (.inl ⟨?_, delivered_of_deliver rfl (by decide) (by decide) (hd.symm.trans h)⟩)
    rcases hs with hs | hs <;> rw [hs] <;> rfl
  · rw [reselect_endAcquisition] at hi hx
    exact .inr (.inr (.inr ⟨hs, i, hi, hx.symm.trans h⟩))
  · rw [reselect_endAcquisition] at hn hd
    exact .inr (.inr (.inl ⟨hs, hn,
      delivered_of_deliver (reselect_count s) (by decide) (by decide) (hd.symm.trans h)⟩))

/-- An answer that is refused has a value out of range (R265). -/
theorem fAcq_refused {res : AcqResult} {s : State} {r : Refusal} (h : fAcq res s = .refused r) :
    ∃ m ∈ normalise res s.count, 9999999500000 ≤ m.natAbs := by
  by_contra hn
  have hr : ∀ m ∈ normalise res s.count, m.natAbs < 9999999500000 := fun m hm =>
    Nat.lt_of_not_le fun hle => hn ⟨m, hm, hle⟩
  have hne : ∀ {w sr} (u : State), u.count = s.count →
      deliver (normalise res s.count) w sr u ≠ .refused r := by
    intro w sr u hu hd
    obtain ⟨ls, -, hok⟩ := deliver_in_range (w := w) (sr := sr) hu hr
    cases hok.symm.trans hd
  rcases fAcq_cases res s with ⟨-, hf⟩ | ⟨-, -, hc⟩ | ⟨-, hd⟩ | ⟨-, hd⟩ | ⟨-, i, -, hx⟩ | ⟨-, -, hd⟩
  · cases hf.symm.trans h
  · cases hc.symm.trans h
  · exact hne (endAcquisition s) rfl (hd.symm.trans h)
  · exact hne (endAcquisition s) rfl (hd.symm.trans h)
  · obtain ⟨t, ht, -⟩ := exec_effect i (cancel (reselect (endAcquisition s)).2)
    cases ht.symm.trans (hx.symm.trans h)
  · exact hne _ (reselect_count (endAcquisition s)) (hd.symm.trans h)

end Sys2Proof.Proofs.Answers
end

