-- ==== Sys2Proof/Proofs/Transitions.lean ====
section
/-! One inversion of the step (00_scope.md R15), and what follows from it of the session states
(43_session_measure.md R240), the detectors (20_memory.md R72) and the store (20_memory.md R67). -/

namespace Sys2Proof.Proofs.Transitions

open Sys2Proof Sys2Proof.Machine Sys2Proof.Statements
open Sys2Proof.Proofs.Commitment Sys2Proof.Proofs.Instructions Sys2Proof.Proofs.Steps Sys2Proof.Proofs.Answers

/-- What the input `e` can do to the state `s` it has been taken out of. -/
inductive Taken (s : State) : Input → State → Prop
  | idle {e : Input} (h : e ∈ [Input.poll, .queryBreak, .queryMark, .rearm]) : Taken s e s
  /-- F-RX (R182, R184) -/
  | recovered (hs : s.state = .lowPower) (ho : s.rxOvf = true) : Taken s .poll (overflowRecover s)
  | stored (b : Byte) (q : Bytes) (hs : s.state = .lowPower) (ho : s.rxOvf = false) (hq : s.rxq = b :: q)
      (hb : b ≠ chBang) : Taken s .poll (storeByte b (setQueue q s))
  | ran (q : Bytes) (t : State) (hs : s.state = .lowPower) (ho : s.rxOvf = false) (hq : s.rxq = chBang :: q)
      (h : exec (heldInstr s) (endCommand (setQueue q s)) = .next t) : Taken s .poll t
  /-- F-PT-BUS (R204, R205) -/
  | dropped (hs : s.state = .serialPassthrough) (ho : s.rxOvf = true) : Taken s .poll (clearBuffer s)
  | forwarded (b : Byte) (q : Bytes) (hs : s.state = .serialPassthrough) (ho : s.rxOvf = false)
      (hq : s.rxq = b :: q) (hw : s.ptWin.drop 1 ++ [b] ≠ exitBytes) :
      Taken s .poll (shiftWindow b (toSensor [b] (setQueue q s)))
  | exited (q : Bytes) (hs : s.state = .serialPassthrough) (ho : s.rxOvf = false) (hq : s.rxq = chBang :: q)
      (hw : s.ptWin.drop 1 = exitText) :
      Taken s .poll (passExit (shiftWindow chBang (toSensor [chBang] (setQueue q s))))
  /-- R120 to R124 -/
  | edge (ts : Timestamp) (lvl : Level) : Taken s (.edge ts lvl) (edgeUpdate ts lvl s)
  | queried (e : Input) (r : QueryResult) (h : e = .queryBreak ∨ e = .queryMark) : Taken s e (returnQuery r s)
  | rearmed (hs : s.state = .lowPower) : Taken s .rearm (rearmFlags s)
  /-- R66, R207 -/
  | received (b : Byte) : Taken s (.rxByte b) (rxAppend b s)
  | lost : Taken s .rxOverflow (rxLost s)
  | sensor (b : Byte) : Taken s (.sensorByte b) (fPtSens b s)
  /-- R224 -/
  | answered (res : AcqResult) (t : State) (h : fAcq res s = .next t) : Taken s (.answer res) t
  /-- R320 -/
  | reset : Taken s .reset (State.resetWith s.nvm s.cfg s.inputs s.draws)

theorem taken_fRx {s t : State} (hs : s.state = .lowPower) (h : fRx s = .next t) : Taken s .poll t := by
  rcases fRx_cases s with ⟨ho, he⟩ | ⟨-, -, he⟩ | ⟨b, q, ho, hq, hb, he⟩ | ⟨q, ho, hq, he⟩ <;> rw [he] at h
  · cases h; exact .recovered hs ho
  · cases h; exact .idle (by simp)
  · cases h; exact .stored b q hs ho hq hb
  · exact .ran q t hs ho hq h

/-- The window holds the token exactly when its last byte is the terminator and the others are `exit`. -/
theorem window_eq_exit {w : Bytes} {b : Byte} (h : w ++ [b] = exitBytes) : w = exitText ∧ b = chBang := by
  have he : exitBytes = exitText ++ [chBang] := rfl
  rw [he] at h
  obtain ⟨h1, h2⟩ := List.append_inj' h rfl
  exact ⟨h1, List.head_eq_of_cons_eq h2⟩

theorem taken_fPtBus {s t : State} (hs : s.state = .serialPassthrough) (h : fPtBus s = .next t) :
    Taken s .poll t := by
  rcases fPtBus_cases s with ⟨ho, he⟩ | ⟨-, -, he⟩ | ⟨b, q, ho, hq, ⟨hw, he⟩ | ⟨hw, he⟩⟩
  · cases he.symm.trans h; exact .dropped hs ho
  · cases he.symm.trans h; exact .idle (by simp)
  · cases he.symm.trans h; exact .forwarded b q hs ho hq hw
  · obtain ⟨hx, rfl⟩ := window_eq_exit hw
    cases (he.trans (if_pos (by exact hs))).symm.trans h
    exact .exited q hs ho hq hx

theorem taken_foreground {s t : State} (h : foreground s = .next t) : Taken s .poll t := by
  rcases foreground_cases s with he | ⟨hs, he⟩ | ⟨hs, he⟩ <;> rw [he] at h
  · cases h; exact .idle (by simp)
  · exact taken_fRx hs h
  · exact taken_fPtBus hs h

/-- A direct call runs at rest and idles elsewhere. -/
theorem taken_directCall {i : Instr} {e : Input} {s t : State}
    (he : e ∈ [Input.poll, .queryBreak, .queryMark, .rearm]) (h : directCall i s = .next t)
    (hx : s.state = .lowPower → exec i s = .next t → Taken s e t) : Taken s e t := by
  rcases directCall_cases i s with ⟨hs, hd⟩ | ⟨-, hd⟩ <;> rw [hd] at h
  · exact hx hs h
  · cases h; exact .idle he

theorem taken_of_takeInput {e : Input} {s t : State} (h : takeInput e s = .next t) : Taken s e t := by
  cases e with
  | poll => exact taken_foreground h
  | edge ts lvl => cases h; exact .edge ts lvl
  | queryBreak => exact taken_directCall (by simp) h fun _ hx => by cases hx; exact .queried _ _ (.inl rfl)
  | queryMark => exact taken_directCall (by simp) h fun _ hx => by cases hx; exact .queried _ _ (.inr rfl)
  | rearm => exact taken_directCall (by simp) h fun hs hx => by cases hx; exact .rearmed hs
  | rxByte b => cases h; exact .received b
  | rxOverflow => cases h; exact .lost
  | answer res => exact .answered res t h
  | sensorByte b => cases h; exact .sensor b
  | reset => cases h; exact .reset

/-- What a step can do: it takes out an input, the one due or with none left a poll, and acts on it. -/
theorem step_taken {s t : State} (h : step s = .next t) : ∃ e rest,
    (s.inputs = e :: rest ∨ (s.inputs = [] ∧ e = .poll)) ∧ Taken { s with inputs := rest } e t := by
  rcases step_cases s with ⟨hin, hf⟩ | ⟨e, rest, hin, he⟩
  · have hs : { s with inputs := [] } = s := by rw [← hin]
    refine ⟨.poll, [], .inr ⟨hin, rfl⟩, ?_⟩
    rw [hs]
    exact taken_foreground (hf.symm.trans h)
  · exact ⟨e, rest, .inl hin, taken_of_takeInput (he.symm.trans h)⟩

/-! ### Quiet steps -/

/-- The session state and the store are as they were, and no detector is re-armed. -/
structure Quiet (s t : State) : Prop where
  state : t.state = s.state
  detections : (s.waitBreak = false → t.waitBreak = false) ∧ (s.waitMark = false → t.waitMark = false)
  store : t.nvm = s.nvm ∧ t.nvmWrites = s.nvmWrites

theorem quiet_edge (ts : Timestamp) (lvl : Level) (s : State) : Quiet s (edgeUpdate ts lvl s) where
  state := rfl
  detections := ⟨fun h => by rw [LineSync.edgeUpdate_waitBreak, h, Bool.false_and],
    fun h => by rw [LineSync.edgeUpdate_waitMark, h, Bool.false_and]⟩
  store := ⟨rfl, rfl⟩

/-- A step is quiet, or it is one of five: a direct re-arming at rest, a command that runs at a terminator,
the token of pass-through, an answer, or a reset. -/
theorem Taken.quiet_or {s t : State} {e : Input} (h : Taken s e t) :
    Quiet s t
    ∨ (e = .rearm ∧ s.state = .lowPower ∧ t = rearmFlags s)
    ∨ (e = .poll ∧ s.state = .lowPower ∧ s.rxOvf = false ∧ ∃ q, s.rxq = chBang :: q
        ∧ exec (heldInstr s) (endCommand (setQueue q s)) = .next t)
    ∨ (e = .poll ∧ s.state = .serialPassthrough ∧ s.rxOvf = false ∧ s.ptWin.drop 1 = exitText
        ∧ ∃ q, s.rxq = chBang :: q ∧ t = passExit (shiftWindow chBang (toSensor [chBang] (setQueue q s))))
    ∨ (∃ res, e = .answer res ∧ fAcq res s = .next t)
    ∨ (e = .reset ∧ t = State.resetWith s.nvm s.cfg s.inputs s.draws) := by
  cases h with
  | edge ts lvl => exact .inl (quiet_edge ts lvl s)
  | idle | recovered | dropped | forwarded | queried | lost => exact .inl ⟨rfl, ⟨id, id⟩, rfl, rfl⟩
  | stored b q => exact .inl ⟨by simp, by simp, by simp⟩
  | received b => exact .inl ⟨by simp, by simp, by simp⟩
  | sensor b => exact .inl ⟨by simp, by simp, by simp⟩
  | rearmed hs => exact .inr (.inl ⟨rfl, hs, rfl⟩)
  | ran q t hs ho hq hx => exact .inr (.inr (.inl ⟨rfl, hs, ho, q, hq, hx⟩))
  | exited q hs ho hq hw => exact .inr (.inr (.inr (.inl ⟨rfl, hs, ho, hw, q, hq, rfl⟩)))
  | answered res t hf => exact .inr (.inr (.inr (.inr (.inl ⟨res, rfl, hf⟩))))
  | reset => exact .inr (.inr (.inr (.inr (.inr ⟨rfl, rfl⟩))))

/-- No answer is taken where none is due. -/
theorem isAcquiring_of_fAcq {res : AcqResult} {s t : State} (h : fAcq res s = .next t) :
    isAcquiring s.state = true := by
  rw [← Bool.not_eq_false]
  intro ha
  cases (fAcq_unrequested ha res).symm.trans h

theorem not_isAcquiring_of_rest {s : State} (h : s.state = .lowPower ∨ s.state = .serialPassthrough) :
    isAcquiring s.state = false := by
  rcases h with h | h <;> rw [h] <;> rfl

/-- An instruction leaves the receive queue alone. -/
theorem exec_rxq {i : Instr} {s t : State} (h : exec i s = .next t) : t.rxq = s.rxq := by
  obtain ⟨u, hu, -, -, -, hq, -⟩ := everyInstructionCompletes i s
  cases hu.symm.trans h
  exact hq

/-- A poll is due, or no input is left. -/
theorem polls_of_due {s : State} {e : Input} {rest : List Input}
    (h : s.inputs = e :: rest ∨ (s.inputs = [] ∧ e = .poll)) (he : e = .poll) :
    s.inputs = [] ∨ s.inputs.head? = some .poll := by
  rcases h with h | ⟨h, -⟩
  · exact .inr (by rw [h, he]; rfl)
  · exact .inl h

/-- Any other input is one of the schedule. -/
theorem inputs_of_due {s : State} {e : Input} {rest : List Input}
    (h : s.inputs = e :: rest ∨ (s.inputs = [] ∧ e = .poll)) (he : e ≠ .poll) : s.inputs = e :: rest :=
  h.resolve_right fun hp => he hp.2

/-! ### The session states (R240, R337) -/

/-- Settles O44: of the six kinds of step only a command at a terminator leads elsewhere. -/
theorem restIsLeftOnlyAtATerminator : Obligations.RestIsLeftOnlyAtATerminator := by
  unfold Obligations.RestIsLeftOnlyAtATerminator
  intro s t h hs ht
  obtain ⟨e, rest, hin, hk⟩ := step_taken h
  rcases hk.quiet_or with hq | ⟨-, -, rfl⟩ | ⟨he, -, ho, q, hq, -⟩ | ⟨-, hp, -⟩ | ⟨res, -, hf⟩ | ⟨-, rfl⟩
  · exact absurd (hq.state.trans hs) ht
  · exact absurd hs ht
  · exact ⟨q, hq, ho, polls_of_due hin he⟩
  · cases hs.symm.trans hp
  · cases (isAcquiring_of_fAcq hf).symm.trans
      (not_isAcquiring_of_rest (s := { s with inputs := rest }) (.inl hs))
  · exact absurd rfl ht

/-- Settles O30: of the six kinds of step only the token and a reset lead out. -/
theorem passThroughEndsOnlyByExit : Obligations.PassThroughEndsOnlyByExit := by
  unfold Obligations.PassThroughEndsOnlyByExit
  intro s t h hs ht
  obtain ⟨e, rest, hin, hk⟩ := step_taken h
  rcases hk.quiet_or with hq | ⟨-, hr, -⟩ | ⟨-, hr, -⟩ | ⟨he, -, ho, hw, q, hq, rfl⟩ | ⟨res, -, hf⟩
    | ⟨he, rfl⟩
  · exact absurd (hq.state.trans hs) ht
  · cases hs.symm.trans hr
  · cases hs.symm.trans hr
  · exact ⟨rfl, .inr ⟨polls_of_due hin he, ho, hq, hw⟩⟩
  · cases (isAcquiring_of_fAcq hf).symm.trans
      (not_isAcquiring_of_rest (s := { s with inputs := rest }) (.inr hs))
  · subst he
    exact ⟨rfl, .inl (by rw [inputs_of_due hin (by decide)]; rfl)⟩

/-- Settles O43: every answer ends at rest, but for a command that reselection finds. -/
theorem measurementStatesReturnToRest : Obligations.MeasurementStatesReturnToRest := by
  unfold Obligations.MeasurementStatesReturnToRest
  intro s t h ha hr
  obtain ⟨e, rest, -, hk⟩ := step_taken h
  have hn : ∀ {m}, isAcquiring m = false → s.state ≠ m := by
    rintro m hm rfl
    cases ha.symm.trans hm
  rcases hk.quiet_or with hq | ⟨-, hs, -⟩ | ⟨-, hs, -⟩ | ⟨-, hs, -⟩ | ⟨res, -, hf⟩ | ⟨-, rfl⟩
  · exact .inl hq.state
  · exact absurd hs (hn rfl)
  · exact absurd hs (hn rfl)
  · exact absurd hs (hn rfl)
  · rcases fAcq_next hf with ⟨-, -, rfl⟩ | ⟨-, hd⟩ | ⟨-, -, hd⟩ | ⟨hs, i, hi, -⟩
    · exact .inr rfl
    · exact .inr hd.rests
    · exact .inr hd.rests
    · rw [reselect_fst_inputs, hr hs] at hi
      cases hi
  · exact .inr rfl

/-! ### The detectors (R72) -/

/-- Reselection leaves the detectors as they are and finds nothing, or there is no overflow and what it
consumes of the queue holds a terminator. -/
theorem reselect_consumes (s : State) :
    ((reselect s).1 = none ∧ (reselect s).2.waitBreak = s.waitBreak ∧ (reselect s).2.waitMark = s.waitMark)
    ∨ (s.rxOvf = false ∧ (∃ pre, s.rxq = pre ++ (reselect s).2.rxq ∧ chBang ∈ pre)) := by
  unfold reselect
  split
  · exact .inl ⟨rfl, rfl, rfl⟩
  · rename_i ho
    rw [Bool.not_eq_true] at ho
    rcases drain_consumes s.rxq s with ⟨hn, hq⟩ | ⟨i, pre, -, hq⟩
    · by_cases hb : chBang ∈ s.rxq
      · exact .inr ⟨ho, s.rxq, by rw [hq, List.append_nil], hb⟩
      · exact .inl ⟨hn, drain_rearms s.rxq s hb⟩
    · exact .inr ⟨ho, pre ++ [chBang], by rw [List.append_assoc]; exact hq, by simp⟩

/-- An answer re-arms a detector in `Concurrent` only, and only where the part of the queue it consumes
holds a terminator (R228). -/
theorem fAcq_rearms {res : AcqResult} {s t : State} (h : fAcq res s = .next t) :
    (t.waitBreak = s.waitBreak ∧ t.waitMark = s.waitMark)
    ∨ (s.state = .concurrent ∧ s.rxOvf = false ∧ ∃ pre, s.rxq = pre ++ t.rxq ∧ chBang ∈ pre) := by
  rcases fAcq_next h with ⟨-, -, rfl⟩ | ⟨-, hd⟩ | ⟨hs, -, hd⟩ | ⟨hs, i, hi, hx⟩
  · exact .inl ⟨rfl, rfl⟩
  · obtain ⟨hb, hm, -⟩ := hd.keeps
    exact .inl ⟨hb, hm⟩
  · obtain ⟨hb, hm, hq, -⟩ := hd.keeps
    rw [hb, hm, hq]
    rcases reselect_consumes s with ⟨-, hk⟩ | hc
    · exact .inl hk
    · exact .inr ⟨hs, hc⟩
  · rw [exec_rxq hx]
    rcases reselect_consumes s with ⟨hn, -⟩ | hc
    · cases hn.symm.trans hi
    · exact .inr ⟨hs, hc⟩

/-- Settles O5: of the six kinds of step, a quiet one re-arms nothing and an answer is `fAcq_rearms`. -/
theorem detectionsStandUntilRearmed : Obligations.DetectionsStandUntilRearmed := by
  unfold Obligations.DetectionsStandUntilRearmed
  intro s t h hre
  have hno : ¬ ((s.waitBreak = false → t.waitBreak = false) ∧ (s.waitMark = false → t.waitMark = false)) := by
    rintro ⟨h1, h2⟩
    rcases hre with ⟨hf, ht⟩ | ⟨hf, ht⟩
    · cases ht.symm.trans (h1 hf)
    · cases ht.symm.trans (h2 hf)
  obtain ⟨e, rest, hin, hk⟩ := step_taken h
  rcases hk.quiet_or with hq | ⟨rfl, hs, -⟩ | ⟨he, hs, ho, q, hq, hx⟩ | ⟨he, hs, ho, hw, q, hq, rfl⟩
    | ⟨res, rfl, hf⟩ | ⟨rfl, -⟩
  · exact absurd hq.detections hno
  · exact .inr (.inl ⟨by rw [inputs_of_due hin (by decide)]; rfl, hs⟩)
  · rw [exec_rxq hx]
    exact .inr (.inr (.inl ⟨polls_of_due hin he, ho, hq, .inl hs⟩))
  · exact .inr (.inr (.inl ⟨polls_of_due hin he, ho, hq, .inr ⟨hs, hw⟩⟩))
  · rcases fAcq_rearms hf with ⟨hb, hm⟩ | ⟨hs, ho, hc⟩
    · exact absurd ⟨fun h => hb.trans h, fun h => hm.trans h⟩ hno
    · exact .inr (.inr (.inr ⟨hs, ho, ⟨res, by rw [inputs_of_due hin (by simp)]; rfl⟩, hc⟩))
  · exact .inl (by rw [inputs_of_due hin (by decide)]; rfl)

/-! ### The store (R67, R308) -/

/-- An answer writes the store only through a change of address that reselection found. -/
theorem fAcq_nvm {res : AcqResult} {s t : State} (h : fAcq res s = .next t) :
    (t.nvm = s.nvm ∧ t.nvmWrites = s.nvmWrites)
    ∨ (t.nvm ≠ s.nvm ∧ t.nvmWrites = s.nvmWrites ++ [t.nvm] ∧ t.addr = t.nvm
      ∧ ∃ pre, s.rxq = pre ++ chBang :: t.rxq) := by
  have hr : (reselect s).2.nvm = s.nvm ∧ (reselect s).2.nvmWrites = s.nvmWrites := by
    rw [reselect_frame]
    exact ⟨rfl, rfl⟩
  rcases fAcq_next h with ⟨-, -, rfl⟩ | ⟨-, hd⟩ | ⟨-, -, hd⟩ | ⟨-, i, hi, hx⟩
  · exact .inl ⟨rfl, rfl⟩
  · obtain ⟨-, -, -, h1, h2⟩ := hd.keeps
    exact .inl ⟨h1, h2⟩
  · obtain ⟨-, -, -, h1, h2⟩ := hd.keeps
    exact .inl ⟨h1.trans hr.1, h2.trans hr.2⟩
  · rcases exec_nvm hx with ⟨h1, h2⟩ | ⟨a, b, -, hb, h1, h2, h3⟩
    · exact .inl ⟨h1.trans hr.1, h2.trans hr.2⟩
    · subst h1
      refine .inr ⟨fun he => hb (he.trans hr.1.symm), h3.trans (by rw [← hr.2]; rfl), h2, ?_⟩
      rw [exec_rxq hx]
      unfold reselect at hi ⊢
      split at hi
      · cases hi
      · rename_i ho
        rw [if_neg ho]
        rcases drain_consumes s.rxq s with ⟨hn, -⟩ | ⟨j, pre, -, hq⟩
        · cases hn.symm.trans hi
        · exact ⟨pre, hq⟩

/-- Settles O57: a reset reads the byte; `exec_nvm` for an instruction; of the steps only a command that
runs can write. -/
theorem storeWrittenOnlyByAChangeOfAddress : Obligations.StoreWrittenOnlyByAChangeOfAddress := by
  unfold Obligations.StoreWrittenOnlyByAChangeOfAddress
  refine ⟨fun nvm cfg inputs draws => ⟨rfl, rfl, fun h => if_pos h⟩, fun i s t h => ?_, fun s t h => ?_⟩
  · rcases exec_nvm h with hk | ⟨a, b, hi, hb, h1, -, h3⟩
    · exact .inl hk
    · exact .inr ⟨a, b, hi, hb, h1, h3⟩
  · obtain ⟨e, rest, hin, hk⟩ := step_taken h
    rcases hk.quiet_or with hq | ⟨-, -, rfl⟩ | ⟨-, -, -, q, hq, hx⟩ | ⟨-, -, -, -, q, -, rfl⟩ | ⟨res, -, hf⟩
      | ⟨rfl, rfl⟩
    · exact .inl ⟨hq.store.1, .inl hq.store.2⟩
    · exact .inl ⟨rfl, .inl rfl⟩
    · rcases exec_nvm hx with ⟨h1, h2⟩ | ⟨a, b, -, hb, h1, h2, h3⟩
      · exact .inl ⟨h1, .inl h2⟩
      · subst h1
        exact .inr ⟨hb, h3, h2, [], by rw [exec_rxq hx]; exact hq⟩
    · exact .inl ⟨rfl, .inl rfl⟩
    · rcases fAcq_nvm hf with ⟨h1, h2⟩ | hw
      · exact .inl ⟨h1, .inl h2⟩
      · exact .inr hw
    · exact .inl ⟨rfl, .inr (by rw [inputs_of_due hin (by decide)]; rfl)⟩

/-! ### Faults (R310, log 7) -/

theorem foreground_completes (s : State) : ∃ t, foreground s = .next t := by
  rcases foreground_cases s with he | ⟨-, he⟩ | ⟨-, he⟩ <;> rw [he]
  · exact ⟨s, rfl⟩
  · rcases fRx_cases s with ⟨-, he⟩ | ⟨-, -, he⟩ | ⟨b, q, -, -, -, he⟩ | ⟨q, -, -, he⟩ <;> rw [he]
    · exact ⟨_, rfl⟩
    · exact ⟨_, rfl⟩
    · exact ⟨_, rfl⟩
    · exact (exec_effect _ _).imp fun _ h => h.1
  · rcases fPtBus_cases s with ⟨-, he⟩ | ⟨-, -, he⟩ | ⟨b, q, -, -, ⟨-, he⟩ | ⟨-, he⟩⟩ <;> rw [he]
    · exact ⟨_, rfl⟩
    · exact ⟨_, rfl⟩
    · exact ⟨_, rfl⟩
    · exact (exec_effect _ _).imp fun _ h => h.1

theorem directCall_completes (i : Instr) (s : State) : ∃ t, directCall i s = .next t := by
  rcases directCall_cases i s with ⟨-, he⟩ | ⟨-, he⟩ <;> rw [he]
  · exact (exec_effect _ _).imp fun _ h => h.1
  · exact ⟨s, rfl⟩

/-- Every input but an answer answers a next state. -/
theorem takeInput_completes {e : Input} (s : State) (he : ∀ res, e ≠ .answer res) :
    ∃ t, takeInput e s = .next t := by
  cases e with
  | poll => exact foreground_completes s
  | queryBreak | queryMark | rearm => exact directCall_completes _ s
  | edge | rxByte | rxOverflow | sensorByte | reset => exact ⟨_, rfl⟩
  | answer res => exact absurd rfl (he res)

/-- So a step stops, if it does, at an answer. -/
theorem step_completes_or_answers (s : State) :
    (∃ t, step s = .next t)
    ∨ ∃ res rest, s.inputs = .answer res :: rest ∧ step s = fAcq res { s with inputs := rest } := by
  rcases step_cases s with ⟨-, hf⟩ | ⟨e, rest, hin, he⟩
  · exact .inl (hf ▸ foreground_completes s)
  · by_cases ha : ∃ res, e = .answer res
    · obtain ⟨res, rfl⟩ := ha
      exact .inr ⟨res, rest, hin, he⟩
    · exact .inl (he ▸ takeInput_completes _ (not_exists.1 ha))

/-- Settles O42: every step but an answer completes, and an answer is `fAcq_fault_iff`. -/
theorem onlyAnUnrequestedAnswerFaults : Obligations.OnlyAnUnrequestedAnswerFaults := by
  unfold Obligations.OnlyAnUnrequestedAnswerFaults
  intro s r
  constructor
  · intro h
    rcases step_completes_or_answers s with ⟨t, ht⟩ | ⟨res, rest, hin, hf⟩
    · cases ht.symm.trans h
    · exact ⟨res, rest, hin, fAcq_fault_iff (s := { s with inputs := rest }).1 (hf.symm.trans h)⟩
  · rintro ⟨res, rest, hin, hr⟩
    exact (step_of_inputs_cons hin).trans (fAcq_fault_iff.2 hr)

/-! ### While an acquisition is in flight (R224, R335) -/

/-- While an acquisition is in flight no input but an edge, an answer or a reset touches the break
detector. -/
theorem takeInput_waitBreak {e : Input} {s t : State} (ha : isAcquiring s.state = true)
    (h : takeInput e s = .next t) (hr : e ≠ .reset) (hn : ∀ res, e ≠ .answer res)
    (hd : ∀ ts lvl, e ≠ .edge ts lvl) : t.waitBreak = s.waitBreak := by
  cases e with
  | poll => cases (foreground_of_acquiring ha).symm.trans h; rfl
  | queryBreak | queryMark | rearm => cases (directCall_of_acquiring _ ha).symm.trans h; rfl
  | edge ts lvl => exact absurd rfl (hd ts lvl)
  | rxByte b => cases h; exact rxAppend_waitBreak b s
  | rxOverflow => cases h; rfl
  | sensorByte b => cases h; exact fPtSens_waitBreak b s
  | answer res => exact absurd rfl (hn res)
  | reset => exact absurd rfl hr

/-- An edge detects a break exactly at the end of a low of the threshold, unless one stands already. -/
theorem edge_waitBreak_iff (ts : Timestamp) (lvl : Level) (s : State) :
    (edgeUpdate ts lvl s).waitBreak = false
      ↔ s.waitBreak = false ∨ (lvl = .low ∧ 12000 ≤ (ts - s.prevEdge).toNat) := by
  rw [LineSync.edgeUpdate_waitBreak]
  cases s.waitBreak <;> simp

/-- Settles O34: the foreground agent idles, and of the inputs left only an edge touches the break
detector. -/
theorem acquisitionBlocksTheForeground : Obligations.AcquisitionBlocksTheForeground := by
  unfold Obligations.AcquisitionBlocksTheForeground
  intro s ha
  refine ⟨fun hin => ?_, fun e rest he hin => ?_, fun b rest hin hl => ?_, fun t h hr hn => ?_⟩
  · exact (step_of_inputs_nil hin).trans (foreground_of_acquiring ha)
  · rw [step_of_inputs_cons hin]
    have ha' : isAcquiring { s with inputs := rest }.state = true := ha
    simp only [List.mem_cons, List.not_mem_nil, or_false] at he
    rcases he with (rfl | rfl | rfl | rfl) | ⟨b, rfl⟩
    · exact foreground_of_acquiring ha'
    · exact directCall_of_acquiring _ ha'
    · exact directCall_of_acquiring _ ha'
    · exact directCall_of_acquiring _ ha'
    · exact congrArg Host.Outcome.next (fPtSens_of_acquiring b ha')
  · exact (step_of_inputs_cons hin).trans (congrArg Host.Outcome.next (if_pos hl))
  · rcases step_cases s with ⟨hin, hf⟩ | ⟨e, rest, hin, he⟩
    · cases (hf.trans (foreground_of_acquiring ha)).symm.trans h
      simp [hin]
    · rw [he] at h
      simp only [hin, List.head?_cons, ne_eq, Option.some.injEq] at hr hn
      by_cases hd : ∃ ts lvl, e = .edge ts lvl
      · obtain ⟨ts, lvl, rfl⟩ := hd
        cases h
        rw [edge_waitBreak_iff, hin]
        refine or_congr Iff.rfl ⟨fun ⟨hl, hb⟩ => ⟨ts, rest, by rw [hl], hb⟩, ?_⟩
        rintro ⟨ts', rest', heq, hb⟩
        cases heq
        exact ⟨rfl, hb⟩
      · have hd' : ∀ ts lvl, e ≠ .edge ts lvl := fun ts lvl hh => hd ⟨ts, lvl, hh⟩
        rw [takeInput_waitBreak (s := { s with inputs := rest }) ha h hr hn hd', hin]
        simp [hd']

end Sys2Proof.Proofs.Transitions
end

