-- ==== Sys2Proof/Proofs/Invariants.lean ====
section
/-! The invariants of the state (10_state.md R38): they hold after a reset, every step keeps them, and with a
legal environment no step stops (60_exceptions.md R310). -/

namespace Sys2Proof.Proofs.Invariants

open Sys2Proof Sys2Proof.Machine Sys2Proof.Statements
open Sys2Proof.Proofs.Commitment Sys2Proof.Proofs.Instructions Sys2Proof.Proofs.Answers
open Sys2Proof.Proofs.Transitions

/-! ### The invariants in parts

Each part speaks of the fields it is about, so a step that leaves them alone keeps it as it stands. -/

/-- Of the results: the capacities and the shape of the lines (R38 c, d). -/
structure Results (values : List Int) (lines : List Bytes) (count : Nat) : Prop where
  valuesLength : values.length = Config.valueMax
  slots : lines.length = Config.lineSlots
  countLe : count ≤ Config.valueMax
  lineWidth : ∀ l ∈ lines, l.length < Config.wWide
  linePrefix : populatedPrefix lines = true

/-- Of the reception: the capacities of the command buffer, the window and the queue (R20, R66). -/
structure Reception (cmdBuf ptWin rxq : Bytes) (cmdLen cap : Nat) : Prop where
  bufLength : cmdBuf.length = Config.cmdMax
  winLength : ptWin.length = 5
  queue : rxq.length ≤ cap
  heldLe : cmdLen ≤ Config.cmdMax

/-- Of the session: `active` and the acquisition go with its state (R37, R38 e, f, R206). -/
structure SessionInv (state : Session) (active : Bool) (acq : Option Request) (cmdLen : Nat) (cmdOvf : Bool) :
    Prop where
  notReady : state ≠ .ready
  activeIff : active = true ↔ (isAcquiring state = true ∨ state = .serialPassthrough)
  acqIff : acq.isSome = true ↔ isAcquiring state = true
  passEmpty : state = .serialPassthrough → cmdLen = 0 ∧ cmdOvf = false

theorem inv_iff {s : State} : s.Inv ↔ isAlnum s.addr = true ∧ Results s.values s.lines s.count
    ∧ Reception s.cmdBuf s.ptWin s.rxq s.cmdLen s.cfg.rxqCap
    ∧ SessionInv s.state s.active s.acq s.cmdLen s.cmdOvf := by
  constructor
  · rintro ⟨⟨h1, h2, h3, h4, h5, h6⟩, h7, h8, h9, h10, h11, h12, h13, h14⟩
    exact ⟨h7, ⟨h1, h2, h5, h8, h9⟩, ⟨h3, h4, h14, h6⟩, ⟨h10, h11, h12, h13⟩⟩
  · rintro ⟨h7, ⟨h1, h2, h5, h8, h9⟩, ⟨h3, h4, h14, h6⟩, ⟨h10, h11, h12, h13⟩⟩
    exact ⟨⟨h1, h2, h3, h4, h5, h6⟩, h7, h8, h9, h10, h11, h12, h13, h14⟩

/-- No results at all (R39, R223, R291). -/
theorem results_empty :
    Results (List.replicate Config.valueMax 0) (List.replicate Config.lineSlots []) 0 where
  valuesLength := rfl
  slots := rfl
  countLe := Nat.zero_le _
  lineWidth l hl := by
    rw [(List.mem_replicate.1 hl).2]
    decide
  linePrefix := Pack.populatedPrefix_append_empty (ls := []) Config.lineSlots nofun

theorem session_rest (cmdLen : Nat) (cmdOvf : Bool) : SessionInv .lowPower false none cmdLen cmdOvf := by
  constructor <;> simp [isAcquiring]

/-- Where no acquisition is in flight the invariants leave one session at rest. -/
theorem SessionInv.acq_none {m : Session} {active : Bool} {acq : Option Request} {cmdLen : Nat}
    {cmdOvf : Bool} (h : SessionInv m active acq cmdLen cmdOvf) (hm : isAcquiring m = false) :
    acq = none := by
  have hn := h.acqIff
  rw [hm] at hn
  simpa using hn

/-- Outside pass-through the command buffer is free. -/
theorem SessionInv.of_not_pass {m : Session} {active : Bool} {acq : Option Request} {cmdLen : Nat}
    {cmdOvf : Bool} (h : SessionInv m active acq cmdLen cmdOvf) (hm : m ≠ .serialPassthrough)
    (cmdLen' : Nat) (cmdOvf' : Bool) :
    SessionInv m active acq cmdLen' cmdOvf' :=
  ⟨h.notReady, h.activeIff, h.acqIff, fun hp => absurd hp hm⟩

theorem Reception.withQueue {cmdBuf ptWin rxq : Bytes} {cmdLen cap : Nat}
    (h : Reception cmdBuf ptWin rxq cmdLen cap) {q : Bytes} (hq : q.length ≤ cap) :
    Reception cmdBuf ptWin q cmdLen cap :=
  ⟨h.bufLength, h.winLength, hq, h.heldLe⟩

theorem Reception.withEmpty {cmdBuf ptWin rxq : Bytes} {cmdLen cap : Nat}
    (h : Reception cmdBuf ptWin rxq cmdLen cap) : Reception cmdBuf ptWin rxq 0 cap :=
  ⟨h.bufLength, h.winLength, h.queue, Nat.zero_le _⟩

/-- The oldest byte is read. -/
theorem Reception.tail {cmdBuf ptWin q : Bytes} {b : Byte} {cmdLen cap : Nat}
    (h : Reception cmdBuf ptWin (b :: q) cmdLen cap) : Reception cmdBuf ptWin q cmdLen cap :=
  h.withQueue ((Nat.le_succ _).trans h.queue)

/-- The invariants that `Reception` says of a state. -/
abbrev Receives (s : State) : Prop := Reception s.cmdBuf s.ptWin s.rxq s.cmdLen s.cfg.rxqCap

theorem receives_storeByte {s : State} (h : Receives s) (b : Byte) : Receives (storeByte b s) := by
  unfold storeByte
  split
  · rename_i hl
    exact ⟨(List.length_set ..).trans h.bufLength, h.winLength, h.queue, hl⟩
  · exact h

/-! ### Reset (R39) -/

theorem inv_resetWith (nvm : Byte) (cfg : Params) (inputs : List Input) (draws : Nat) :
    (State.resetWith nvm cfg inputs draws).Inv := by
  refine inv_iff.2 ⟨?_, results_empty, ⟨rfl, rfl, Nat.zero_le _, Nat.zero_le _⟩, session_rest _ _⟩
  by_cases h : isAlnum nvm = true
  · rwa [State.resetWith, if_pos h]
  · rw [State.resetWith, if_neg h]; rfl

/-- Settles O54: both states are made by `State.resetWith`. -/
theorem resetHasTheInvariants : Obligations.ResetHasTheInvariants :=
  ⟨inv_resetWith, inv_resetWith _ _ _ _⟩

/-! ### An instruction at rest -/

/-- The new address that the decoder reads is a legal one (R145). -/
theorem isAlnum_of_decodeCommand {text : Bytes} {ovf : Bool} {a b : Byte}
    (h : decodeCommand text ovf = .changeAddress a b) : isAlnum b = true := by
  match ovf, text with
  | true, _ => cases h
  | false, [] => cases h
  | false, [x] => by_cases hx : x = chWild <;> simp [decodeCommand, hx] at h
  | false, x :: k :: r =>
    cases hd : decodeNamed x k r with
    | none => rw [Codec.decodeCommand_of_none hd] at h; cases h
    | some i =>
      rw [Codec.decodeCommand_named hd] at h
      subst h
      have hf := decodeNamed_some hd
      simp only [reduceCtorEq, and_false, exists_false, Instr.changeAddress.injEq, false_or, or_false] at hf
      obtain ⟨b', -, -, hb, -, rfl⟩ := hf
      exact hb

/-- From rest with an empty command buffer, an instruction whose new address is legal keeps the invariants. -/
theorem inv_exec {i : Instr} {s t : State} (h : s.Inv) (hs : s.state = .lowPower)
    (he : s.cmdLen = 0 ∧ s.cmdOvf = false) (hi : ∀ a b, i = .changeAddress a b → isAlnum b = true)
    (hx : exec i s = .next t) : t.Inv := by
  obtain ⟨ha, hr, hq, hn⟩ := inv_iff.1 h
  have hacq : s.acq = none := hn.acq_none (by rw [hs]; rfl)
  have hrest : ∀ l o, SessionInv .lowPower false s.acq l o := fun l o => hacq ▸ session_rest l o
  cases effect_of_exec hx with
  | discarded | query | rearmed | edge => exact inv_iff.2 ⟨ha, hr, hq, hn⟩
  | reply => exact inv_iff.2 ⟨ha, hr, hq, hrest _ _⟩
  | changedAddress a b hb => exact inv_iff.2 ⟨hi a b hb, hr, hq, hrest _ _⟩
  | acknowledged a cls idx crc e =>
    refine inv_iff.2 ⟨ha, ⟨hr.valuesLength, hr.slots, e.nLessOne.isLt, hr.lineWidth, hr.linePrefix⟩, hq, ?_⟩
    cases cls <;> constructor <;> simp [classState, isAcquiring]
  | zeroCount => exact inv_iff.2 ⟨ha, results_empty, hq, hrest _ _⟩
  | enteredPass =>
    exact inv_iff.2 ⟨ha, hr, ⟨hq.bufLength, rfl, hq.queue, hq.heldLe⟩, nofun, by simp,
      by simp [hacq, isAcquiring], fun _ => he⟩
  | exitedPass _ hp => cases hs.symm.trans hp

/-! ### An answer -/

/-- A delivery keeps the invariants: its values are n, and `Pack` guarantees the lines (R230, R267). -/
theorem inv_delivered {res : AcqResult} {u t : State} (h : u.Inv) (hd : Delivered res u t) : t.Inv := by
  obtain ⟨ha, hr, hq, -⟩ := inv_iff.1 h
  obtain ⟨⟨w, hw, hw', hp⟩, fs, ht⟩ := hd
  have hlen : (normalise res u.count).length ≤ 10 := by
    rw [normalise_length]
    exact hr.countLe.trans (by decide)
  obtain ⟨hl, hlw, hlp, -⟩ := Pack.packGuarantees u.cfg.pReq w _ t.lines hw hlen hp
  rw [ht]
  refine inv_iff.2 ⟨ha, ⟨?_, hl, hr.countLe, fun l hm => (hlw l hm).trans_le hw', hlp⟩, hq, session_rest _ _⟩
  rw [List.length_append, normalise_length, List.length_drop, hr.valuesLength]
  exact Nat.add_sub_of_le hr.countLe

/-- Reselection keeps the capacities, of whatever is left of the queue. -/
theorem receives_drain : ∀ (q : Bytes) {s : State}, Receives s → q.length ≤ s.cfg.rxqCap →
    Receives (drain q s).2
  | [], _, h, hq => h.withQueue hq
  | b :: q, s, h, hq => by
    have hq' : q.length ≤ s.cfg.rxqCap := (Nat.le_succ _).trans hq
    unfold drain
    split
    · split
      · exact h.withEmpty.withQueue hq'
      · exact receives_drain q (s := endCommand s) h.withEmpty hq'
    · exact receives_drain q (receives_storeByte h b) (by rw [storeByte_cfg]; exact hq')

theorem inv_reselect {s : State} (h : s.Inv) (hs : s.state ≠ .serialPassthrough) : (reselect s).2.Inv := by
  obtain ⟨ha, hr, hq, hn⟩ := inv_iff.1 h
  unfold reselect
  split
  · exact inv_iff.2 ⟨ha, hr, hq.withEmpty.withQueue (Nat.zero_le _), hn.of_not_pass hs _ _⟩
  · have hd := receives_drain s.rxq hq hq.queue
    rw [drain_frame] at hd ⊢
    exact inv_iff.2 ⟨ha, hr, hd, hn.of_not_pass hs _ _⟩

/-- The command that reselection finds has been taken out of the buffer. -/
theorem drain_found_empties : ∀ (q : Bytes) (s : State) {i : Instr}, (drain q s).1 = some i →
    (drain q s).2.cmdLen = 0 ∧ (drain q s).2.cmdOvf = false
  | [], _, _, h => by cases h
  | b :: q, s, i, h => by
    unfold drain at h ⊢
    split at h <;> rename_i hb
    · rw [if_pos hb]
      split at h <;> rename_i hf
      · rw [if_pos hf]; exact ⟨rfl, rfl⟩
      · rw [if_neg hf]; exact drain_found_empties q _ h
    · rw [if_neg hb]; exact drain_found_empties q _ h

theorem reselect_found {s : State} {i : Instr} (h : (reselect s).1 = some i) :
    ((reselect s).2.cmdLen = 0 ∧ (reselect s).2.cmdOvf = false) ∧ ∃ text ovf, i = decodeCommand text ovf := by
  unfold reselect at h ⊢
  split at h <;> rename_i ho
  · cases h
  · rw [if_neg ho]
    exact ⟨drain_found_empties _ _ h, (drain_found _ _ _ h).1⟩

/-- A cancellation leaves the invariants, at rest. -/
theorem inv_cancel {s : State} (h : s.Inv) : (cancel (endAcquisition s)).Inv := by
  obtain ⟨ha, -, hq, -⟩ := inv_iff.1 h
  exact inv_iff.2 ⟨ha, results_empty, hq, session_rest _ _⟩

theorem inv_answer {res : AcqResult} {s t : State} (h : s.Inv) (hf : fAcq res s = .next t) : t.Inv := by
  have hu : s.state = .concurrent → (reselect s).2.Inv := fun hs => inv_reselect h (by rw [hs]; decide)
  rcases fAcq_next hf with ⟨-, -, rfl⟩ | ⟨-, hd⟩ | ⟨hs, -, hd⟩ | ⟨hs, i, hi, hx⟩
  · exact inv_cancel h
  · exact inv_delivered h hd
  · exact inv_delivered (hu hs) hd
  · obtain ⟨he, text, ovf, hc⟩ := reselect_found hi
    exact inv_exec (inv_cancel (hu hs)) rfl he (fun a b hb => isAlnum_of_decodeCommand (hc.symm.trans hb)) hx

/-! ### The step -/

theorem inv_taken {s t : State} {e : Input} (h : s.Inv) (hk : Taken s e t) : t.Inv := by
  obtain ⟨ha, hr, hq, hn⟩ := inv_iff.1 h
  have hrest : s.state = .lowPower → s.state ≠ .serialPassthrough := fun hs => by rw [hs]; decide
  cases hk with
  | idle | edge | queried | rearmed | lost => exact inv_iff.2 ⟨ha, hr, hq, hn⟩
  | recovered hs =>
    exact inv_iff.2 ⟨ha, hr, hq.withEmpty.withQueue (Nat.zero_le _), hn.of_not_pass (hrest hs) _ _⟩
  | stored b q hs _ hb _ =>
    rw [hb] at hq
    have hst := receives_storeByte (s := setQueue q s) hq.tail b
    refine inv_iff.2 ⟨?_, ?_, hst, ?_⟩
    · simpa using ha
    · simpa using hr
    · simpa using hn.of_not_pass (hrest hs) _ _
  | ran q t hs _ hb hx =>
    rw [hb] at hq
    have hu : (endCommand (setQueue q s)).Inv :=
      inv_iff.2 ⟨ha, hr, hq.withEmpty.tail, hn.of_not_pass (hrest hs) _ _⟩
    exact inv_exec hu hs ⟨rfl, rfl⟩ (fun a b => isAlnum_of_decodeCommand) hx
  | dropped => exact inv_iff.2 ⟨ha, hr, hq.withQueue (Nat.zero_le _), hn⟩
  | forwarded b q _ _ hb _ =>
    rw [hb] at hq
    exact inv_iff.2 ⟨ha, hr, ⟨hq.bufLength, by simp [hq.winLength], hq.tail.queue, hq.heldLe⟩, hn⟩
  | exited q hs _ hb _ =>
    rw [hb] at hq
    have hacq : s.acq = none := hn.acq_none (by rw [hs]; rfl)
    exact inv_iff.2 ⟨ha, hr, ⟨hq.bufLength, by simp [passExit, hq.winLength], hq.tail.queue, hq.heldLe⟩,
      hacq ▸ session_rest _ _⟩
  | received b =>
    rcases rxAppend_cases b s with ⟨hl, he⟩ | ⟨-, he⟩ <;> rw [he]
    · exact inv_iff.2 ⟨ha, hr, hq.withQueue (by simpa using hl), hn⟩
    · exact inv_iff.2 ⟨ha, hr, hq, hn⟩
  | sensor b =>
    unfold fPtSens
    split
    · exact inv_iff.2 ⟨ha, hr, hq, hn⟩
    · exact h
  | answered res t hf => exact inv_answer h hf
  | reset => exact inv_resetWith _ _ _ _

/-- Settles O53: by the inversion of the step, `inv_taken` for the input it takes. -/
theorem stepKeepsTheInvariants : Obligations.StepKeepsTheInvariants := by
  unfold Obligations.StepKeepsTheInvariants
  intro s t h hst
  obtain ⟨e, rest, -, hk⟩ := step_taken hst
  exact inv_taken (s := { s with inputs := rest }) (inv_iff.2 (inv_iff (s := s).1 h)) hk

/-! ### A legal environment (R310) -/

/-- The values of a legal answer are in range, and so are the zeros that stand for missing ones. -/
theorem normalise_in_range {res : AcqResult} (hl : res.legal = true) (n : Nat) :
    ∀ m ∈ normalise res n, m.natAbs < 9999999500000 := by
  have hz : ∀ m ∈ List.replicate n (0 : Int), m.natAbs < 9999999500000 := fun m hm => by
    rw [(List.mem_replicate.1 hm).2]
    decide
  cases res with
  | timeout => exact hz
  | ok vs =>
    simp only [AcqResult.legal, Bool.and_eq_true, List.all_eq_true, decide_eq_true_eq] at hl
    intro m hm
    rcases List.mem_append.1 (List.mem_of_mem_take hm) with hm | hm
    · exact hl.2 m hm
    · exact hz m hm

/-- Settles O55: a step stops at an answer only, which is due and in range; then O53. -/
theorem legalStepsNeverStop : Obligations.LegalStepsNeverStop := by
  unfold Obligations.LegalStepsNeverStop
  intro s h hl
  suffices ∃ t, step s = .next t from this.imp fun t ht => ⟨ht, stepKeepsTheInvariants s t h ht⟩
  rcases step_completes_or_answers s with hc | ⟨res, rest, hin, hf⟩
  · exact hc
  · simp only [State.inputLegal, hin, Bool.and_eq_true] at hl
    obtain ⟨ha, hv⟩ := hl
    rw [hf]
    cases hr : fAcq res { s with inputs := rest } with
    | next t => exact ⟨t, rfl⟩
    | fault r =>
      obtain ⟨hn, -⟩ := fAcq_fault_iff.1 hr
      cases ha.symm.trans hn
    | refused r =>
      obtain ⟨m, hm, hge⟩ := fAcq_refused hr
      exact absurd (normalise_in_range hv _ m hm) (Nat.not_lt.2 hge)

end Sys2Proof.Proofs.Invariants
end

