-- ==== Sys2Proof/Proofs/PrevEdge.lean ====
section
/-! Nothing but an edge observes `prevEdge` (20_memory.md R72 c): every operation of the foreground agent
commutes with a write to it. -/

namespace Sys2Proof.Proofs.PrevEdge

open Sys2Proof Sys2Proof.Machine Sys2Proof.Statements Sys2Proof.Proofs.Instructions

/-- The state with another `prevEdge`. -/
def withPrev (x : Timestamp) (s : State) : State := { s with prevEdge := x }

/-! ### Instructions -/

theorem gate_withPrev {f : State → State} (x : Timestamp) (hf : ∀ s, f (withPrev x s) = withPrev x (f s))
    (a : Byte) (s : State) : gate a f (withPrev x s) = withPrev x (gate a f s) := by
  unfold gate
  rw [show addressed (withPrev x s) a = addressed s a from rfl,
    show activate (withPrev x s) = withPrev x (activate s) from rfl, hf]
  split <;> rfl

theorem startMeasurement_withPrev (cls : MeasClass) (idx : Option Nat) (crc : Bool) (x : Timestamp)
    (s : State) :
    startMeasurement cls idx crc (withPrev x s) = withPrev x (startMeasurement cls idx crc s) := by
  unfold startMeasurement
  dsimp only
  rw [show (withPrev x s).cfg = s.cfg from rfl]
  cases measTable s.cfg cls idx <;> rfl

theorem handler_withPrev (i : Instr) (x : Timestamp) (s : State) :
    handler i (withPrev x s) = withPrev x (handler i s) := by
  cases i
  case measure | measureIdx | measureCrc | concurrent | concurrentIdx | verify | continuous | highVolumeA
    | highVolumeB => simp only [handler, startMeasurement_withPrev]
  case changeAddress b => simp only [handler, doChangeAddress_eq]; rfl
  case extM | extU => simp only [handler, finish_applyExt]; rfl
  case unknown => simp only [handler, doUnknown_eq]; rfl
  all_goals rfl

theorem exec_withPrev {i : Instr} (hi : ∀ ts lvl, i ≠ .onEdge ts lvl) (x : Timestamp) (s : State) :
    exec i (withPrev x s) = mapNext (withPrev x) (exec i s) := by
  have hc : ∀ {j : Instr} {a : Byte}, j.address? = some a →
      exec j (withPrev x s) = mapNext (withPrev x) (exec j s) := fun {j a} ha => by
    rw [exec_command ha, exec_command ha, gate_withPrev x (handler_withPrev j x)]; rfl
  rcases instr_cases i with ⟨a, ha⟩ | rfl | ⟨ts, lvl, rfl⟩ | hi
  · exact hc ha
  · rcases exec_exitToken_cases s with ⟨hs, h⟩ | ⟨hs, h⟩ <;> rw [h]
    · exact if_pos hs
    · rw [← hc (j := .unknown exitText false) rfl]
      exact if_neg hs
  · exact absurd rfl (hi ts lvl)
  · simp only [List.mem_cons, List.not_mem_nil, or_false] at hi
    rcases hi with rfl | rfl | rfl <;> rfl

/-! ### The foreground agent -/

theorem storeByte_withPrev (b : Byte) (x : Timestamp) (s : State) :
    storeByte b (withPrev x s) = withPrev x (storeByte b s) := by
  unfold storeByte
  rw [show (withPrev x s).cmdLen = s.cmdLen from rfl]
  split <;> rfl

theorem heldInstr_ne_onEdge (s : State) (ts : Timestamp) (lvl : Level) : heldInstr s ≠ .onEdge ts lvl := by
  intro h
  have hc := Codec.decoderAgreesWithParse (heldCommand s) s.cmdOvf
  rw [show decodeCommand (heldCommand s) s.cmdOvf = .onEdge ts lvl from h] at hc
  cases hc

theorem fRx_withPrev (x : Timestamp) (s : State) : fRx (withPrev x s) = mapNext (withPrev x) (fRx s) := by
  rcases fRx_cases s with ⟨ho, h⟩ | ⟨ho, hq, h⟩ | ⟨b, q, ho, hq, hb, h⟩ | ⟨q, ho, hq, h⟩ <;> rw [h]
  · exact Steps.fRx_of_overflow (s := withPrev x s) ho
  · unfold fRx
    rw [show (withPrev x s).rxOvf = false from ho, show (withPrev x s).rxq = [] from hq]
    rfl
  · rw [Steps.fRx_of_byte (s := withPrev x s) ho hq hb]
    exact congrArg Host.Outcome.next (storeByte_withPrev b x (setQueue q s))
  · rw [Steps.fRx_of_terminator (s := withPrev x s) ho hq]
    exact exec_withPrev (heldInstr_ne_onEdge s) x (endCommand (setQueue q s))

theorem fPtBus_withPrev (x : Timestamp) (s : State) :
    fPtBus (withPrev x s) = mapNext (withPrev x) (fPtBus s) := by
  rcases fPtBus_cases s with ⟨ho, h⟩ | ⟨ho, hq, h⟩ | ⟨b, q, ho, hq, ⟨hw, h⟩ | ⟨hw, h⟩⟩ <;> rw [h]
  · exact Steps.fPtBus_of_overflow (s := withPrev x s) ho
  · unfold fPtBus
    rw [show (withPrev x s).rxOvf = false from ho, show (withPrev x s).rxq = [] from hq]
    rfl
  · exact (Steps.fPtBus_of_byte (s := withPrev x s) ho hq).trans (if_neg hw)
  · exact ((Steps.fPtBus_of_byte (s := withPrev x s) ho hq).trans (if_pos hw)).trans
      (exec_withPrev (by simp) x (shiftWindow b (toSensor [b] (setQueue q s))))

theorem foreground_withPrev (x : Timestamp) (s : State) :
    foreground (withPrev x s) = mapNext (withPrev x) (foreground s) := by
  unfold foreground
  rw [show (withPrev x s).state = s.state from rfl, show available (withPrev x s) = available s from rfl,
    fRx_withPrev, fPtBus_withPrev]
  split
  · rfl
  · split <;> rfl

theorem directCall_withPrev {i : Instr} (hi : ∀ ts lvl, i ≠ .onEdge ts lvl) (x : Timestamp) (s : State) :
    directCall i (withPrev x s) = mapNext (withPrev x) (directCall i s) := by
  unfold directCall
  rw [show (withPrev x s).state = s.state from rfl, exec_withPrev hi]
  split <;> rfl

/-! ### An answer -/

theorem deliver_withPrev (vals : List Int) (w : Nat) (sr : Bool) (x : Timestamp) (s : State) :
    deliver vals w sr (withPrev x s) = mapNext (withPrev x) (deliver vals w sr s) := by
  cases h : pack s.cfg.pReq w ((storeValues vals s).values.take s.count) with
  | none => rw [deliver_refused h]; exact deliver_refused (s := withPrev x s) h
  | some ls => rw [deliver_of_pack h]; exact deliver_of_pack (s := withPrev x s) h

theorem drain_withPrev (x : Timestamp) : ∀ (q : Bytes) (s : State),
    drain q (withPrev x s) = ((drain q s).1, withPrev x (drain q s).2)
  | [], _ => rfl
  | b :: q, s => by
    unfold drain
    rw [show endCommand (withPrev x s) = withPrev x (endCommand s) from rfl,
      show heldInstr (withPrev x s) = heldInstr s from rfl,
      show ∀ i, forThisDevice (withPrev x s) i = forThisDevice s i from fun _ => rfl,
      storeByte_withPrev, drain_withPrev x q, drain_withPrev x q]
    split
    · split <;> rfl
    · rfl

theorem reselect_withPrev (x : Timestamp) (s : State) :
    reselect (withPrev x s) = ((reselect s).1, withPrev x (reselect s).2) := by
  unfold reselect
  rw [show (withPrev x s).rxOvf = s.rxOvf from rfl, show (withPrev x s).rxq = s.rxq from rfl, drain_withPrev]
  split <;> rfl

/-- The command that reselection finds is one the decoder read, and so no edge. -/
theorem reselect_ne_onEdge {s : State} {i : Instr} (h : (reselect s).1 = some i) (ts : Timestamp)
    (lvl : Level) : i ≠ .onEdge ts lvl := by
  rintro rfl
  obtain ⟨-, text, ovf, hc⟩ := Invariants.reselect_found h
  have hp := Codec.decoderAgreesWithParse text ovf
  rw [← hc] at hp
  cases hp

theorem acqConcurrent_withPrev (res : AcqResult) (x : Timestamp) (s : State) :
    acqConcurrent res (withPrev x s) = mapNext (withPrev x) (acqConcurrent res s) := by
  unfold acqConcurrent
  rw [reselect_withPrev]
  rcases hr : reselect s with ⟨o, u⟩
  cases o with
  | none => exact deliver_withPrev _ _ _ x u
  | some i => exact exec_withPrev (reselect_ne_onEdge (s := s) (by rw [hr])) x (cancel u)

theorem fAcq_withPrev (res : AcqResult) (x : Timestamp) (s : State) :
    fAcq res (withPrev x s) = mapNext (withPrev x) (fAcq res s) := by
  unfold fAcq
  rw [show (withPrev x s).state = s.state from rfl]
  cases s.state with
  | lowPower | ready | serialPassthrough => rfl
  | verify | continuous | highVolume => exact deliver_withPrev _ _ _ x (endAcquisition s)
  | concurrent => exact acqConcurrent_withPrev res x (endAcquisition s)
  | measuring =>
    dsimp only
    unfold acqMeasuring
    split
    · rename_i h; rw [if_pos (by exact h)]; rfl
    · rename_i h; rw [if_neg (by exact h)]; exact deliver_withPrev _ _ _ x (endAcquisition s)

/-! ### The step -/

theorem takeInput_withPrev {e : Input} (he : ∀ ts lvl, e ≠ .edge ts lvl) (hr : e ≠ .reset) (x : Timestamp)
    (s : State) : takeInput e (withPrev x s) = mapNext (withPrev x) (takeInput e s) := by
  cases e with
  | poll => exact foreground_withPrev x s
  | edge ts lvl => exact absurd rfl (he ts lvl)
  | queryBreak | queryMark | rearm => exact directCall_withPrev (by simp) x s
  | rxByte b =>
    refine congrArg Host.Outcome.next ?_
    unfold rxAppend
    rw [show (withPrev x s).rxq = s.rxq from rfl, show (withPrev x s).cfg = s.cfg from rfl]
    split <;> rfl
  | rxOverflow => rfl
  | answer res => exact fAcq_withPrev res x s
  | sensorByte b =>
    refine congrArg Host.Outcome.next ?_
    unfold fPtSens
    rw [show (withPrev x s).state = s.state from rfl]
    split <;> rfl
  | reset => exact absurd rfl hr

/-- Settles O6: with or without an input due, what moves commutes with the write. -/
theorem foregroundNeverObservesPrevEdge : Obligations.ForegroundNeverObservesPrevEdge := by
  unfold Obligations.ForegroundNeverObservesPrevEdge
  intro s x he hr
  rcases step_cases s with ⟨hin, hf⟩ | ⟨e, rest, hin, hf⟩ <;> rw [hf]
  · exact (Steps.step_of_inputs_nil (s := withPrev x s) hin).trans (foreground_withPrev x s)
  · simp only [hin, List.head?_cons, ne_eq, Option.some.injEq] at he hr
    rw [Commitment.step_of_inputs_cons (s := { s with prevEdge := x }) hin]
    exact takeInput_withPrev he hr x { s with inputs := rest }

end Sys2Proof.Proofs.PrevEdge
end
